-- ==== Sys2Proof/Word.lean ====
section
/-! DEFINITION. The word types of CODING-CORE: bytes of data memory, 64-bit CSRs, 32-bit command words and
vector registers. Bit 0 is the least significant bit of every value (spec/00_scope.md R9). -/

namespace Sys2Proof

/-- One byte of the data memory (20_memory.md R80). -/
abbrev Byte := BitVec 8

/-- The content of a control and status register (10_state.md R32). -/
abbrev Word := BitVec 64

/-- A command word (30_encoding.md R110). -/
abbrev CmdWord := BitVec 32

/-- A vector register at the widest VLEN the spec allows; a machine with a smaller VLEN holds its register in
the low VLEN bits and zero above (00_scope.md R6, 10_state.md R54). -/
abbrev VWord := BitVec 512

end Sys2Proof
end

