-- ==== Sys2Proof/Config.lean ====
section
/-! DEFINITION. What an implementation fixes (the parameters of 00_scope.md R6) and the values the spec leaves
free. The parameters are plain data that State carries and no step changes, so a statement about every state is a
statement about every implementation; `Config.params` only says which implementation `State.reset` is. -/

namespace Sys2Proof

/-- VLEN, the vector register width, one of {128, 256, 512} (00_scope.md R6). -/
inductive VLen where
  | v128 | v256 | v512
  deriving DecidableEq, Repr

/-- VLEN in bits. -/
def VLen.bits : VLen → Nat
  | .v128 => 128
  | .v256 => 256
  | .v512 => 512

/-- The VLEN code that PARAM[1:0] reports (10_state.md R33). -/
def VLen.code : VLen → Nat
  | .v128 => 0
  | .v256 => 1
  | .v512 => 2

/-- VREG_UNINIT, what a read of a never-written vector register yields (00_scope.md R6, decision D19): the value the
register holds together with the fault of 10_state.md R56 on record, or the value alone, as any datapath would give
(70_reset_and_hazards.md R347). -/
inductive VregUninit where
  | fault | value
  deriving DecidableEq, Repr

/-- One entry of the platform's admission predicate: accesses of the listed byte counts that lie wholly in
[lo, hi) are accepted. -/
structure Window where
  lo : Nat
  hi : Nat
  sizes : List Nat
  deriving DecidableEq, Repr

/-- The parameters of 00_scope.md R6 (see notes/assumptions/1.md, 2.md, 3.md, 4.md and 6.md). -/
structure Params where
  /-- VLEN (R6, decision D19). -/
  vlen : VLen
  /-- The platform predicate mem_ok as a list of windows, any of which may admit an access (R6, decision D24).
  Every predicate can be written so: `Sys2Proof.Laws.every_admission_predicate_is_a_window_list`. -/
  memMap : List Window
  /-- MMIO_BASE, the host address of the CSR window (R6, decision D3). -/
  mmioBase : Nat
  /-- HAMMING_MASKS for w = 16 (43_hamming.md R231). -/
  masks16 : Vector (BitVec 16) 5
  /-- HAMMING_MASKS for w = 32 (43_hamming.md R231). -/
  masks32 : Vector (BitVec 32) 6
  /-- VREG_UNINIT (R6, decision D19). -/
  vregUninit : VregUninit
  deriving DecidableEq, Repr

/-- mem_ok(a, n): the data memory accepts an access of n bytes at byte address a (00_scope.md R6). -/
def Params.memOk (p : Params) (a n : Nat) : Bool :=
  p.memMap.any fun w => w.lo ≤ a && a + n ≤ w.hi && w.sizes.contains n

/-- The byte counts a data-memory access may have (10_state.md R30, 20_memory.md R83). -/
def Config.accessSizes : List Nat := [1, 2, 4, 8, 16, 32, 64]

/-- The implementation that `State.reset` is. DESIGN CHOICE (notes/assumptions/1.md to 4.md): the spec leaves VLEN,
mem_ok and MMIO_BASE open; these are the values of the one platform the spec writes out, the test platform of
95_test_vectors.md section 0, and the default masks of 43_hamming.md R231. VREG_UNINIT is
`fault`, as R6 fixes it. -/
def Config.params : Params where
  vlen := .v128
  memMap := [⟨0x1000, 0x10000, Config.accessSizes⟩]
  mmioBase := 0
  masks16 := #v[0xAD5B, 0x366D, 0xC78E, 0x07F0, 0xF800]
  masks32 := #v[0x56AAAD5B, 0x9B33366D, 0xE3C3C78E, 0x03FC07F0, 0x03FFF800, 0xFC000000]
  vregUninit := .fault

/-- What a byte of data memory that nothing has written reads as. DESIGN CHOICE, unsafe (notes/assumptions/5.md):
data memory is not part of the block (10_state.md R59) and 95_test_vectors.md section 0 takes it as 0. -/
def Config.unlistedByte : Byte := 0

/-- Free values for bytes: the n-th byte the model draws freely (20_memory.md R96, 70_reset_and_hazards.md R343).
No body: nothing about it can be proved. -/
opaque Config.freeByte : Nat → Byte

/-- Free values for CSR reads: the n-th word the model draws freely (70_reset_and_hazards.md R350). -/
opaque Config.freeWord : Nat → Word

end Sys2Proof
end

