-- ==== Sys2Proof/Syntax.lean ====
section
/-! DEFINITION. The commands of CODING-CORE: one constructor for each of the 34 rows of
spec/opcode_table.json (30_encoding.md R119), with the fields the row's format carries. -/

namespace Sys2Proof

/-- Element width field: 0b00 = 8, 0b01 = 16, 0b10 = 32, 0b11 = 64 (10_state.md R36, 30_encoding.md R112). -/
inductive EW where
  | e8 | e16 | e32 | e64
  deriving DecidableEq, Repr

/-- Signedness: 0 = unsigned, 1 = signed (10_state.md R36, 30_encoding.md R112). -/
inductive Sgn where
  | unsigned | signed
  deriving DecidableEq, Repr

/-- A vector register number 0..7 (30_encoding.md R114). -/
abbrev VNum := Fin 8

/-- The commands (30_encoding.md R119). Format N commands carry nothing, Format M commands a register and a
byte offset, Format R commands their registers, element width and signedness; VHPAR also carries its F field,
the mask index K (R117). -/
inductive Instr where
  -- control and solver (40_solver.md)
  | nop
  | seta
  | modinv
  -- AN codec (41_an_codec.md)
  | enc
  | chk
  | dec
  | decchk
  | reenc
  -- AN arithmetic (42_an_arith.md)
  | arithAdd
  | arithSub
  | arithMul
  | arithDiv
  -- Hamming codec (43_hamming.md)
  | henc
  | hchk
  -- SIMD vector layer (44_simd.md)
  | vld (vr : VNum) (imm : BitVec 16)
  | vst (vr : VNum) (imm : BitVec 16)
  | vadd (vd vs1 vs2 : VNum) (ew : EW) (sg : Sgn)
  | vsub (vd vs1 vs2 : VNum) (ew : EW) (sg : Sgn)
  | vmullo (vd vs1 vs2 : VNum) (ew : EW) (sg : Sgn)
  | vdiv (vd vs1 vs2 : VNum) (ew : EW) (sg : Sgn)
  | vmin (vd vs1 vs2 : VNum) (ew : EW) (sg : Sgn)
  | vmax (vd vs1 vs2 : VNum) (ew : EW) (sg : Sgn)
  | vcmpLt (vd vs1 vs2 : VNum) (ew : EW) (sg : Sgn)
  | vcmpLe (vd vs1 vs2 : VNum) (ew : EW) (sg : Sgn)
  | vcmpEq (vd vs1 vs2 : VNum) (ew : EW) (sg : Sgn)
  | vcmpNe (vd vs1 vs2 : VNum) (ew : EW) (sg : Sgn)
  | vcmpGe (vd vs1 vs2 : VNum) (ew : EW) (sg : Sgn)
  | vcmpGt (vd vs1 vs2 : VNum) (ew : EW) (sg : Sgn)
  | vredsum (vd vs1 : VNum) (ew : EW) (sg : Sgn)
  | vredmin (vd vs1 : VNum) (ew : EW) (sg : Sgn)
  | vredmax (vd vs1 : VNum) (ew : EW) (sg : Sgn)
  | vpopcnt (vd vs1 : VNum) (ew : EW) (sg : Sgn)
  | vcompress (vd vs1 vs2 : VNum) (ew : EW) (sg : Sgn)
  | vhpar (vd vs1 : VNum) (ew : EW) (sg : Sgn) (k : Fin 8)
  deriving DecidableEq, Repr

/-- The element width in bits. -/
def EW.bits : EW → Nat
  | .e8 => 8
  | .e16 => 16
  | .e32 => 32
  | .e64 => 64

/-- The two-bit code of an element width. -/
def EW.code : EW → Nat
  | .e8 => 0
  | .e16 => 1
  | .e32 => 2
  | .e64 => 3

/-- The S bit of a signedness. -/
def Sgn.code : Sgn → Nat
  | .unsigned => 0
  | .signed => 1

end Sys2Proof
end

