-- ==== Sys2Proof/Machine/State.lean ====
section
/-! DEFINITION. Everything the spec gives the machine, as plain data: the CSRs (10_state.md R32 to R52), the vector
registers (R54 to R56), the hidden sequencer state (R57), the data memory the block reaches (20_memory.md R80), the
implementation's parameters (00_scope.md R6), and the environment's pending transactions (00_scope.md R17). -/

namespace Sys2Proof.Machine

/-- The error codes of 60_exceptions.md R310; no other value is ever produced. -/
inductive ErrCode where
  | none
  | illegalCommand
  | configError
  | invariantViolation
  | corruptionDetected
  | checksumMismatch
  | divideByZero
  | busError
  | bufferOverlap
  deriving DecidableEq, Repr

/-- The control and status registers of 10_state.md R32 that hold state. ID and PARAM are constants of the
implementation (R33) and are computed where they are read; reserved bits (R52) hold no state. -/
structure Csrs where
  /-- CMD, the last accepted command word; bits [63:32] always read 0 (R34). -/
  cmd : CmdWord
  /-- STATUS.BUSY, also the sequencer phase: IDLE when 0, RUNNING when 1 (R35, R57). -/
  busy : Bool
  /-- STATUS.DONE (R35). -/
  done : Bool
  /-- STATUS.OVR (R35, R53). -/
  ovr : Bool
  /-- STATUS.ERR (R35). -/
  err : ErrCode
  /-- CFG (R36). -/
  cfg : Word
  /-- A (R38). -/
  a : Word
  /-- AINV (R39). -/
  ainv : Word
  /-- AW (R40). -/
  aw : Word
  /-- A_IN (R41). -/
  aIn : Word
  /-- SRC (R42). -/
  src : Word
  /-- DST (R42). -/
  dst : Word
  /-- COUNT (R43). -/
  count : Word
  /-- ITER (R44). -/
  iter : Word
  /-- OPERAND (R45). -/
  operand : Word
  /-- FAIL_INDEX (R46). -/
  failIndex : Word
  /-- FAIL_ITER (R46). -/
  failIter : Word
  /-- HMCOUNT (R47). -/
  hmcount : Word
  /-- SOLV_B (R48). -/
  solvB : Word
  /-- SOLV_K (R48). -/
  solvK : Word
  /-- SOLV_A (R49). -/
  solvA : Word
  /-- VBASE (R50). -/
  vbase : Word
  /-- VCNT (R51). -/
  vcnt : Word
  deriving DecidableEq, Repr

/-- One vector register (10_state.md R55) with the spec's never-written mark (R56, 70_reset_and_hazards.md R341). -/
structure VReg where
  val : VWord
  written : Bool
  deriving DecidableEq, Repr

/-- The progress of a running command (10_state.md R57): the current iteration, the current element index, and
HCHK's flag that a mismatch has been recorded; idle between steps (notes/assumptions/14.md). -/
structure Seq where
  it : Nat
  i : Nat
  found : Bool
  deriving DecidableEq, Repr

/-- The data memory: (address, byte) pairs in the canonical form `Memory.wf`; an unlisted address reads as
`Config.unlistedByte`. -/
abbrev Memory := List Host.Cell

/-- The canonical form: addresses strictly rising and inside the 64-bit space (20_memory.md R80), and no entry equal
to what an unlisted address reads as. -/
abbrev Memory.wf (m : Memory) : Prop :=
  m.Pairwise (fun c d => c.1 < d.1) ∧ ∀ c ∈ m, c.1 < 2 ^ 64 ∧ c.2 ≠ Config.unlistedByte

/-- A transaction of the environment (00_scope.md R17, 10_state.md R30): CSR-window reads and writes at a host
address, data-memory reads and writes by the host (30_encoding.md R126), and the reset input. -/
inductive HostTxn where
  | mmioRead (addr n : Nat)
  | mmioWrite (addr n : Nat) (v : Word)
  | memRead (a : Word) (n : Nat)
  | memWrite (a : Word) (n v : Nat)
  | reset
  deriving DecidableEq, Repr

/-- Who moves next: the CORE sequencer or the environment (notes/assumptions/7.md). -/
inductive Turn where
  | core
  | host (t : HostTxn)
  deriving DecidableEq, Repr

/-- The machine and its environment. -/
structure State where
  /-- The implementation's parameters; no step changes them (00_scope.md R6). -/
  params : Params
  /-- The CSRs. -/
  csr : Csrs
  /-- v0 .. v7. -/
  vregs : Vector VReg 8
  /-- The data memory. -/
  mem : Memory
  /-- The progress of the running command. -/
  seq : Seq
  /-- The model's own: the turns to come, next first (notes/assumptions/7.md). -/
  schedule : List Turn
  /-- The model's own: the bytes of the running command's ranges that the host wrote while BUSY (20_memory.md R96). -/
  raced : List Nat
  /-- The model's own: how many free values have been drawn (notes/assumptions/8.md). -/
  freeIdx : Nat
  /-- The model's own: what the host's last answered read returned. -/
  rdata : Nat
  /-- The model's own: the fault of 10_state.md R56 on record, naming the never-written vector register that a vector
  instruction has read first since reset (notes/assumptions/6.md). The machine goes on; nothing of the block reads it. -/
  vregFault : Option VNum
  deriving DecidableEq, Repr

/-- The reasons a step stops with a fault: there is none. An error of a command is a next state (60_exceptions.md R316),
and the one fault the spec gives its model, the read of a never-written vector register (10_state.md R56), is recorded in
`State.vregFault` while the machine goes on. -/
inductive Fault where
  deriving DecidableEq, Repr

/-- The reasons a step refuses. -/
inductive Refusal where
  /-- Raised by an arm of `exec` whose instruction has no meaning yet; no arm does. Safe. -/
  | notModelled (mnemonic : String)
  deriving DecidableEq, Repr

/-- The CSRs after reset (10_state.md R59, 70_reset_and_hazards.md R341). -/
def Csrs.reset : Csrs where
  cmd := 0
  busy := false
  done := false
  ovr := false
  err := .none
  cfg := 0
  a := 0
  ainv := 0
  aw := 0
  aIn := 0
  src := 0
  dst := 0
  count := 0
  iter := 0
  operand := 0
  failIndex := 0
  failIter := 0
  hmcount := 0
  solvB := 0
  solvK := 0
  solvA := 0
  vbase := 0
  vcnt := 0

/-- A vector register after reset: never written. Its value is UNSPECIFIED by the spec (10_state.md R56); the model
names 0. DESIGN CHOICE, unsafe (notes/assumptions/6.md). -/
def VReg.reset : VReg where
  val := 0
  written := false

/-- No command in progress (70_reset_and_hazards.md R341). -/
def Seq.idle : Seq where
  it := 0
  i := 0
  found := false

/-- The machine of any implementation right after reset (70_reset_and_hazards.md R341): no data memory listed, no
transaction pending. -/
def State.resetWith (p : Params) : State where
  params := p
  csr := Csrs.reset
  vregs := Vector.replicate 8 VReg.reset
  mem := []
  seq := Seq.idle
  schedule := []
  raced := []
  freeIdx := 0
  rdata := 0
  vregFault := none

/-- The machine right after reset, on the implementation `Config.params`. -/
def State.reset : State := State.resetWith Config.params

end Sys2Proof.Machine
end

