-- ==== Sys2Proof/Machine/Flags.lean ====
section
/-! DEFINITION. The status register and the error report: the word STATUS reads as (10_state.md R35), the numeric error
codes (60_exceptions.md R310), and the flag changes of acceptance and completion (10_state.md R34) and of a host write
to STATUS. -/

namespace Sys2Proof.Machine

/-- The numeric value of an error code (60_exceptions.md R310). -/
def ErrCode.code : ErrCode → Nat
  | .none => 0x00
  | .illegalCommand => 0x01
  | .configError => 0x02
  | .invariantViolation => 0x03
  | .corruptionDetected => 0x04
  | .checksumMismatch => 0x05
  | .divideByZero => 0x06
  | .busError => 0x07
  | .bufferOverlap => 0x08

/-- The 64-bit word STATUS reads as: BUSY [0], DONE [1], OVR [2], ERR [15:8], other bits 0 (10_state.md R35). -/
def Csrs.statusWord (c : Csrs) : Word :=
  BitVec.ofNat 64 (c.busy.toNat + 2 * c.done.toNat + 4 * c.ovr.toNat + 256 * c.err.code)

/-- A host write of v to STATUS clears DONE when v[1] = 1 and OVR when v[2] = 1 and changes nothing else (R35). -/
def Csrs.writeStatus (c : Csrs) (v : Word) : Csrs :=
  { c with done := c.done && !v.getLsbD 1, ovr := c.ovr && !v.getLsbD 2 }

/-- The CSR changes of acceptance of the command word w (10_state.md R34). -/
def Csrs.accept (c : Csrs) (w : CmdWord) : Csrs :=
  { c with cmd := w, done := false, err := .none, failIndex := 0, failIter := 0, hmcount := 0, busy := true }

/-- The CSR changes of completion (10_state.md R34). -/
def Csrs.complete (c : Csrs) : Csrs := { c with busy := false, done := true }

/-- The error report of `raise E(i, it)` (60_exceptions.md R316(a)). -/
def Csrs.report (c : Csrs) (e : ErrCode) (i it : Nat) : Csrs :=
  { c with err := e, failIndex := BitVec.ofNat 64 i, failIter := BitVec.ofNat 64 it }

end Sys2Proof.Machine
end

