-- ==== Sys2Proof/WellFormed.lean ====
section
/-! DEFINITION. Which instruction terms have a command word. The types of the fields bound everything but
VHPAR's element width and mask index (30_encoding.md R117, R122(d)). -/

namespace Sys2Proof

/-- 30_encoding.md R117: 16-bit lanes take K in 0..4 or 7, 32-bit lanes K in 0..5 or 7; every other K, and
8-bit or 64-bit lanes, are illegal. -/
def hparLegal (ew : EW) (k : Fin 8) : Bool :=
  match ew with
  | .e16 => k.val ≤ 4 || k.val == 7
  | .e32 => k.val ≤ 5 || k.val == 7
  | .e8 | .e64 => false

/-- The terms that some command word encodes: all, but for a VHPAR whose width and mask index R117 forbids. -/
def Instr.wellFormed : Instr → Bool
  | .vhpar _ _ ew _ k => hparLegal ew k
  | .nop | .seta | .modinv => true
  | .enc | .chk | .dec | .decchk | .reenc => true
  | .arithAdd | .arithSub | .arithMul | .arithDiv => true
  | .henc | .hchk => true
  | .vld _ _ | .vst _ _ => true
  | .vadd .. | .vsub .. | .vmullo .. | .vdiv .. | .vmin .. | .vmax .. => true
  | .vcmpLt .. | .vcmpLe .. | .vcmpEq .. | .vcmpNe .. | .vcmpGe .. | .vcmpGt .. => true
  | .vredsum .. | .vredmin .. | .vredmax .. | .vpopcnt .. | .vcompress .. => true

end Sys2Proof
end

