-- ==== Sys2Proof/Decode.lean ====
section
/-! DEFINITION. Decoding of 32-bit command words (30_encoding.md R110 to R124), total and rejecting by name, and
the encoder that writes them (R121). -/

namespace Sys2Proof

/-- Why a command word is illegal (30_encoding.md R122). -/
inductive Illegal where
  /-- (a) the opcode is not in the map of R119 -/
  | unknownOpcode
  /-- (b) a reserved bit or reserved field is not 0 -/
  | reservedBits
  /-- (c) VCMP with F = 0b110 or 0b111 -/
  | compareCondition
  /-- (d) VHPAR with an element width or mask index R117 forbids -/
  | parityIndex
  deriving DecidableEq, Repr

/-- `w[lo+len-1 : lo]` as an unsigned number (00_scope.md R9). -/
def field (w : CmdWord) (lo len : Nat) : Nat := w.toNat / 2 ^ lo % 2 ^ len

/-- A three-bit register (or F) field at bit `lo` (30_encoding.md R112, R114). -/
def field3 (w : CmdWord) (lo : Nat) : Fin 8 := ⟨w.toNat / 2 ^ lo % 8, Nat.mod_lt _ (by decide)⟩

/-- Element width of a two-bit code (30_encoding.md R112). -/
def EW.ofCode (n : Nat) : EW :=
  match n % 4 with
  | 0 => .e8
  | 1 => .e16
  | 2 => .e32
  | _ => .e64

/-- Signedness of an S or SGN bit. -/
def Sgn.ofCode (n : Nat) : Sgn := if n % 2 = 0 then .unsigned else .signed

/-- VD of Format R, VR of Format M: bits [23:21]. -/
def fieldVD (w : CmdWord) : VNum := field3 w 21

/-- VS1: bits [20:18]. -/
def fieldVS1 (w : CmdWord) : VNum := field3 w 18

/-- VS2: bits [17:15]. -/
def fieldVS2 (w : CmdWord) : VNum := field3 w 15

/-- EW: bits [14:13]. -/
def fieldEW (w : CmdWord) : EW := EW.ofCode (field w 13 2)

/-- S: bit [12]. -/
def fieldS (w : CmdWord) : Sgn := Sgn.ofCode (field w 12 1)

/-- F: bits [11:9]. -/
def fieldF (w : CmdWord) : Fin 8 := field3 w 9

/-- IMM16: bits [15:0]. -/
def fieldImm (w : CmdWord) : BitVec 16 := BitVec.ofNat 16 (field w 0 16)

/-- Format N (R111): bits [23:0] must be 0. -/
def decodeN (w : CmdWord) (i : Instr) : Except Illegal Instr :=
  if field w 0 24 = 0 then .ok i else .error .reservedBits

/-- Format M (R113): bits [20:16] must be 0. -/
def decodeM (w : CmdWord) (mk : VNum → BitVec 16 → Instr) : Except Illegal Instr :=
  if field w 16 5 = 0 then .ok (mk (fieldVD w) (fieldImm w)) else .error .reservedBits

/-- Format R with two sources and no F (R112, R119): F and bits [8:0] must be 0. -/
def decodeR2 (w : CmdWord) (mk : VNum → VNum → VNum → EW → Sgn → Instr) : Except Illegal Instr :=
  if field w 0 12 = 0 then .ok (mk (fieldVD w) (fieldVS1 w) (fieldVS2 w) (fieldEW w) (fieldS w))
  else .error .reservedBits

/-- Format R with one source and no F: VS2, F and bits [8:0] must be 0. -/
def decodeR1 (w : CmdWord) (mk : VNum → VNum → EW → Sgn → Instr) : Except Illegal Instr :=
  if field w 0 12 = 0 ∧ field w 15 3 = 0 then .ok (mk (fieldVD w) (fieldVS1 w) (fieldEW w) (fieldS w))
  else .error .reservedBits

/-- The constructor of a VCMP condition (R116), none for F = 0b110 and 0b111. -/
def cmpOfF (f : Nat) : Option (VNum → VNum → VNum → EW → Sgn → Instr) :=
  match f with
  | 0 => some .vcmpLt
  | 1 => some .vcmpLe
  | 2 => some .vcmpEq
  | 3 => some .vcmpNe
  | 4 => some .vcmpGe
  | 5 => some .vcmpGt
  | _ => none

/-- VCMP (R116): bits [8:0] must be 0 and F names a condition. -/
def decodeCmp (w : CmdWord) : Except Illegal Instr :=
  if field w 0 9 = 0 then
    match cmpOfF (field w 9 3) with
    | some mk => .ok (mk (fieldVD w) (fieldVS1 w) (fieldVS2 w) (fieldEW w) (fieldS w))
    | none => .error .compareCondition
  else .error .reservedBits

/-- VHPAR (R117): VS2 and bits [8:0] must be 0, EW and K as R117 allows. -/
def decodeHpar (w : CmdWord) : Except Illegal Instr :=
  if field w 0 9 = 0 ∧ field w 15 3 = 0 then
    if hparLegal (fieldEW w) (fieldF w) then
      .ok (.vhpar (fieldVD w) (fieldVS1 w) (fieldEW w) (fieldS w) (fieldF w))
    else .error .parityIndex
  else .error .reservedBits

/-- The decoder: OPC = word[31:24], then the fields of that opcode's format (R110, R119, R122, R123). -/
def decode (w : CmdWord) : Except Illegal Instr :=
  match field w 24 8 with
  | 0x01 => decodeN w .nop
  | 0x10 => decodeN w .seta
  | 0x11 => decodeN w .modinv
  | 0x20 => decodeN w .enc
  | 0x21 => decodeN w .chk
  | 0x22 => decodeN w .dec
  | 0x23 => decodeN w .decchk
  | 0x24 => decodeN w .reenc
  | 0x28 => decodeN w .arithAdd
  | 0x29 => decodeN w .arithSub
  | 0x2A => decodeN w .arithMul
  | 0x2B => decodeN w .arithDiv
  | 0x30 => decodeN w .henc
  | 0x31 => decodeN w .hchk
  | 0x40 => decodeM w .vld
  | 0x41 => decodeM w .vst
  | 0x48 => decodeR2 w .vadd
  | 0x49 => decodeR2 w .vsub
  | 0x4A => decodeR2 w .vmullo
  | 0x4B => decodeR2 w .vdiv
  | 0x4C => decodeR2 w .vmin
  | 0x4D => decodeR2 w .vmax
  | 0x50 => decodeCmp w
  | 0x58 => decodeR1 w .vredsum
  | 0x59 => decodeR1 w .vredmin
  | 0x5A => decodeR1 w .vredmax
  | 0x5C => decodeR1 w .vpopcnt
  | 0x5E => decodeR2 w .vcompress
  | 0x60 => decodeHpar w
  | _ => .error .unknownOpcode

/-- A Format N word, `OPC<<24` (R121). -/
def encodeN (opc : Nat) : CmdWord := BitVec.ofNat 32 (opc * 2 ^ 24)

/-- A Format M word, `OPC<<24 | VR<<21 | IMM16` (R121; the fields do not overlap). -/
def encodeM (opc : Nat) (vr : VNum) (imm : BitVec 16) : CmdWord :=
  BitVec.ofNat 32 (opc * 2 ^ 24 + vr.val * 2 ^ 21 + imm.toNat)

/-- A Format R word, `OPC<<24 | VD<<21 | VS1<<18 | VS2<<15 | EW<<13 | S<<12 | F<<9` (R121; the fields do not
overlap). -/
def encodeR (opc : Nat) (vd vs1 vs2 : VNum) (ew : EW) (sg : Sgn) (f : Nat) : CmdWord :=
  BitVec.ofNat 32 (opc * 2 ^ 24 + vd.val * 2 ^ 21 + vs1.val * 2 ^ 18 + vs2.val * 2 ^ 15
    + ew.code * 2 ^ 13 + sg.code * 2 ^ 12 + f * 2 ^ 9)

/-- The command word of an instruction (R119, R121). A well-formed instruction decodes back from it. -/
def encode : Instr → CmdWord
  | .nop => encodeN 0x01
  | .seta => encodeN 0x10
  | .modinv => encodeN 0x11
  | .enc => encodeN 0x20
  | .chk => encodeN 0x21
  | .dec => encodeN 0x22
  | .decchk => encodeN 0x23
  | .reenc => encodeN 0x24
  | .arithAdd => encodeN 0x28
  | .arithSub => encodeN 0x29
  | .arithMul => encodeN 0x2A
  | .arithDiv => encodeN 0x2B
  | .henc => encodeN 0x30
  | .hchk => encodeN 0x31
  | .vld vr imm => encodeM 0x40 vr imm
  | .vst vr imm => encodeM 0x41 vr imm
  | .vadd vd vs1 vs2 ew sg => encodeR 0x48 vd vs1 vs2 ew sg 0
  | .vsub vd vs1 vs2 ew sg => encodeR 0x49 vd vs1 vs2 ew sg 0
  | .vmullo vd vs1 vs2 ew sg => encodeR 0x4A vd vs1 vs2 ew sg 0
  | .vdiv vd vs1 vs2 ew sg => encodeR 0x4B vd vs1 vs2 ew sg 0
  | .vmin vd vs1 vs2 ew sg => encodeR 0x4C vd vs1 vs2 ew sg 0
  | .vmax vd vs1 vs2 ew sg => encodeR 0x4D vd vs1 vs2 ew sg 0
  | .vcmpLt vd vs1 vs2 ew sg => encodeR 0x50 vd vs1 vs2 ew sg 0
  | .vcmpLe vd vs1 vs2 ew sg => encodeR 0x50 vd vs1 vs2 ew sg 1
  | .vcmpEq vd vs1 vs2 ew sg => encodeR 0x50 vd vs1 vs2 ew sg 2
  | .vcmpNe vd vs1 vs2 ew sg => encodeR 0x50 vd vs1 vs2 ew sg 3
  | .vcmpGe vd vs1 vs2 ew sg => encodeR 0x50 vd vs1 vs2 ew sg 4
  | .vcmpGt vd vs1 vs2 ew sg => encodeR 0x50 vd vs1 vs2 ew sg 5
  | .vredsum vd vs1 ew sg => encodeR 0x58 vd vs1 0 ew sg 0
  | .vredmin vd vs1 ew sg => encodeR 0x59 vd vs1 0 ew sg 0
  | .vredmax vd vs1 ew sg => encodeR 0x5A vd vs1 0 ew sg 0
  | .vpopcnt vd vs1 ew sg => encodeR 0x5C vd vs1 0 ew sg 0
  | .vcompress vd vs1 vs2 ew sg => encodeR 0x5E vd vs1 vs2 ew sg 0
  | .vhpar vd vs1 ew sg k => encodeR 0x60 vd vs1 0 ew sg k.val

/-- The instruction the decoder reads from a table row's word: `nbits` bits of `w`, every bit above them 0. A command
is one 32-bit word (R110), so its bits are the table's bits as they stand. -/
def decodeTableWord (nbits w : Nat) : Option Instr :=
  match decode (BitVec.ofNat 32 (w % 2 ^ nbits)) with
  | .ok i => some i
  | .error _ => none

end Sys2Proof
end

