-- ==== Sys2Proof/Machine/Operands.lean ====
section
/-! DEFINITION. The operands of every command and the pure value functions of the spec: width conversions
(00_scope.md R10, R11), CFG and AW fields, element and effective addresses, the AN code functions, the Hamming code
function, lanes, and the buffer ranges of a command. -/

namespace Sys2Proof.Machine

/-! ### Width conversions (00_scope.md R10, R11) -/

/-- `ext_m(x)`: sext_m when signed, zext_m when unsigned (R10). -/
def ext (sg : Sgn) (m : Nat) {n : Nat} (x : BitVec n) : BitVec m :=
  match sg with
  | .signed => x.signExtend m
  | .unsigned => x.setWidth m

/-- `num_n(x)`: sint_n(x) when signed, uint_n(x) when unsigned (R10). -/
def num (sg : Sgn) {n : Nat} (x : BitVec n) : Int :=
  match sg with
  | .signed => x.toInt
  | .unsigned => (x.toNat : Int)

/-- `popcount(x)`: the number of one bits (R11). -/
def popcount {n : Nat} (x : BitVec n) : Nat :=
  ((List.range n).filter fun i => x.getLsbD i).length

/-- `popcount(x) & 1`. -/
def parity {n : Nat} (x : BitVec n) : Nat := popcount x % 2

/-- Division on n-bit patterns: truncated toward zero when signed (MIN / -1 wraps), floor when unsigned
(42_an_arith.md R216, 44_simd.md R268; R11 tdiv and floordiv). The divisor's pattern may be narrower. -/
def divPattern (sg : Sgn) {n k : Nat} (x : BitVec n) (y : BitVec k) : BitVec n :=
  match sg with
  | .signed => BitVec.ofInt n (Int.tdiv x.toInt y.toInt)
  | .unsigned => BitVec.ofNat n (x.toNat / y.toNat)

/-! ### CFG and AW fields (10_state.md R36, R40) -/

/-- The AN check policy, CFG.LAYOUT: 0 = inverse-based, 1 = div-mod-based (R36). -/
inductive Layout where
  | inverse | divmod
  deriving DecidableEq, Repr

/-- The CFG bits that are not reserved: [6:0] and [15:8] (R36). -/
def cfgMask : Word := 0xFF7F

/-- CFG.EW, bits [1:0]. -/
def cfgEW (cfg : Word) : EW := EW.ofCode cfg.toNat

/-- CFG.SGN, bit [2]. -/
def cfgSgn (cfg : Word) : Sgn := Sgn.ofCode (cfg.toNat / 2 ^ 2)

/-- CFG.LAYOUT, bit [3]. -/
def cfgLayout (cfg : Word) : Layout := if cfg.toNat / 2 ^ 3 % 2 = 0 then .inverse else .divmod

/-- AW.VALID, bit [0]. -/
def awValid (aw : Word) : Bool := aw.toNat % 2 == 1

/-- AW[2:1], the width code A and AINV are bound to. -/
def awEW (aw : Word) : EW := EW.ofCode (aw.toNat / 2)

/-- The AW value that SETA commits: VALID = 1 and the CFG.EW code (40_solver.md R150). -/
def awOf (ew : EW) : Word := BitVec.ofNat 64 (1 + 2 * ew.code)

/-! ### Addresses (20_memory.md R82, 30_encoding.md R115) -/

/-- The address of element i of a buffer at `base` with elements of `size` bytes, without wrap-around (R82). -/
def elemAddr (base i size : Nat) : Nat := base + i * size

/-- The effective address of VLD and VST: VBASE plus the zero-extended IMM16, without wrap-around (R115). -/
def effAddr (vbase : Word) (imm : BitVec 16) : Nat := vbase.toNat + imm.toNat

/-- The half-open intervals `[a, a + la)` and `[b, b + lb)` share an address. -/
def rangesMeet (a la b lb : Nat) : Bool := la != 0 && lb != 0 && a < b + lb && b < a + la

/-- The overlap that 20_memory.md R92 refuses: the ranges of R91 intersect, unless SRC = DST and the element sizes
are equal. -/
def buffersOverlap (src dst n ss ds : Nat) : Bool :=
  !(src == dst && ss == ds) && rangesMeet src (n * ss) dst (n * ds)

/-! ### AN code functions (41_an_codec.md R172 to R174) -/

/-- `EncodeVal(r, A)` = trunc_m(uint_m(ext_m(r)) · A), m = 2w (R172). -/
def encodeVal (sg : Sgn) {w : Nat} (r : BitVec w) (a : Nat) : BitVec (2 * w) :=
  ext sg (2 * w) r * BitVec.ofNat (2 * w) a

/-- `DecodeVal(e)` = trunc_w((uint_m(e) · AINV) mod 2^m) (R173). -/
def decodeVal {w : Nat} (e : BitVec (2 * w)) (ainv : Nat) : BitVec w :=
  (e * BitVec.ofNat (2 * w) ainv).setWidth w

/-- `Valid(e)` (R174): divmod asks for remainder 0 by A, inverse for e · AINV mod 2^m in the raw range. DESIGN CHOICE for
A = 1 (notes/assumptions/18.md): R174 is followed, against the words of R179(c) that nothing is then ever detected. -/
def validCode (layout : Layout) (sg : Sgn) {w : Nat} (e : BitVec (2 * w)) (a ainv : Nat) : Bool :=
  match layout with
  | .divmod => Int.tmod (num sg e) (a : Int) == 0
  | .inverse =>
    let d := e * BitVec.ofNat (2 * w) ainv
    match sg with
    | .signed => decide (-(2 : Int) ^ (w - 1) ≤ d.toInt ∧ d.toInt ≤ 2 ^ (w - 1) - 1)
    | .unsigned => decide (d.toNat ≤ 2 ^ w - 1)

/-! ### AN arithmetic element functions (42_an_arith.md R213 to R216) -/

/-- ARITH.ADD: trunc_m(uint_m(e) + uint_m(x_o) · A) (R213). -/
def arithAddVal (sg : Sgn) (a : Nat) {w : Nat} (o : BitVec w) (e : BitVec (2 * w)) : BitVec (2 * w) :=
  e + ext sg (2 * w) o * BitVec.ofNat (2 * w) a

/-- ARITH.SUB: trunc_m(uint_m(e) − uint_m(x_o) · A) (R214). -/
def arithSubVal (sg : Sgn) (a : Nat) {w : Nat} (o : BitVec w) (e : BitVec (2 * w)) : BitVec (2 * w) :=
  e - ext sg (2 * w) o * BitVec.ofNat (2 * w) a

/-- ARITH.MUL: trunc_m(uint_m(e) · uint_m(x_o)), the operand unscaled (R215). -/
def arithMulVal (sg : Sgn) {w : Nat} (o : BitVec w) (e : BitVec (2 * w)) : BitVec (2 * w) :=
  e * ext sg (2 * w) o

/-- ARITH.DIV: tdiv(sint_m(e), sint_w(o)) when signed, floordiv(uint_m(e), uint_w(o)) when unsigned (R216). -/
def arithDivVal (sg : Sgn) {w : Nat} (o : BitVec w) (e : BitVec (2 * w)) : BitVec (2 * w) :=
  divPattern sg e o

/-! ### The Hamming code (43_hamming.md R231 to R233) -/

/-- The masks of width w, mask 0 first: HAMMING_MASKS for w = 16, else for w = 32 (R231). -/
def hamMasks (p : Params) (w : Nat) : List (BitVec w) :=
  if w = 16 then p.masks16.toList.map (·.setWidth w) else p.masks32.toList.map (·.setWidth w)

/-- The code bits of the masks as a number, bit k the parity of `d & mask_k`. -/
def maskParities {w : Nat} (d : BitVec w) : List (BitVec w) → Nat
  | [] => 0
  | mk :: rest => parity (d &&& mk) + 2 * maskParities d rest

/-- `HamCode(d, w)`: the partial code in bits 1 .. nm and the overall parity of data and partial code in bit 0
(R233). -/
def hamCode (p : Params) {w : Nat} (d : BitVec w) : Nat :=
  let partialCode := 2 * maskParities d (hamMasks p w)
  partialCode + (popcount d + popcount (BitVec.ofNat 8 partialCode)) % 2

/-- The codeword record `data | (code << w)` as one little-endian value; the padding is 0 (R232). -/
def hamRecord (p : Params) {w : Nat} (d : BitVec w) : Nat := d.toNat ||| (hamCode p d <<< w)

/-- The full code byte `rec[w+7 : w]` of a record (43_hamming.md R240). -/
def recordCode (w rec : Nat) : Nat := rec / 2 ^ w % 2 ^ 8

/-! ### Lanes (00_scope.md R12, 44_simd.md R264) -/

/-- L(ew) = VLEN / ew. -/
def laneCount (p : Params) (ew : EW) : Nat := p.vlen.bits / ew.bits

/-- `lane(x, ew, j)` = x[(j+1)·ew − 1 : j·ew] (00_scope.md R12). -/
def lane (x : VWord) (ew j : Nat) : BitVec ew := x.extractLsb' (j * ew) ew

/-- The first `n` lanes of a register, lane 0 first. -/
def lanes (x : VWord) (ew n : Nat) : List (BitVec ew) := (List.range n).map fun j => lane x ew j

/-- The register whose lanes are the given ones, lane 0 least significant, and every higher bit 0. -/
def packLanes {ew : Nat} : List (BitVec ew) → VWord
  | [] => 0
  | x :: rest => x.setWidth 512 ||| (packLanes rest <<< ew)

/-- A compare lane: all ones when true, 0 when false (44_simd.md R271). -/
def maskLane (n : Nat) (b : Bool) : BitVec n := if b then BitVec.allOnes n else 0#n

/-- The lane with the least `num`, of a lane and those after it (44_simd.md R280). -/
def leastLane (sg : Sgn) {n : Nat} (x : BitVec n) (xs : List (BitVec n)) : BitVec n :=
  xs.foldl (fun m y => if num sg y < num sg m then y else m) x

/-- The lane with the greatest `num`, of a lane and those after it (44_simd.md R281). -/
def greatestLane (sg : Sgn) {n : Nat} (x : BitVec n) (xs : List (BitVec n)) : BitVec n :=
  xs.foldl (fun m y => if num sg m < num sg y then y else m) x

/-- The sum of the lanes modulo 2^ew (44_simd.md R279). -/
def sumLanes {n : Nat} (xs : List (BitVec n)) : BitVec n := BitVec.ofNat n (xs.map (·.toNat)).sum

/-- The lowest lane whose pattern is 0, if any (44_simd.md R268). -/
def firstZeroLane {n : Nat} : List (BitVec n) → Option Nat
  | [] => none
  | x :: rest => if x = 0#n then some 0 else (firstZeroLane rest).map (· + 1)

/-- The data lanes whose predicate lane is not 0, in order (44_simd.md R283). -/
def selectLanes {n : Nat} : List (BitVec n) → List (BitVec n) → List (BitVec n)
  | x :: xs, b :: bs => if b = 0#n then selectLanes xs bs else x :: selectLanes xs bs
  | _, _ => []

/-- One lane's VHPAR bit: the parity under mask K for K < nm, else the overall parity, code bit 0 (44_simd.md R285). -/
def hparBit (p : Params) (k : Nat) {n : Nat} (x : BitVec n) : BitVec 1 :=
  match (hamMasks p n)[k]? with
  | some mk => BitVec.ofNat 1 (parity (x &&& mk))
  | none => BitVec.ofNat 1 (hamCode p x)

/-! ### Buffer sizes and ranges (20_memory.md R83, R91) -/

/-- The bytes read and written per element by a stream command at raw width w (R83); 0 where it makes none. -/
def Instr.strides (w : Nat) : Instr → Nat × Nat
  | .enc => (w / 8, 2 * w / 8)
  | .chk => (2 * w / 8, 0)
  | .dec | .decchk => (2 * w / 8, w / 8)
  | .reenc | .arithAdd | .arithSub | .arithMul | .arithDiv => (2 * w / 8, 2 * w / 8)
  | .henc => (w / 8, 2 * (w / 8))
  | .hchk => (2 * (w / 8), 0)
  | .nop | .seta | .modinv => (0, 0)
  | .vld _ _ | .vst _ _ => (0, 0)
  | .vadd .. | .vsub .. | .vmullo .. | .vdiv .. | .vmin .. | .vmax .. => (0, 0)
  | .vcmpLt .. | .vcmpLe .. | .vcmpEq .. | .vcmpNe .. | .vcmpGe .. | .vcmpGt .. => (0, 0)
  | .vredsum .. | .vredmin .. | .vredmax .. | .vpopcnt .. | .vcompress .. | .vhpar .. => (0, 0)

/-- The bytes a command may read as its source: start and length (R91; for VLD the VLEN/8 bytes at its effective
address, R96). -/
def srcRange (s : State) (i : Instr) : Nat × Nat :=
  match i with
  | .vld _ imm => (effAddr s.csr.vbase imm, s.params.vlen.bits / 8)
  | _ => (s.csr.src.toNat, s.csr.count.toNat * (Instr.strides (cfgEW s.csr.cfg).bits i).1)

/-- The bytes a command may write: start and length (R91; for VST the VLEN/8 bytes at its effective address, R96). -/
def dstRange (s : State) (i : Instr) : Nat × Nat :=
  match i with
  | .vst _ imm => (effAddr s.csr.vbase imm, s.params.vlen.bits / 8)
  | _ => (s.csr.dst.toNat, s.csr.count.toNat * (Instr.strides (cfgEW s.csr.cfg).bits i).2)

/-- The address lies in the range. -/
def inRange (r : Nat × Nat) (a : Nat) : Bool := r.1 ≤ a && a < r.1 + r.2

end Sys2Proof.Machine
end

