-- ==== Sys2Proof/Machine/Ops.lean ====
section
/-! DEFINITION. The named operations the meanings are made of: bytes and words of the data memory (20_memory.md R82 to
R89), the vector registers (10_state.md R54 to R56), acceptance, completion and `raise` (10_state.md R34,
60_exceptions.md R316), and the loop of the stream commands (41_an_codec.md R171). -/

namespace Sys2Proof.Machine

/-! ### Bytes of memory -/

/-- The byte at address a. -/
def Memory.readByte : Memory → Nat → Byte
  | [], _ => Config.unlistedByte
  | c :: rest, a => if c.1 = a then c.2 else Memory.readByte rest a

/-- Memory with the byte v at address a, in canonical form. -/
def Memory.writeByte : Memory → Nat → Byte → Memory
  | [], a, v => if v = Config.unlistedByte then [] else [(a, v)]
  | c :: rest, a, v =>
    if a < c.1 then (if v = Config.unlistedByte then c :: rest else (a, v) :: c :: rest)
    else if a = c.1 then (if v = Config.unlistedByte then rest else (a, v) :: rest)
    else c :: Memory.writeByte rest a v

/-- The n-byte little-endian value at a: Σ byte[a+t]·2^(8t) (20_memory.md R85). -/
def Memory.readLE (m : Memory) (a : Nat) : Nat → Nat
  | 0 => 0
  | n + 1 => (m.readByte a).toNat + 2 ^ 8 * Memory.readLE m (a + 1) n

/-- Memory with byte t of v at a + t for t < n (20_memory.md R85). -/
def Memory.writeLE (m : Memory) (a : Nat) : Nat → Nat → Memory
  | 0, _ => m
  | n + 1, v => Memory.writeLE (m.writeByte a (BitVec.ofNat 8 v)) (a + 1) n (v / 2 ^ 8)

/-- Memory with a fresh free byte at each listed address: free value k, k + 1, ... (20_memory.md R96,
70_reset_and_hazards.md R343). -/
def Memory.scramble (m : Memory) : List Nat → Nat → Memory
  | [], _ => m
  | a :: rest, k => Memory.scramble (m.writeByte a (Config.freeByte k)) rest (k + 1)

/-! ### Acceptance, completion and errors -/

/-- Acceptance of a command word (10_state.md R34); the progress of R57 starts afresh and no byte is raced yet. It is
also the only "return" from an error: the next acceptance clears the report (60_exceptions.md R323). -/
def State.accept (s : State) (w : CmdWord) : State :=
  { s with csr := s.csr.accept w, seq := Seq.idle, raced := [] }

/-- Completion (10_state.md R34): BUSY <- 0, DONE <- 1, and the progress is gone. -/
def State.complete (s : State) : State :=
  { s with csr := s.csr.complete, seq := Seq.idle, raced := [] }

/-- `raise E(i, it)`: the error entry of the block (60_exceptions.md R316, R322). ERR, FAIL_INDEX and FAIL_ITER report
it, nothing else changes, and completion follows in the same step. -/
def State.raise (s : State) (e : ErrCode) (i it : Nat) : State :=
  State.complete { s with csr := s.csr.report e i it }

/-- `raise E(i, it)` at the element and iteration the sequencer is at (60_exceptions.md R315). -/
def State.raiseHere (s : State) (e : ErrCode) : State := s.raise e s.seq.i s.seq.it

/-! ### Data-memory accesses of the block -/

/-- Admission of an access of n bytes at a: a + n ≤ 2^64 and mem_ok(a, n) (20_memory.md R84). -/
def State.admits (s : State) (a n : Nat) : Bool := decide (a + n ≤ 2 ^ 64) && s.params.memOk a n

/-- The raced bytes an access of n bytes at a touches (20_memory.md R96). -/
def State.racedIn (s : State) (a n : Nat) : List Nat := s.raced.filter (inRange (a, n))

/-- `MemRead(a, n)` (00_scope.md R13). Bytes the host wrote while the command ran are drawn freely (20_memory.md R96);
memory itself is unchanged. -/
def State.memRead (s : State) (a n : Nat) : Nat × State :=
  ((s.mem.scramble (s.racedIn a n) s.freeIdx).readLE a n,
    { s with freeIdx := s.freeIdx + (s.racedIn a n).length })

/-- `MemWrite(a, n, v)` (00_scope.md R13). A byte the host also wrote while the command ran ends at a free value: the
order of the two writes is not fixed (20_memory.md R96; notes/assumptions/8.md). -/
def State.memWrite (s : State) (a n v : Nat) : State :=
  { s with
    mem := (s.mem.writeLE a n v).scramble (s.racedIn a n) s.freeIdx
    freeIdx := s.freeIdx + (s.racedIn a n).length }

/-! ### Vector registers -/

/-- A value cut to VLEN bits (10_state.md R54). -/
def truncVLen (p : Params) (x : VWord) : VWord := (x.setWidth p.vlen.bits).setWidth 512

/-- Where VREG_UNINIT is `fault`, the first read of a register not written since reset is put on record (10_state.md R56,
44_simd.md R260, 70_reset_and_hazards.md R347; notes/assumptions/6.md). -/
def State.noteRead (s : State) (r : VNum) : State :=
  { s with
    vregFault :=
      if s.vregFault = none ∧ s.params.vregUninit = .fault ∧ (s.vregs.get r).written = false then some r
      else s.vregFault }

/-- Read v[r] and go on with the value it holds, in the state that has noted the read. -/
def State.withV (s : State) (r : VNum) (k : VWord → State → Host.Outcome State Fault Refusal) :
    Host.Outcome State Fault Refusal :=
  k (s.vregs.get r).val (s.noteRead r)

/-- `v[r] <- x` (00_scope.md R12). -/
def State.writeV (s : State) (r : VNum) (x : VWord) : State :=
  { s with vregs := s.vregs.set r.val ⟨truncVLen s.params x, true⟩ r.isLt }

/-- The lanes of a register value at width ew on this machine, lane 0 first (44_simd.md R264). -/
def State.lanes (s : State) (ew : EW) (x : VWord) : List (BitVec ew.bits) :=
  Machine.lanes x ew.bits (laneCount s.params ew)

/-! ### Stream commands -/

/-- Where a running stream command stands: it goes on, or an error has ended it. -/
inductive Flow where
  | running (s : State)
  | ended (s : State)
  deriving DecidableEq, Repr

/-- Go on from a running state. -/
def Flow.andThen (f : Flow) (k : State → Flow) : Flow :=
  match f with
  | .running s => k s
  | .ended s => .ended s

/-- The outcome of a command whose body has run: `done` gives the last effects and completion of a run without a
fatal error; an error has completed the command already (60_exceptions.md R316(f)). -/
def Flow.outcome (f : Flow) (done : State → State) : Host.Outcome State Fault Refusal :=
  match f with
  | .running s => .next (done s)
  | .ended s => .next s

/-- Read the current element (`size` bytes) of the buffer at `base`; BUS_ERROR(i, it) if refused (20_memory.md R84). -/
def State.loadElem (s : State) (base size : Nat) (k : Nat → State → Flow) : Flow :=
  if s.admits (elemAddr base s.seq.i size) size then
    k (s.memRead (elemAddr base s.seq.i size) size).1 (s.memRead (elemAddr base s.seq.i size) size).2
  else .ended (s.raiseHere .busError)

/-- Write the current element of the buffer at `base`; BUS_ERROR(i, it) if refused. -/
def State.storeElem (s : State) (base size v : Nat) : Flow :=
  if s.admits (elemAddr base s.seq.i size) size then
    .running (s.memWrite (elemAddr base s.seq.i size) size v)
  else .ended (s.raiseHere .busError)

/-- The sequencer moves to the next element. -/
def State.nextElem (s : State) : State := { s with seq := { s.seq with i := s.seq.i + 1 } }

/-- The sequencer moves to element 0 of the next iteration. -/
def State.nextIter (s : State) : State := { s with seq := { s.seq with it := s.seq.it + 1, i := 0 } }

/-- The inner loop: n more elements, ascending (41_an_codec.md R171). -/
def forElems (body : State → Flow) : Nat → State → Flow
  | 0, s => .running s
  | n + 1, s => (body s).andThen fun s' => forElems body n s'.nextElem

/-- The outer loop: k more iterations of n elements each (41_an_codec.md R171). -/
def forIters (body : State → Flow) (n : Nat) : Nat → State → Flow
  | 0, s => .running s
  | k + 1, s => (forElems body n s).andThen fun s' => forIters body n k s'.nextIter

/-- The loop of every stream command: ITER iterations over COUNT elements from (0, 0) (41_an_codec.md R171). -/
def State.stream (s : State) (body : State → Flow) : Flow :=
  forIters body s.csr.count.toNat s.csr.iter.toNat { s with seq := Seq.idle }

/-- `OverlapCheck(ss, ds)` before the rest of a command (20_memory.md R92). -/
def State.overlapCheck (s : State) (ss ds : Nat) (k : Host.Outcome State Fault Refusal) :
    Host.Outcome State Fault Refusal :=
  if buffersOverlap s.csr.src.toNat s.csr.dst.toNat s.csr.count.toNat ss ds then
    .next (s.raise .bufferOverlap 0 0)
  else k

/-- What `StartAN()` reads (41_an_codec.md R170): the raw width, the signedness and layout, and the committed pair. -/
structure AnSetup where
  w : Nat
  sg : Sgn
  layout : Layout
  a : Nat
  ainv : Nat
  deriving DecidableEq, Repr

/-- The bytes of a raw element, w/8. -/
def AnSetup.rawBytes (c : AnSetup) : Nat := c.w / 8

/-- The bytes of an encoded element, m/8 with m = 2w. -/
def AnSetup.encBytes (c : AnSetup) : Nat := 2 * c.w / 8

/-- `StartAN()` (41_an_codec.md R170): none where it raises CONFIG_ERROR. -/
def State.anSetup (s : State) : Option AnSetup :=
  if cfgEW s.csr.cfg = .e64 then none
  else if awValid s.csr.aw = false ∨ awEW s.csr.aw ≠ cfgEW s.csr.cfg then none
  else some
    { w := (cfgEW s.csr.cfg).bits
      sg := cfgSgn s.csr.cfg
      layout := cfgLayout s.csr.cfg
      a := s.csr.a.toNat
      ainv := s.csr.ainv.toNat }

/-- `StartAN()` before the rest of a command; CONFIG_ERROR(0, 0) where it refuses. -/
def State.startAN (s : State) (k : AnSetup → Host.Outcome State Fault Refusal) : Host.Outcome State Fault Refusal :=
  match s.anSetup with
  | some c => k c
  | none => .next (s.raise .configError 0 0)

/-- `StartHam()` (43_hamming.md R230) before the rest of a command: w = 16 or 32, else CONFIG_ERROR(0, 0). -/
def State.startHam (s : State) (k : Nat → Host.Outcome State Fault Refusal) : Host.Outcome State Fault Refusal :=
  match cfgEW s.csr.cfg with
  | .e16 => k 16
  | .e32 => k 32
  | .e8 | .e64 => .next (s.raise .configError 0 0)

/-! ### The running command's ranges (20_memory.md R96) -/

/-- The bytes the running command may write, (0, 0) for an illegal word. -/
def State.runningDst (s : State) : Nat × Nat :=
  match decode s.csr.cmd with
  | .ok i => dstRange s i
  | .error _ => (0, 0)

/-- The bytes the running command may read, (0, 0) for an illegal word. -/
def State.runningSrc (s : State) : Nat × Nat :=
  match decode s.csr.cmd with
  | .ok i => srcRange s i
  | .error _ => (0, 0)

/-- The byte belongs to the block: a command runs and a is in its source or destination range (20_memory.md R96). -/
def State.owned (s : State) (a : Nat) : Bool :=
  s.csr.busy && (inRange s.runningSrc a || inRange s.runningDst a)

end Sys2Proof.Machine
end

