-- ==== Sys2Proof/Machine/AnArith.lean ====
section
/-! DEFINITION. The AN arithmetic unit: ARITH.ADD, ARITH.SUB, ARITH.MUL, ARITH.DIV (42_an_arith.md). -/

namespace Sys2Proof.Machine

/-- o = OPERAND[w−1:0] (42_an_arith.md R210). -/
def State.arithOperand (s : State) (w : Nat) : BitVec w := s.csr.operand.setWidth w

/-- The body of an ARITH command with element function f: no validity check (42_an_arith.md R211). -/
def arithBody (c : AnSetup) (f : BitVec (2 * c.w) → BitVec (2 * c.w)) (s : State) : Flow :=
  s.loadElem s.csr.src.toNat c.encBytes fun e s' =>
    s'.storeElem s'.csr.dst.toNat c.encBytes (f (BitVec.ofNat (2 * c.w) e)).toNat

/-- The rest of an ARITH command after its start checks (42_an_arith.md R211). -/
def State.arithRun (s : State) (c : AnSetup) (f : BitVec (2 * c.w) → BitVec (2 * c.w)) :
    Host.Outcome State Fault Refusal :=
  s.overlapCheck c.encBytes c.encBytes ((s.stream (arithBody c f)).outcome State.complete)

/-- ARITH.ADD (42_an_arith.md R213). -/
def execArithAdd (s : State) : Host.Outcome State Fault Refusal :=
  s.startAN fun c => s.arithRun c (arithAddVal c.sg c.a (s.arithOperand c.w))

/-- ARITH.SUB (42_an_arith.md R214). -/
def execArithSub (s : State) : Host.Outcome State Fault Refusal :=
  s.startAN fun c => s.arithRun c (arithSubVal c.sg c.a (s.arithOperand c.w))

/-- ARITH.MUL (42_an_arith.md R215). -/
def execArithMul (s : State) : Host.Outcome State Fault Refusal :=
  s.startAN fun c => s.arithRun c (arithMulVal c.sg (s.arithOperand c.w))

/-- ARITH.DIV (42_an_arith.md R216): DIVIDE_BY_ZERO(0, 0) for a zero operand, before the overlap check. -/
def execArithDiv (s : State) : Host.Outcome State Fault Refusal :=
  s.startAN fun c =>
    if s.arithOperand c.w = 0#c.w then .next (s.raise .divideByZero 0 0)
    else s.arithRun c (arithDivVal c.sg (s.arithOperand c.w))

end Sys2Proof.Machine
end

