-- ==== Sys2Proof/Machine/Solver.lean ====
section
/-! DEFINITION. Control and modular inverse solver commands: NOP, SETA, MODINV (40_solver.md). -/

namespace Sys2Proof.Machine

/-- The Euclid loop of 40_solver.md R141 on remainders (r0, r1) and coefficients (s0, s1), with fuel; it gives the s0 it
ends with. The remainder r1 decreases at every turn (R146), so fuel above r1 is never used up. -/
def euclid : Nat → Nat → Nat → Int → Int → Int
  | 0, _, _, s0, _ => s0
  | fuel + 1, r0, r1, s0, s1 =>
    if r1 = 0 then s0 else euclid fuel r1 (r0 - r0 / r1 * r1) s1 (s0 - (r0 / r1 : Nat) * s1)

/-- `Solve(b, k)` (40_solver.md R141), with its self-check; none where it fails. Integers are unbounded (R142). -/
def solve (b k : Nat) : Option Nat :=
  let a := (euclid (b + 1) (2 ^ k) b 0 1 % (2 ^ k : Int)).toNat
  if b * a % 2 ^ k = 1 then some a else none

/-- SETA and REENC's check of a candidate constant at raw width w and its inverse mod 2^(2w) (40_solver.md R150,
41_an_codec.md R190): the size check precedes the parity check. Solve does not fail on an odd constant (R144); were it
to, the constant would be refused like an even one (notes/assumptions/9.md). -/
def checkConstant (c w : Nat) : Except ErrCode Nat :=
  if c ≥ 2 ^ w then .error .configError
  else if c % 2 = 0 then .error .invariantViolation
  else
    match solve c (2 * w) with
    | some a => .ok a
    | none => .error .invariantViolation

/-- NOP (40_solver.md R140): nothing beyond completion. -/
def execNop (s : State) : Host.Outcome State Fault Refusal := .next s.complete

/-- SETA (40_solver.md R150): commit A, AINV and AW together. -/
def execSeta (s : State) : Host.Outcome State Fault Refusal :=
  if cfgEW s.csr.cfg = .e64 then .next (s.raise .configError 0 0)
  else
    match checkConstant s.csr.aIn.toNat (cfgEW s.csr.cfg).bits with
    | .error e => .next (s.raise e 0 0)
    | .ok a =>
      .next (State.complete
        { s with
          csr := { s.csr with a := s.csr.aIn, ainv := BitVec.ofNat 64 a, aw := awOf (cfgEW s.csr.cfg) } })

/-- MODINV (40_solver.md R155): SOLV_A <- Solve(SOLV_B, SOLV_K). -/
def execModinv (s : State) : Host.Outcome State Fault Refusal :=
  if s.csr.solvK.toNat < 1 ∨ 64 < s.csr.solvK.toNat then .next (s.raise .configError 0 0)
  else if s.csr.solvB.toNat % 2 = 0 then .next (s.raise .invariantViolation 0 0)
  else
    match solve s.csr.solvB.toNat s.csr.solvK.toNat with
    | some a => .next (State.complete { s with csr := { s.csr with solvA := BitVec.ofNat 64 a } })
    | none => .next (s.raise .invariantViolation 0 0)

end Sys2Proof.Machine
end

