-- ==== Sys2Proof/Machine/AnCodec.lean ====
section
/-! DEFINITION. AN codec commands: ENC, CHK, DEC, DECCHK, REENC (41_an_codec.md). -/

namespace Sys2Proof.Machine

/-- `Valid(e)` under the codec's layout, signedness and committed pair (41_an_codec.md R174). -/
def AnSetup.valid (c : AnSetup) (e : BitVec (2 * c.w)) : Bool := validCode c.layout c.sg e c.a c.ainv

/-- ENC's body for the current element (41_an_codec.md R175). -/
def encBody (c : AnSetup) (s : State) : Flow :=
  s.loadElem s.csr.src.toNat c.rawBytes fun r s' =>
    s'.storeElem s'.csr.dst.toNat c.encBytes (encodeVal c.sg (BitVec.ofNat c.w r) c.a).toNat

/-- ENC (41_an_codec.md R175). -/
def execEnc (s : State) : Host.Outcome State Fault Refusal :=
  s.startAN fun c => s.overlapCheck c.rawBytes c.encBytes ((s.stream (encBody c)).outcome State.complete)

/-- CHK's body: CORRUPTION_DETECTED(i, it) at an invalid element (41_an_codec.md R178). -/
def chkBody (c : AnSetup) (s : State) : Flow :=
  s.loadElem s.csr.src.toNat c.encBytes fun e s' =>
    if c.valid (BitVec.ofNat (2 * c.w) e) then .running s' else .ended (s'.raiseHere .corruptionDetected)

/-- CHK (41_an_codec.md R178): no overlap check, no write. -/
def execChk (s : State) : Host.Outcome State Fault Refusal :=
  s.startAN fun c => (s.stream (chkBody c)).outcome State.complete

/-- DEC's body: no validity check (41_an_codec.md R182). -/
def decBody (c : AnSetup) (s : State) : Flow :=
  s.loadElem s.csr.src.toNat c.encBytes fun e s' =>
    s'.storeElem s'.csr.dst.toNat c.rawBytes (decodeVal (BitVec.ofNat (2 * c.w) e) c.ainv).toNat

/-- DEC (41_an_codec.md R182). -/
def execDec (s : State) : Host.Outcome State Fault Refusal :=
  s.startAN fun c => s.overlapCheck c.encBytes c.rawBytes ((s.stream (decBody c)).outcome State.complete)

/-- DECCHK's body: the check precedes the write (41_an_codec.md R185). -/
def decchkBody (c : AnSetup) (s : State) : Flow :=
  s.loadElem s.csr.src.toNat c.encBytes fun e s' =>
    if c.valid (BitVec.ofNat (2 * c.w) e) then
      s'.storeElem s'.csr.dst.toNat c.rawBytes (decodeVal (BitVec.ofNat (2 * c.w) e) c.ainv).toNat
    else .ended (s'.raiseHere .corruptionDetected)

/-- DECCHK (41_an_codec.md R185). -/
def execDecchk (s : State) : Host.Outcome State Fault Refusal :=
  s.startAN fun c => s.overlapCheck c.encBytes c.rawBytes ((s.stream (decchkBody c)).outcome State.complete)

/-- REENC's body: check under the old pair, write EncodeVal(DecodeVal(e), A_new) (41_an_codec.md R190, R191). -/
def reencBody (c : AnSetup) (anew : Nat) (s : State) : Flow :=
  s.loadElem s.csr.src.toNat c.encBytes fun e s' =>
    if c.valid (BitVec.ofNat (2 * c.w) e) then
      s'.storeElem s'.csr.dst.toNat c.encBytes
        (encodeVal c.sg (decodeVal (BitVec.ofNat (2 * c.w) e) c.ainv) anew).toNat
    else .ended (s'.raiseHere .corruptionDetected)

/-- REENC's commit of the new pair, at the end of a run without error (41_an_codec.md R190). -/
def State.commitPair (s : State) (ainv : Nat) : State :=
  { s with csr := { s.csr with a := s.csr.aIn, ainv := BitVec.ofNat 64 ainv } }

/-- REENC (41_an_codec.md R190). -/
def execReenc (s : State) : Host.Outcome State Fault Refusal :=
  s.startAN fun c =>
    match checkConstant s.csr.aIn.toNat c.w with
    | .error e => .next (s.raise e 0 0)
    | .ok ainv =>
      s.overlapCheck c.encBytes c.encBytes
        ((s.stream (reencBody c s.csr.aIn.toNat)).outcome fun s' => (s'.commitPair ainv).complete)

end Sys2Proof.Machine
end

