-- ==== Sys2Proof/Machine/Hamming.lean ====
section
/-! DEFINITION. Hamming codec commands: HENC, HCHK (43_hamming.md). -/

namespace Sys2Proof.Machine

/-- HENC's body at width w: write the record of the data word (43_hamming.md R237). -/
def hencBody (w : Nat) (s : State) : Flow :=
  s.loadElem s.csr.src.toNat (w / 8) fun d s' =>
    s'.storeElem s'.csr.dst.toNat (2 * (w / 8)) (hamRecord s'.params (BitVec.ofNat w d))

/-- HENC (43_hamming.md R237). -/
def execHenc (s : State) : Host.Outcome State Fault Refusal :=
  s.startHam fun w => s.overlapCheck (w / 8) (2 * (w / 8)) ((s.stream (hencBody w)).outcome State.complete)

/-- One mismatch: HMCOUNT counts it modulo 2^64, the first one sets FAIL_INDEX and FAIL_ITER (43_hamming.md R240). -/
def State.noteMismatch (s : State) : State :=
  { s with
    csr :=
      { s.csr with
        hmcount := s.csr.hmcount + 1
        failIndex := if s.seq.found then s.csr.failIndex else BitVec.ofNat 64 s.seq.i
        failIter := if s.seq.found then s.csr.failIter else BitVec.ofNat 64 s.seq.it }
    seq := { s.seq with found := true } }

/-- HCHK's body at width w: compare the whole code byte, ignore the padding, never stop at a mismatch
(43_hamming.md R240, R241). -/
def hchkBody (w : Nat) (s : State) : Flow :=
  s.loadElem s.csr.src.toNat (2 * (w / 8)) fun rec s' =>
    if recordCode w rec = hamCode s'.params (BitVec.ofNat w rec) then .running s' else .running s'.noteMismatch

/-- HCHK's end: `signal CHECKSUM_MISMATCH` if a mismatch was found (43_hamming.md R240), then completion. -/
def State.finishHchk (s : State) : State :=
  State.complete { s with csr := { s.csr with err := if s.seq.found then .checksumMismatch else s.csr.err } }

/-- HCHK (43_hamming.md R240, R241). -/
def execHchk (s : State) : Host.Outcome State Fault Refusal :=
  s.startHam fun w => (s.stream (hchkBody w)).outcome State.finishHchk

end Sys2Proof.Machine
end

