-- ==== Sys2Proof/Machine/Simd.lean ====
section
/-! DEFINITION. The SIMD vector layer: VLD, VST, VADD, VSUB, VMULLO, VDIV, VMIN, VMAX, VCMP.*, VREDSUM, VREDMIN,
VREDMAX, VPOPCNT, VCOMPRESS, VHPAR (44_simd.md). Sources are read in full before the destination is written (R260). -/

namespace Sys2Proof.Machine

/-- VLD (44_simd.md R262): BUS_ERROR(0, 0) and the register unchanged if the access is refused. -/
def execVld (vr : VNum) (imm : BitVec 16) (s : State) : Host.Outcome State Fault Refusal :=
  if s.admits (effAddr s.csr.vbase imm) (s.params.vlen.bits / 8) then
    let r := s.memRead (effAddr s.csr.vbase imm) (s.params.vlen.bits / 8)
    .next (r.2.writeV vr (BitVec.ofNat 512 r.1)).complete
  else .next (s.raise .busError 0 0)

/-- VST (44_simd.md R263): BUS_ERROR(0, 0) and no byte written if the access is refused. The source register is read
first (notes/assumptions/10.md). -/
def execVst (vr : VNum) (imm : BitVec 16) (s : State) : Host.Outcome State Fault Refusal :=
  s.withV vr fun x s =>
    if s.admits (effAddr s.csr.vbase imm) (s.params.vlen.bits / 8) then
      .next (s.memWrite (effAddr s.csr.vbase imm) (s.params.vlen.bits / 8) x.toNat).complete
    else .next (s.raise .busError 0 0)

/-- A lane-wise command: lane j of v[VD] becomes f of lanes j of v[VS1] and v[VS2] (44_simd.md R264). -/
def lanewise2 (f : (n : Nat) → BitVec n → BitVec n → BitVec n) (vd vs1 vs2 : VNum) (ew : EW) (s : State) :
    Host.Outcome State Fault Refusal :=
  s.withV vs1 fun x s => s.withV vs2 fun y s =>
    .next (s.writeV vd (packLanes (List.zipWith (f ew.bits) (s.lanes ew x) (s.lanes ew y)))).complete

/-- A one-source command whose result register is a function of the source's lanes. -/
def fromLanes (f : (n : Nat) → List (BitVec n) → VWord) (vd vs1 : VNum) (ew : EW) (s : State) :
    Host.Outcome State Fault Refusal :=
  s.withV vs1 fun x s => .next (s.writeV vd (f ew.bits (s.lanes ew x))).complete

/-- VADD (44_simd.md R265): a + b modulo 2^ew; S has no effect. -/
def execVadd (vd vs1 vs2 : VNum) (ew : EW) (_sg : Sgn) (s : State) : Host.Outcome State Fault Refusal :=
  lanewise2 (fun _ a b => a + b) vd vs1 vs2 ew s

/-- VSUB (44_simd.md R266): a − b modulo 2^ew; S has no effect. -/
def execVsub (vd vs1 vs2 : VNum) (ew : EW) (_sg : Sgn) (s : State) : Host.Outcome State Fault Refusal :=
  lanewise2 (fun _ a b => a - b) vd vs1 vs2 ew s

/-- VMULLO (44_simd.md R267): the low half of a · b; S has no effect. -/
def execVmullo (vd vs1 vs2 : VNum) (ew : EW) (_sg : Sgn) (s : State) : Host.Outcome State Fault Refusal :=
  lanewise2 (fun _ a b => a * b) vd vs1 vs2 ew s

/-- VDIV (44_simd.md R268): DIVIDE_BY_ZERO at the lowest zero divisor lane, else the truncated quotients. -/
def execVdiv (vd vs1 vs2 : VNum) (ew : EW) (sg : Sgn) (s : State) : Host.Outcome State Fault Refusal :=
  s.withV vs1 fun x s => s.withV vs2 fun y s =>
    match firstZeroLane (s.lanes ew y) with
    | some j => .next (s.raise .divideByZero j 0)
    | none => .next (s.writeV vd (packLanes (List.zipWith (divPattern sg) (s.lanes ew x) (s.lanes ew y)))).complete

/-- VMIN (44_simd.md R269). -/
def execVmin (vd vs1 vs2 : VNum) (ew : EW) (sg : Sgn) (s : State) : Host.Outcome State Fault Refusal :=
  lanewise2 (fun _ a b => if num sg a ≤ num sg b then a else b) vd vs1 vs2 ew s

/-- VMAX (44_simd.md R270). -/
def execVmax (vd vs1 vs2 : VNum) (ew : EW) (sg : Sgn) (s : State) : Host.Outcome State Fault Refusal :=
  lanewise2 (fun _ a b => if num sg b ≤ num sg a then a else b) vd vs1 vs2 ew s

/-- VCMP.LT (44_simd.md R271, R272). -/
def execVcmpLt (vd vs1 vs2 : VNum) (ew : EW) (sg : Sgn) (s : State) : Host.Outcome State Fault Refusal :=
  lanewise2 (fun n a b => maskLane n (decide (num sg a < num sg b))) vd vs1 vs2 ew s

/-- VCMP.LE (44_simd.md R271, R273). -/
def execVcmpLe (vd vs1 vs2 : VNum) (ew : EW) (sg : Sgn) (s : State) : Host.Outcome State Fault Refusal :=
  lanewise2 (fun n a b => maskLane n (decide (num sg a ≤ num sg b))) vd vs1 vs2 ew s

/-- VCMP.EQ (44_simd.md R271, R274): S has no effect. -/
def execVcmpEq (vd vs1 vs2 : VNum) (ew : EW) (_sg : Sgn) (s : State) : Host.Outcome State Fault Refusal :=
  lanewise2 (fun n a b => maskLane n (decide (a = b))) vd vs1 vs2 ew s

/-- VCMP.NE (44_simd.md R271, R275): S has no effect. -/
def execVcmpNe (vd vs1 vs2 : VNum) (ew : EW) (_sg : Sgn) (s : State) : Host.Outcome State Fault Refusal :=
  lanewise2 (fun n a b => maskLane n (decide (a ≠ b))) vd vs1 vs2 ew s

/-- VCMP.GE (44_simd.md R271, R276). -/
def execVcmpGe (vd vs1 vs2 : VNum) (ew : EW) (sg : Sgn) (s : State) : Host.Outcome State Fault Refusal :=
  lanewise2 (fun n a b => maskLane n (decide (num sg a ≥ num sg b))) vd vs1 vs2 ew s

/-- VCMP.GT (44_simd.md R271, R277). -/
def execVcmpGt (vd vs1 vs2 : VNum) (ew : EW) (sg : Sgn) (s : State) : Host.Outcome State Fault Refusal :=
  lanewise2 (fun n a b => maskLane n (decide (num sg a > num sg b))) vd vs1 vs2 ew s

/-- VREDSUM (44_simd.md R279): the sum modulo 2^ew in lane 0, every other lane 0; S has no effect. -/
def execVredsum (vd vs1 : VNum) (ew : EW) (_sg : Sgn) (s : State) : Host.Outcome State Fault Refusal :=
  fromLanes (fun _ xs => (sumLanes xs).setWidth 512) vd vs1 ew s

/-- A reduction by a choice of one lane: the chosen lane in lane 0, every other lane 0. -/
def reduceLanes (f : (n : Nat) → BitVec n → List (BitVec n) → BitVec n) (n : Nat) : List (BitVec n) → VWord
  | [] => 0
  | x :: xs => (f n x xs).setWidth 512

/-- VREDMIN (44_simd.md R280). -/
def execVredmin (vd vs1 : VNum) (ew : EW) (sg : Sgn) (s : State) : Host.Outcome State Fault Refusal :=
  fromLanes (reduceLanes fun _ => leastLane sg) vd vs1 ew s

/-- VREDMAX (44_simd.md R281). -/
def execVredmax (vd vs1 : VNum) (ew : EW) (sg : Sgn) (s : State) : Host.Outcome State Fault Refusal :=
  fromLanes (reduceLanes fun _ => greatestLane sg) vd vs1 ew s

/-- VPOPCNT (44_simd.md R282): the one bits of each lane; S has no effect. -/
def execVpopcnt (vd vs1 : VNum) (ew : EW) (_sg : Sgn) (s : State) : Host.Outcome State Fault Refusal :=
  fromLanes (fun n xs => packLanes (xs.map fun x => BitVec.ofNat n (popcount x))) vd vs1 ew s

/-- VCOMPRESS (44_simd.md R283): the selected lanes packed low, zeros above, their number in VCNT; S has no effect. -/
def execVcompress (vd vs1 vs2 : VNum) (ew : EW) (_sg : Sgn) (s : State) : Host.Outcome State Fault Refusal :=
  s.withV vs1 fun x s => s.withV vs2 fun y s =>
    let sel := selectLanes (s.lanes ew x) (s.lanes ew y)
    let s' := s.writeV vd (packLanes sel)
    .next (State.complete { s' with csr := { s'.csr with vcnt := BitVec.ofNat 64 sel.length } })

/-- VHPAR (44_simd.md R285): one parity bit per lane, lane j's in bit j, every higher bit 0; S has no effect. A term that
no command word encodes raises ILLEGAL_COMMAND like the word R117 forbids (30_encoding.md R122(d);
notes/assumptions/13.md). -/
def execVhpar (vd vs1 : VNum) (ew : EW) (_sg : Sgn) (k : Fin 8) (s : State) : Host.Outcome State Fault Refusal :=
  if hparLegal ew k then
    fromLanes (fun _ xs => packLanes (xs.map (hparBit s.params k.val))) vd vs1 ew s
  else .next (s.raise .illegalCommand 0 0)

end Sys2Proof.Machine
end

