-- ==== Sys2Proof/Machine/Dispatch.lean ====
section
/-! DEFINITION. The meaning of every command, one arm per constructor. -/

namespace Sys2Proof.Machine

def exec (i : Instr) (s : State) : Host.Outcome State Fault Refusal :=
  match i with
  | .nop => Sys2Proof.Machine.execNop s
  | .seta => Sys2Proof.Machine.execSeta s
  | .modinv => Sys2Proof.Machine.execModinv s
  | .enc => Sys2Proof.Machine.execEnc s
  | .chk => Sys2Proof.Machine.execChk s
  | .dec => Sys2Proof.Machine.execDec s
  | .decchk => Sys2Proof.Machine.execDecchk s
  | .reenc => Sys2Proof.Machine.execReenc s
  | .arithAdd => Sys2Proof.Machine.execArithAdd s
  | .arithSub => Sys2Proof.Machine.execArithSub s
  | .arithMul => Sys2Proof.Machine.execArithMul s
  | .arithDiv => Sys2Proof.Machine.execArithDiv s
  | .henc => Sys2Proof.Machine.execHenc s
  | .hchk => Sys2Proof.Machine.execHchk s
  | .vld vr imm => Sys2Proof.Machine.execVld vr imm s
  | .vst vr imm => Sys2Proof.Machine.execVst vr imm s
  | .vadd vd vs1 vs2 ew sg => Sys2Proof.Machine.execVadd vd vs1 vs2 ew sg s
  | .vsub vd vs1 vs2 ew sg => Sys2Proof.Machine.execVsub vd vs1 vs2 ew sg s
  | .vmullo vd vs1 vs2 ew sg => Sys2Proof.Machine.execVmullo vd vs1 vs2 ew sg s
  | .vdiv vd vs1 vs2 ew sg => Sys2Proof.Machine.execVdiv vd vs1 vs2 ew sg s
  | .vmin vd vs1 vs2 ew sg => Sys2Proof.Machine.execVmin vd vs1 vs2 ew sg s
  | .vmax vd vs1 vs2 ew sg => Sys2Proof.Machine.execVmax vd vs1 vs2 ew sg s
  | .vcmpLt vd vs1 vs2 ew sg => Sys2Proof.Machine.execVcmpLt vd vs1 vs2 ew sg s
  | .vcmpLe vd vs1 vs2 ew sg => Sys2Proof.Machine.execVcmpLe vd vs1 vs2 ew sg s
  | .vcmpEq vd vs1 vs2 ew sg => Sys2Proof.Machine.execVcmpEq vd vs1 vs2 ew sg s
  | .vcmpNe vd vs1 vs2 ew sg => Sys2Proof.Machine.execVcmpNe vd vs1 vs2 ew sg s
  | .vcmpGe vd vs1 vs2 ew sg => Sys2Proof.Machine.execVcmpGe vd vs1 vs2 ew sg s
  | .vcmpGt vd vs1 vs2 ew sg => Sys2Proof.Machine.execVcmpGt vd vs1 vs2 ew sg s
  | .vredsum vd vs1 ew sg => Sys2Proof.Machine.execVredsum vd vs1 ew sg s
  | .vredmin vd vs1 ew sg => Sys2Proof.Machine.execVredmin vd vs1 ew sg s
  | .vredmax vd vs1 ew sg => Sys2Proof.Machine.execVredmax vd vs1 ew sg s
  | .vpopcnt vd vs1 ew sg => Sys2Proof.Machine.execVpopcnt vd vs1 ew sg s
  | .vcompress vd vs1 vs2 ew sg => Sys2Proof.Machine.execVcompress vd vs1 vs2 ew sg s
  | .vhpar vd vs1 ew sg k => Sys2Proof.Machine.execVhpar vd vs1 ew sg k s

end Sys2Proof.Machine
end

