-- ==== Sys2Proof/Machine/HostPort.lean ====
section
/-! DEFINITION. The host's side: the CSR window (10_state.md R30 to R53), the host's data-memory accesses
(20_memory.md R96, 70_reset_and_hazards.md R350) and the reset input (70_reset_and_hazards.md R340 to R344). -/

namespace Sys2Proof.Machine

/-- The CSRs of the window, by name (10_state.md R32). -/
inductive CsrName where
  | id | param | cmd | status | cfg | a | ainv | aw | aIn | src | dst | count | iter | operand
  | failIndex | failIter | hmcount | solvB | solvK | solvA | vbase | vcnt
  deriving DecidableEq, Repr

/-- The CSR at an offset, none where the window holds none (10_state.md R32). -/
def CsrName.ofOffset (off : Nat) : Option CsrName :=
  match off with
  | 0x000 => some .id
  | 0x008 => some .param
  | 0x010 => some .cmd
  | 0x018 => some .status
  | 0x020 => some .cfg
  | 0x028 => some .a
  | 0x030 => some .ainv
  | 0x038 => some .aw
  | 0x040 => some .aIn
  | 0x048 => some .src
  | 0x050 => some .dst
  | 0x058 => some .count
  | 0x060 => some .iter
  | 0x068 => some .operand
  | 0x070 => some .failIndex
  | 0x078 => some .failIter
  | 0x080 => some .hmcount
  | 0x088 => some .solvB
  | 0x090 => some .solvK
  | 0x098 => some .solvA
  | 0x0A0 => some .vbase
  | 0x0A8 => some .vcnt
  | _ => none

/-- PARAM: the VLEN code in [1:0], NVREG − 1 = 7 in [11:8], other bits 0 (10_state.md R33). -/
def paramWord (p : Params) : Word := BitVec.ofNat 64 (p.vlen.code + 7 * 2 ^ 8)

/-- The defined value of a CSR (10_state.md R32 to R51). -/
def State.csrValue (s : State) : CsrName → Word
  | .id => 0x00000000414E4801
  | .param => paramWord s.params
  | .cmd => s.csr.cmd.setWidth 64
  | .status => s.csr.statusWord
  | .cfg => s.csr.cfg
  | .a => s.csr.a
  | .ainv => s.csr.ainv
  | .aw => s.csr.aw
  | .aIn => s.csr.aIn
  | .src => s.csr.src
  | .dst => s.csr.dst
  | .count => s.csr.count
  | .iter => s.csr.iter
  | .operand => s.csr.operand
  | .failIndex => s.csr.failIndex
  | .failIter => s.csr.failIter
  | .hmcount => s.csr.hmcount
  | .solvB => s.csr.solvB
  | .solvK => s.csr.solvK
  | .solvA => s.csr.solvA
  | .vbase => s.csr.vbase
  | .vcnt => s.csr.vcnt

/-- The result CSRs, whose reads while BUSY return any value (70_reset_and_hazards.md R350). -/
def CsrName.isResult : CsrName → Bool
  | .failIndex | .failIter | .hmcount | .a | .ainv | .aw | .solvA | .vcnt => true
  | .id | .param | .cmd | .status | .cfg | .aIn | .src | .dst | .count | .iter | .operand => false
  | .solvB | .solvK | .vbase => false

/-- An access to the window is conforming when it is 8 bytes wide at an offset that is a multiple of 8 (10_state.md R32). -/
def conforming (off n : Nat) : Bool := n == 8 && off % 8 == 0

/-- The offset of a host address in the CSR window, none outside its 4096 bytes (10_state.md R32). -/
def windowOffset (p : Params) (addr : Nat) : Option Nat :=
  if p.mmioBase ≤ addr ∧ addr < p.mmioBase + 4096 then some (addr - p.mmioBase) else none

/-- `mmio_read(off)` (10_state.md R30, R32): no side effect on the block. While BUSY a result CSR reads as any value
(70_reset_and_hazards.md R350), from completion on as its defined value, a STATUS read or not (DESIGN CHOICE,
notes/assumptions/19.md); a non-conforming read, or one of an offset without CSR, returns 0. -/
def State.mmioRead (s : State) (off n : Nat) : State :=
  match conforming off n, CsrName.ofOffset off with
  | true, some c =>
    if s.csr.busy && c.isResult then
      { s with rdata := (Config.freeWord s.freeIdx).toNat, freeIdx := s.freeIdx + 1 }
    else { s with rdata := (s.csrValue c).toNat }
  | _, _ => { s with rdata := 0 }

/-- A write to a read-write CSR other than STATUS, none for the others (10_state.md R32); CFG's reserved bits ignore
the write (R36, R52). Writing CMD is acceptance (R34). -/
def State.csrWrite (s : State) (c : CsrName) (v : Word) : Option State :=
  match c with
  | .cmd => some (s.accept (v.setWidth 32))
  | .cfg => some { s with csr := { s.csr with cfg := v &&& cfgMask } }
  | .aIn => some { s with csr := { s.csr with aIn := v } }
  | .src => some { s with csr := { s.csr with src := v } }
  | .dst => some { s with csr := { s.csr with dst := v } }
  | .count => some { s with csr := { s.csr with count := v } }
  | .iter => some { s with csr := { s.csr with iter := v } }
  | .operand => some { s with csr := { s.csr with operand := v } }
  | .solvB => some { s with csr := { s.csr with solvB := v } }
  | .solvK => some { s with csr := { s.csr with solvK := v } }
  | .vbase => some { s with csr := { s.csr with vbase := v } }
  | .id | .param | .status | .a | .ainv | .aw | .failIndex | .failIter | .hmcount | .solvA | .vcnt => none

/-- `mmio_write(off, v)` (10_state.md R32 to R36, R53): STATUS clears its W1C fields at any time; a write to a
read-write CSR is performed while IDLE, and while BUSY is ignored and sets OVR; read-only CSRs, offsets without CSR
and non-conforming writes change nothing. -/
def State.mmioWrite (s : State) (off n : Nat) (v : Word) : State :=
  match conforming off n, CsrName.ofOffset off with
  | true, some .status => { s with csr := s.csr.writeStatus v }
  | true, some c =>
    match s.csrWrite c v with
    | some s' => if s.csr.busy then { s with csr := { s.csr with ovr := true } } else s'
    | none => s
  | _, _ => s

/-- The addresses of an access of n bytes at a that exist: those below 2^64 (20_memory.md R80; notes/assumptions/11.md). -/
def bytesAt (a n : Nat) : List Nat := ((List.range n).map (a + ·)).filter fun x => x < 2 ^ 64

/-- `MEMR a, n` (30_encoding.md R126). While a command runs, bytes of its destination range read as any value and the
others as they are (20_memory.md R96). From completion on they read as written, whether or not STATUS has been read with
BUSY = 0, after which alone R97 and 70_reset_and_hazards.md R352 promise it: DESIGN CHOICE (notes/assumptions/19.md). -/
def State.hostMemRead (s : State) (a n : Nat) : State :=
  let drawn := (bytesAt a n).filter fun x => s.csr.busy && inRange s.runningDst x
  { s with
    rdata := (s.mem.scramble drawn s.freeIdx).readLE a n
    freeIdx := s.freeIdx + drawn.length }

/-- The host's bytes written into memory: byte t of v at the t-th existing address. -/
def Memory.writeBytes (m : Memory) : List Nat → Nat → Memory
  | [], _ => m
  | a :: rest, v => Memory.writeBytes (m.writeByte a (BitVec.ofNat 8 v)) rest (v / 2 ^ 8)

/-- `MEMW a, n, v` (30_encoding.md R126). A byte of the running command's ranges is raced from then on
(20_memory.md R96); a write after completion lands after the command's writes (DESIGN CHOICE, notes/assumptions/19.md). -/
def State.hostMemWrite (s : State) (a n v : Nat) : State :=
  { s with
    mem := s.mem.writeBytes (bytesAt a n) v
    raced := s.raced ++ (bytesAt a n).filter fun x => s.owned x && !s.raced.contains x }

/-- The bytes that reset leaves at any value: those the running command could have written (70_reset_and_hazards.md
R343), none while IDLE (R344). -/
def State.resetDraws (s : State) : List Nat :=
  if s.csr.busy then bytesAt s.runningDst.1 s.runningDst.2 else []

/-- The reset input (70_reset_and_hazards.md R340 to R344): every piece of the block's state takes its reset value; data
memory keeps its bytes but for those R343 draws freely. The environment's own fields go on. -/
def State.resetInput (s : State) : State :=
  { State.resetWith s.params with
    mem := s.mem.scramble s.resetDraws s.freeIdx
    freeIdx := s.freeIdx + s.resetDraws.length
    schedule := s.schedule
    rdata := s.rdata }

/-- One transaction of the environment. A CSR access outside the window is not the block's (notes/assumptions/12.md). -/
def State.hostAct (s : State) : HostTxn → State
  | .mmioRead addr n =>
    match windowOffset s.params addr with
    | some off => s.mmioRead off n
    | none => s
  | .mmioWrite addr n v =>
    match windowOffset s.params addr with
    | some off => s.mmioWrite off n v
    | none => s
  | .memRead a n => s.hostMemRead a.toNat n
  | .memWrite a n v => s.hostMemWrite a.toNat n v
  | .reset => s.resetInput

/-- The model's stand-in for a host that issues the command word w: acceptance of it (10_state.md R34), with the
sequencer to move next. -/
def State.issue (s : State) (w : CmdWord) : State :=
  { s.accept w with schedule := .core :: s.schedule }

end Sys2Proof.Machine
end

