-- ==== Sys2Proof/Machine/Step.lean ====
section
/-! DEFINITION. One step of the machine: a turn of the environment or of the CORE sequencer (00_scope.md R17, R18). The
sequencer runs an accepted command to completion as one atomic step (R18, 10_state.md R34). -/

namespace Sys2Proof.Machine

/-- The accepted command, run to completion: an illegal word raises ILLEGAL_COMMAND(0, 0) (30_encoding.md R122), a legal
one has its meaning (R124). -/
def runCommand (s : State) : Host.Outcome State Fault Refusal :=
  match decode s.csr.cmd with
  | .ok i => exec i s
  | .error _ => .next (s.raise .illegalCommand 0 0)

/-- The sequencer's turn: it runs the accepted command; IDLE, it waits for the host (70_reset_and_hazards.md R342). -/
def coreTurn (s : State) : Host.Outcome State Fault Refusal :=
  if s.csr.busy then runCommand s else .next s

/-- One step: the next turn of the schedule, or the sequencer's when none is scheduled. -/
def step (s : State) : Host.Outcome State Fault Refusal :=
  match s.schedule with
  | .host t :: rest => .next (State.hostAct { s with schedule := rest } t)
  | .core :: rest => coreTurn { s with schedule := rest }
  | [] => coreTurn s

/-- The state in which the command word w (of nbits bits, every bit above them 0) has just been accepted and the
sequencer moves next: the machine fetches nothing, the host writes CMD (10_state.md R31, R34; notes/assumptions/7.md). -/
def State.withFetchWord (s : State) (nbits w : Nat) : State :=
  s.issue (BitVec.ofNat 32 (w % 2 ^ nbits))

end Sys2Proof.Machine
end

