-- ==== Sys2Proof/Safety.lean ====
section
/-! DEFINITION. What counts as a safe state and a safe run: the invariant `State.Inv` of the machine's state, and runs in
which no step faults or refuses and no never-written vector register is read. -/

namespace Sys2Proof.Machine

/-- A and AINV are committed for the width in AW, or nothing is committed (10_state.md R38 to R40, R58). -/
def Csrs.pairInv (c : Csrs) : Prop :=
  if awValid c.aw then
    awEW c.aw ≠ .e64 ∧ c.aw = awOf (awEW c.aw) ∧ c.a.toNat < 2 ^ (awEW c.aw).bits ∧ c.a.toNat % 2 = 1
      ∧ c.ainv.toNat < 2 ^ (2 * (awEW c.aw).bits)
      ∧ c.a.toNat * c.ainv.toNat % 2 ^ (2 * (awEW c.aw).bits) = 1
  else c.aw = 0 ∧ c.a = 0 ∧ c.ainv = 0

/-- The invariant of the machine's state, kept by every step. -/
structure State.Inv (s : State) : Prop where
  /-- The data memory is in canonical form. -/
  mem_wf : s.mem.wf
  /-- CFG's reserved bits read 0 (10_state.md R36, R52). -/
  cfg_reserved : s.csr.cfg &&& cfgMask = s.csr.cfg
  /-- The committed pair (10_state.md R38 to R40). -/
  pair : s.csr.pairInv
  /-- A vector register holds VLEN bits (10_state.md R54, R55). -/
  vregs_fit : ∀ r : VNum, truncVLen s.params (s.vregs.get r).val = (s.vregs.get r).val
  /-- VCNT counts lanes (10_state.md R51). -/
  vcnt_le : s.csr.vcnt.toNat ≤ s.params.vlen.bits / 8
  /-- A report without error names no location (60_exceptions.md R315). -/
  no_error_no_location : s.csr.err = .none → s.csr.failIndex = 0 ∧ s.csr.failIter = 0
  /-- While a command runs nothing is reported yet (10_state.md R34). -/
  busy_unreported : s.csr.busy = true → s.csr.done = false ∧ s.csr.err = .none ∧ s.csr.hmcount = 0
  /-- Between steps no command is halfway: the progress is idle (10_state.md R57, 00_scope.md R18). -/
  seq_idle : s.seq = Seq.idle
  /-- The fault of 10_state.md R56 is recorded only where VREG_UNINIT is `fault` (00_scope.md R6). -/
  fault_setting : s.vregFault ≠ none → s.params.vregUninit = .fault
  /-- Races belong to a running command (20_memory.md R96). -/
  raced_busy : s.csr.busy = false → s.raced = []

/-- n steps from s end in t, none of them faulting or refusing. -/
def Reaches : Nat → State → State → Prop
  | 0, s, t => s = t
  | n + 1, s, t => ∃ u, step s = .next u ∧ Reaches n u t

/-- A safe run of n steps: none of them faults or refuses, and at its end no read of a never-written vector register is on
record (70_reset_and_hazards.md R347). -/
def SafeFor (n : Nat) (s : State) : Prop := ∃ t, Reaches n s t ∧ t.vregFault = none

end Sys2Proof.Machine
end

