-- ==== Sys2Proof/Certificates/Slice0/Obligations.lean ====
section
/-! DEFINITION. The statements about CODING-CORE for the provers, and the few notions they share. Each names the rules of
spec/ it rests on; a clause that rests on a choice of the model says so and names its log entry. -/

namespace Sys2Proof.Machine

/-! ### Notions the statements share -/

/-- The AN start checks pass (41_an_codec.md R170): w is not 64, and A and AINV were committed at this width. -/
def AnReady (s : State) : Prop :=
  cfgEW s.csr.cfg ≠ .e64 ∧ awValid s.csr.aw = true ∧ awEW s.csr.aw = cfgEW s.csr.cfg

/-- The raw width w that CFG.EW selects. -/
def cfgW (s : State) : Nat := (cfgEW s.csr.cfg).bits

/-- Element i of the source buffer, in elements of ss bytes. -/
def srcElem (s : State) (ss i : Nat) : Nat := s.mem.readLE (elemAddr s.csr.src.toNat i ss) ss

/-- Element i of the destination buffer, in elements of ds bytes. -/
def dstElem (s : State) (ds i : Nat) : Nat := s.mem.readLE (elemAddr s.csr.dst.toNat i ds) ds

/-- Memory is canonical, no byte is raced, and every read of the source is admitted. -/
structure ReadsReady (s : State) (ss : Nat) : Prop where
  canonical : s.mem.wf
  no_race : s.raced = []
  reads : ∀ i < s.csr.count.toNat, s.admits (elemAddr s.csr.src.toNat i ss) ss = true

/-- Every write of the destination is admitted. -/
def WritesReady (s : State) (ds : Nat) : Prop :=
  ∀ i < s.csr.count.toNat, s.admits (elemAddr s.csr.dst.toNat i ds) ds = true

/-- The source and destination ranges of 20_memory.md R91 share no byte. -/
def BuffersDisjoint (s : State) (ss ds : Nat) : Prop :=
  rangesMeet s.csr.src.toNat (s.csr.count.toNat * ss) s.csr.dst.toNat (s.csr.count.toNat * ds) = false

/-- How many elements a command without error writes: none when ITER = 0. -/
def passCount (s : State) : Nat := if s.csr.iter.toNat = 0 then 0 else s.csr.count.toNat

/-- t is s but for its memory; there, element i of the destination is val i for i < k, and every byte outside those k
elements is as in s. -/
def WritesElems (s u t : State) (ds k : Nat) (val : Nat → Nat) : Prop :=
  t = { u with mem := t.mem } ∧ (∀ i < k, dstElem t ds i = val i) ∧
    ∀ a, inRange (s.csr.dst.toNat, k * ds) a = false → t.mem.readByte a = s.mem.readByte a

/-- What is on record of the fault of 10_state.md R56 after an instruction that reads the given vector registers in that
order: what was on record before, or else, where VREG_UNINIT is `fault`, the first of them that has not been written since
reset (notes/assumptions/6.md, 10.md). -/
def faultAfter (s : State) (reads : List VNum) : Option VNum :=
  if s.vregFault ≠ none ∨ s.params.vregUninit = .value then s.vregFault
  else reads.find? fun r => !(s.vregs.get r).written

/-- t is s completed, but for v[vd], which is written and keeps within VLEN bits, and what is on record after the reads. -/
def WritesOnlyV (s t : State) (reads : List VNum) (vd : VNum) : Prop :=
  t = { s.complete with vregs := t.vregs, vregFault := faultAfter s reads } ∧
    (∀ r, r ≠ vd → t.vregs.get r = s.vregs.get r) ∧
    (t.vregs.get vd).written = true ∧ truncVLen s.params (t.vregs.get vd).val = (t.vregs.get vd).val

/-- v[r] as the statements read it. -/
def vval (s : State) (r : VNum) : VWord := (s.vregs.get r).val

/-- The stream commands of the AN family (41_an_codec.md R170). -/
def anCommands : List Instr :=
  [.enc, .chk, .dec, .decchk, .reenc, .arithAdd, .arithSub, .arithMul, .arithDiv]

/-- The read-write CSRs whose writes 10_state.md R53 gates, CMD aside. -/
def gatedCsrs : List CsrName :=
  [.cfg, .aIn, .src, .dst, .count, .iter, .operand, .solvB, .solvK, .vbase]

/-- The offset of a CSR in the window, transcribed from 10_state.md R32. -/
def offsetOf : CsrName → Nat
  | .id => 0x000 | .param => 0x008 | .cmd => 0x010 | .status => 0x018 | .cfg => 0x020 | .a => 0x028 | .ainv => 0x030
  | .aw => 0x038 | .aIn => 0x040 | .src => 0x048 | .dst => 0x050 | .count => 0x058 | .iter => 0x060
  | .operand => 0x068 | .failIndex => 0x070 | .failIter => 0x078 | .hmcount => 0x080 | .solvB => 0x088
  | .solvK => 0x090 | .solvA => 0x098 | .vbase => 0x0A0 | .vcnt => 0x0A8

/-- The number of an error code, transcribed from 60_exceptions.md R310. -/
def errNumber : ErrCode → Nat
  | .none => 0x00 | .illegalCommand => 0x01 | .configError => 0x02 | .invariantViolation => 0x03
  | .corruptionDetected => 0x04 | .checksumMismatch => 0x05 | .divideByZero => 0x06 | .busError => 0x07
  | .bufferOverlap => 0x08

/-- What each CSR holds in s, ID, PARAM and STATUS aside: the register of its name (10_state.md R34, R36 to R51). -/
def heldValue (s : State) : List (CsrName × Word) :=
  [(.cmd, s.csr.cmd.setWidth 64), (.cfg, s.csr.cfg), (.a, s.csr.a), (.ainv, s.csr.ainv), (.aw, s.csr.aw),
    (.aIn, s.csr.aIn), (.src, s.csr.src), (.dst, s.csr.dst), (.count, s.csr.count), (.iter, s.csr.iter),
    (.operand, s.csr.operand), (.failIndex, s.csr.failIndex), (.failIter, s.csr.failIter), (.hmcount, s.csr.hmcount),
    (.solvB, s.csr.solvB), (.solvK, s.csr.solvK), (.solvA, s.csr.solvA), (.vbase, s.csr.vbase), (.vcnt, s.csr.vcnt)]

/-- The state whose next turn is the host's conforming write of v to the CSR c. -/
def writing (s : State) (c : CsrName) (v : Word) : State :=
  { s with schedule := .host (.mmioWrite (s.params.mmioBase + offsetOf c) 8 v) :: s.schedule }

/-- The state whose next turn is the host's conforming read of the CSR c. -/
def reading (s : State) (c : CsrName) : State :=
  { s with schedule := .host (.mmioRead (s.params.mmioBase + offsetOf c) 8) :: s.schedule }

/-- The command word is illegal by 30_encoding.md R122 (a) to (d), read off the word's bits. -/
def IllegalByRule (w : CmdWord) : Prop :=
  let opc := w.extractLsb' 24 8
  let formatN := [0x01#8, 0x10#8, 0x11#8, 0x20#8, 0x21#8, 0x22#8, 0x23#8, 0x24#8, 0x28#8, 0x29#8, 0x2A#8, 0x2B#8, 0x30#8, 0x31#8]
  let formatM := [0x40#8, 0x41#8]
  let twoSource := [0x48#8, 0x49#8, 0x4A#8, 0x4B#8, 0x4C#8, 0x4D#8, 0x5E#8]
  let oneSource := [0x58#8, 0x59#8, 0x5A#8, 0x5C#8]
  (opc ∉ formatN ∧ opc ∉ formatM ∧ opc ∉ twoSource ∧ opc ∉ oneSource ∧ opc ≠ 0x50#8 ∧ opc ≠ 0x60#8)
    ∨ (opc ∈ formatN ∧ w.extractLsb' 0 24 ≠ 0#24)
    ∨ (opc ∈ formatM ∧ w.extractLsb' 16 5 ≠ 0#5)
    ∨ (opc ∈ twoSource ∧ w.extractLsb' 0 12 ≠ 0#12)
    ∨ (opc ∈ oneSource ∧ (w.extractLsb' 0 12 ≠ 0#12 ∨ w.extractLsb' 15 3 ≠ 0#3))
    ∨ (opc = 0x50#8 ∧ (w.extractLsb' 0 9 ≠ 0#9 ∨ w.extractLsb' 9 3 = 6#3 ∨ w.extractLsb' 9 3 = 7#3))
    ∨ (opc = 0x60#8 ∧ (w.extractLsb' 0 9 ≠ 0#9 ∨ w.extractLsb' 15 3 ≠ 0#3 ∨ w.extractLsb' 13 2 = 0#2
        ∨ w.extractLsb' 13 2 = 3#2 ∨ w.extractLsb' 9 3 = 6#3
        ∨ (w.extractLsb' 13 2 = 1#2 ∧ w.extractLsb' 9 3 = 5#3)))

/-- The error codes a command of each family can end with (60_exceptions.md R332). -/
def familyErrors : Instr → List ErrCode
  | .nop => [.none]
  | .seta | .modinv => [.none, .configError, .invariantViolation]
  | .enc | .dec => [.none, .configError, .busError, .bufferOverlap]
  | .chk => [.none, .configError, .corruptionDetected, .busError]
  | .decchk => [.none, .configError, .corruptionDetected, .busError, .bufferOverlap]
  | .reenc => [.none, .configError, .invariantViolation, .corruptionDetected, .busError, .bufferOverlap]
  | .arithAdd | .arithSub | .arithMul => [.none, .configError, .busError, .bufferOverlap]
  | .arithDiv => [.none, .configError, .divideByZero, .busError, .bufferOverlap]
  | .henc => [.none, .configError, .busError, .bufferOverlap]
  | .hchk => [.none, .configError, .checksumMismatch, .busError]
  | .vld .. | .vst .. => [.none, .busError]
  | .vdiv .. => [.none, .divideByZero]
  | .vadd .. | .vsub .. | .vmullo .. | .vmin .. | .vmax .. => [.none]
  | .vcmpLt .. | .vcmpLe .. | .vcmpEq .. | .vcmpNe .. | .vcmpGe .. | .vcmpGt .. => [.none]
  | .vredsum .. | .vredmin .. | .vredmax .. | .vpopcnt .. | .vcompress .. | .vhpar .. => [.none]

/-- The registers a command may change besides completion's and the error report's (60_exceptions.md R316, the family
rules' "Registers written"), with every other CSR of s. -/
def Csrs.keeps (c d : Csrs) : Prop :=
  d.cmd = c.cmd ∧ d.ovr = c.ovr ∧ d.cfg = c.cfg ∧ d.aIn = c.aIn ∧ d.src = c.src ∧ d.dst = c.dst ∧ d.count = c.count
    ∧ d.iter = c.iter ∧ d.operand = c.operand ∧ d.solvB = c.solvB ∧ d.solvK = c.solvK ∧ d.vbase = c.vbase

/-- s with its hint fields CFG.BACKEND, CFG.HSTRAT and CFG.UNROLL taken from h (10_state.md R36, R37). -/
def withHints (s : State) (h : Word) : State :=
  { s with csr := { s.csr with cfg := (s.csr.cfg &&& ~~~(0xFF70 : Word)) ||| (h &&& 0xFF70) } }

/-- A map of an outcome's next state. -/
def mapNext (f : State → State) : Host.Outcome State Fault Refusal → Host.Outcome State Fault Refusal
  | .next t => .next (f t)
  | .fault r => .fault r
  | .refused r => .refused r

/-- ARITH's operand o at width w (42_an_arith.md R210): OPERAND[w−1:0]. -/
def operandAt (s : State) (w : Nat) : BitVec w := BitVec.ofNat w s.csr.operand.toNat

/-- The element function of each ARITH command as 42_an_arith.md R213 to R216 writes it, on an m-bit pattern e, m = 2w. -/
def arithSpec (i : Instr) (sg : Sgn) (a w : Nat) (o : BitVec w) (e : Nat) : Nat :=
  match i with
  | .arithAdd => (e + (ext sg (2 * w) o).toNat * a) % 2 ^ (2 * w)
  | .arithSub => (((e : Int) - ((ext sg (2 * w) o).toNat * a : Nat)) % 2 ^ (2 * w)).toNat
  | .arithMul => (e * (ext sg (2 * w) o).toNat) % 2 ^ (2 * w)
  | _ =>
    match sg with
    | .signed => ((BitVec.ofNat (2 * w) e).toInt.tdiv o.toInt % 2 ^ (2 * w)).toNat
    | .unsigned => e / o.toNat

/-- The four ARITH commands. -/
def arithCommands : List Instr := [.arithAdd, .arithSub, .arithMul, .arithDiv]

/-- Record i of the source mismatches: its full code byte is not the code of its data word (43_hamming.md R240). -/
def recordMismatch (s : State) (w i : Nat) : Bool :=
  srcElem s (2 * (w / 8)) i / 2 ^ w % 256 != hamCode s.params (BitVec.ofNat w (srcElem s (2 * (w / 8)) i))

/-- The 16- and 32-bit widths of the Hamming codec (43_hamming.md R230). -/
def HamReady (s : State) (w : Nat) : Prop :=
  (cfgEW s.csr.cfg = .e16 ∧ w = 16) ∨ (cfgEW s.csr.cfg = .e32 ∧ w = 32)

/-- The writing stream command i, with every check before its overlap check passed, reads elements of ss bytes and writes
elements of ds bytes (20_memory.md R91, 41_an_codec.md R170, R190, 42_an_arith.md R216, 43_hamming.md R230). -/
def StreamReady (s : State) (i : Instr) (ss ds : Nat) : Prop :=
  (AnReady s ∧
    ((i = .enc ∧ ss = cfgW s / 8 ∧ ds = 2 * cfgW s / 8)
      ∨ ((i = .dec ∨ i = .decchk) ∧ ss = 2 * cfgW s / 8 ∧ ds = cfgW s / 8)
      ∨ ((i = .arithAdd ∨ i = .arithSub ∨ i = .arithMul ∨ (i = .arithDiv ∧ operandAt s (cfgW s) ≠ 0)
          ∨ (i = .reenc ∧ s.csr.aIn.toNat < 2 ^ cfgW s ∧ s.csr.aIn.toNat % 2 = 1))
        ∧ ss = 2 * cfgW s / 8 ∧ ds = 2 * cfgW s / 8)))
  ∨ (i = .henc ∧ ∃ w, HamReady s w ∧ ss = w / 8 ∧ ds = 2 * (w / 8))

/-- The check of CHK, DECCHK and REENC on a source element e (41_an_codec.md R174); the other stream commands check none. -/
def elemPasses (s : State) (i : Instr) (e : Nat) : Bool :=
  if i ∈ [.chk, .decchk, .reenc] then
    validCode (cfgLayout s.csr.cfg) (cfgSgn s.csr.cfg) (BitVec.ofNat (2 * cfgW s) e) s.csr.a.toNat s.csr.ainv.toNat
  else true

/-- What the writing stream command i writes for a source element e (41_an_codec.md R172 to R191, 42_an_arith.md R213 to
R216, 43_hamming.md R232). -/
def elemValue (s : State) (i : Instr) (e : Nat) : Nat :=
  if i = .enc then
    (ext (cfgSgn s.csr.cfg) (2 * cfgW s) (BitVec.ofNat (cfgW s) e)).toNat * s.csr.a.toNat % 2 ^ (2 * cfgW s)
  else if i ∈ [.dec, .decchk] then e * s.csr.ainv.toNat % 2 ^ (2 * cfgW s) % 2 ^ cfgW s
  else if i = .reenc then
    (encodeVal (cfgSgn s.csr.cfg) (decodeVal (BitVec.ofNat (2 * cfgW s) e) s.csr.ainv.toNat) s.csr.aIn.toNat).toNat
  else if i = .henc then e + 2 ^ cfgW s * hamCode s.params (BitVec.ofNat (cfgW s) e)
  else arithSpec i (cfgSgn s.csr.cfg) s.csr.a.toNat (cfgW s) (operandAt s (cfgW s)) e

end Sys2Proof.Machine

open Sys2Proof Sys2Proof.Machine

/-! ### Encoding -/

/-- Decoding an encoded well-formed instruction gives it back, with every operand at every value (30_encoding.md R121,
R123). -/
def Obligations.DecodeOfEncodeIsIdentity : Prop :=
  ∀ i : Instr, i.wellFormed = true → decode (encode i) = .ok i

/-- A word decodes to at most the one instruction whose encoding it is, and only to well-formed ones (30_encoding.md
R123). -/
def Obligations.LegalWordsAreEncodings : Prop :=
  ∀ (w : CmdWord) (i : Instr), decode w = .ok i → i.wellFormed = true ∧ encode i = w

/-- The words of 30_encoding.md R121 and four others written out from its tables decode to what they stand for. -/
def Obligations.SpecExampleWordsDecode : Prop :=
  decode 0x4829C000 = .ok (.vadd 1 2 3 .e32 .unsigned) ∧
  decode 0x50973A00 = .ok (.vcmpGt 4 5 6 .e16 .signed) ∧
  decode 0x60282E00 = .ok (.vhpar 1 2 .e16 .unsigned 7) ∧
  decode 0x40400040 = .ok (.vld 2 0x40) ∧
  decode 0x41E0FFFF = .ok (.vst 7 0xFFFF) ∧
  decode 0x20000000 = .ok .enc ∧
  decode 0x01000000 = .ok .nop ∧
  decode 0x10000000 = .ok .seta ∧
  decode 0x2B000000 = .ok .arithDiv ∧
  decode 0x31000000 = .ok .hchk

/-- 30_encoding.md R122: the words the decoder rejects are those of (a) to (d), and one that has been accepted ends the
command with ILLEGAL_COMMAND(0, 0) and nothing else. -/
def Obligations.IllegalWordsRaiseIllegalCommand : Prop :=
  (∀ w : CmdWord, (∃ e, decode w = .error e) ↔ IllegalByRule w) ∧
  ∀ (s : State) (rest : List Turn), s.csr.busy = true → IllegalByRule s.csr.cmd →
    (s.schedule = [] ∧ rest = []) ∨ s.schedule = .core :: rest →
    step s = .next { s with
      csr := { s.csr with busy := false, done := true, err := .illegalCommand, failIndex := 0, failIter := 0 }
      seq := Seq.idle
      schedule := rest
      raced := [] }

/-! ### Steps and the host -/

/-- A step runs the accepted command: when the sequencer moves next, a command runs and its word decodes to i, the step is
exec of i, the turn taken off the schedule; with no command running the sequencer waits; and the state `withFetchWord`
builds is one whose next step runs its word. (The schedule of turns is the model's own, notes/assumptions/7.md.) -/
def Obligations.StepRunsTheAcceptedCommand : Prop :=
  (∀ (s : State) (i : Instr), s.csr.busy = true → decode s.csr.cmd = .ok i → s.schedule = [] → step s = exec i s) ∧
  (∀ (s : State) (i : Instr) (rest : List Turn), s.csr.busy = true → decode s.csr.cmd = .ok i →
    s.schedule = .core :: rest → step s = exec i { s with schedule := rest }) ∧
  (∀ s : State, s.csr.busy = false → s.schedule = [] → step s = .next s) ∧
  (∀ (s : State) (rest : List Turn), s.csr.busy = false → s.schedule = .core :: rest →
    step s = .next { s with schedule := rest }) ∧
  (∀ (s : State) (w : Nat) (i : Instr), w < 2 ^ 32 → decodeTableWord 32 w = some i →
    step (s.withFetchWord 32 w) = exec i (s.accept (BitVec.ofNat 32 w)))

/-- 10_state.md R34: a conforming write of x to CMD while BUSY = 0 is an acceptance. -/
def Obligations.CmdWriteIsAcceptance : Prop :=
  ∀ (s : State) (x : Word), s.csr.busy = false →
    step (writing s .cmd x) = .next { s with
      csr := { s.csr with
        cmd := x.extractLsb' 0 32, done := false, err := .none, failIndex := 0, failIter := 0, hmcount := 0, busy := true }
      seq := Seq.idle
      raced := [] }

/-- 10_state.md R53: while BUSY = 1 a write to CMD or a gated CSR is ignored and sets OVR; STATUS writes are performed;
writes to read-only CSRs are ignored and never set OVR, whether or not BUSY is 1; so no transaction of the host but reset
changes a CSR that a running command reads. -/
def Obligations.WritesWhileBusyAreIgnored : Prop :=
  (∀ (s : State) (c : CsrName) (v : Word), s.csr.busy = true → (c = .cmd ∨ c ∈ gatedCsrs) →
    step (writing s c v) = .next { s with csr := { s.csr with ovr := true } }) ∧
  (∀ (s : State) (v : Word),
    step (writing s .status v) = .next { s with
      csr := { s.csr with
        done := s.csr.done && !v.getLsbD 1, ovr := s.csr.ovr && !v.getLsbD 2 } }) ∧
  (∀ (s : State) (c : CsrName) (v : Word), c ≠ .cmd → c ≠ .status → c ∉ gatedCsrs → step (writing s c v) = .next s) ∧
  (∀ (s t : State) (x : HostTxn) (rest : List Turn), s.csr.busy = true → s.schedule = .host x :: rest → x ≠ .reset →
    step s = .next t →
    t.csr.busy = true ∧ { t.csr with done := s.csr.done, ovr := s.csr.ovr } = s.csr)

/-- A conforming write to a read-write CSR while IDLE changes that CSR alone, and a read of it then returns the value
written, CFG's reserved bits 0 (10_state.md R32, R36, R52). -/
def Obligations.CsrWritesReadBack : Prop :=
  ∀ (s : State) (c : CsrName) (v : Word), s.csr.busy = false → c ∈ gatedCsrs →
    ∃ t, step (writing s c v) = .next t ∧
      t = { s with csr := t.csr } ∧
      (∀ d, d ≠ c → t.csrValue d = s.csrValue d) ∧
      step (reading t c) = .next { t with rdata := (if c = .cfg then v &&& 0xFF7F else v).toNat }

/-- Reads of the window change nothing of the block (10_state.md R32): a CSR reads as its value, but for the result CSRs
while a command runs, which read as the next free value (70_reset_and_hazards.md R350; that
they read as their value from completion on, before STATUS has been read, is the model's choice,
notes/assumptions/19.md); offsets without CSR and
non-conforming accesses read 0, and such writes are ignored. The value of a CSR, in every state: STATUS has BUSY in bit 0,
DONE in bit 1, OVR in bit 2, the number of ERR in bits [15:8] and 0 in every other bit (10_state.md R35, 60_exceptions.md
R310); ID is 0x00000000414E4801 and PARAM has the VLEN code in bits [1:0], 7 in bits [11:8] and 0 elsewhere (R33); every
other CSR is the register of its name, CMD with bits [63:32] 0 (R34). -/
def Obligations.CsrReadsHaveNoSideEffect : Prop :=
  (∀ (s : State) (c : CsrName), s.csr.busy = false ∨ c ∉ [.failIndex, .failIter, .hmcount, .a, .ainv, .aw, .solvA, .vcnt] →
    step (reading s c) = .next { s with rdata := (s.csrValue c).toNat }) ∧
  (∀ (s : State) (c : CsrName), s.csr.busy = true → c ∈ [.failIndex, .failIter, .hmcount, .a, .ainv, .aw, .solvA, .vcnt] →
    step (reading s c)
      = .next { s with rdata := (Config.freeWord s.freeIdx).toNat, freeIdx := s.freeIdx + 1 }) ∧
  (∀ (s : State) (off n : Nat) (v : Word) (rest : List Turn), off < 4096 → (n ≠ 8 ∨ off % 8 ≠ 0 ∨ 0x0B0 ≤ off) →
    (s.schedule = .host (.mmioRead (s.params.mmioBase + off) n) :: rest →
      step s = .next { s with schedule := rest, rdata := 0 }) ∧
    (s.schedule = .host (.mmioWrite (s.params.mmioBase + off) n v) :: rest →
      step s = .next { s with schedule := rest })) ∧
  (∀ s : State,
    (s.csrValue .status).getLsbD 0 = s.csr.busy ∧
    (s.csrValue .status).getLsbD 1 = s.csr.done ∧
    (s.csrValue .status).getLsbD 2 = s.csr.ovr ∧
    ((s.csrValue .status).extractLsb' 8 8).toNat = errNumber s.csr.err ∧
    (s.csrValue .status).extractLsb' 3 5 = 0#5 ∧ (s.csrValue .status).extractLsb' 16 48 = 0#48) ∧
  (∀ s : State, s.csrValue .id = 0x00000000414E4801 ∧
    ((s.csrValue .param).extractLsb' 0 2).toNat
      = (match s.params.vlen with | .v128 => 0 | .v256 => 1 | .v512 => 2) ∧
    (s.csrValue .param).extractLsb' 2 6 = 0#6 ∧ (s.csrValue .param).extractLsb' 8 4 = 7#4 ∧
    (s.csrValue .param).extractLsb' 12 52 = 0#52) ∧
  (∀ (s : State) (c : CsrName) (v : Word), (c, v) ∈ heldValue s → s.csrValue c = v)

/-- 70_reset_and_hazards.md R344: reset while IDLE is deterministic; the block takes the state after reset and data memory
is unchanged. R343: reset while a command runs leaves the block in its reset state; every byte outside the command's
destination range keeps its value, and every byte of it holds a free value; an illegal word has no such range. The
model's choices: the environment's own fields (schedule, last read, free counter) go on (notes/assumptions/7.md); every
vector register, which R56 and R341 leave UNSPECIFIED, holds 0 again with its never-written mark, and the record of the
fault of R56 is cleared (notes/assumptions/6.md). -/
def Obligations.ResetInputRestoresTheBlock : Prop :=
  (∀ (s : State) (rest : List Turn), s.csr.busy = false → s.schedule = .host .reset :: rest →
    step s = .next { State.resetWith s.params with
      mem := s.mem, schedule := rest, freeIdx := s.freeIdx, rdata := s.rdata }) ∧
  (∀ (s : State) (e : Illegal) (rest : List Turn), s.csr.busy = true → decode s.csr.cmd = .error e →
    s.schedule = .host .reset :: rest →
    step s = .next { State.resetWith s.params with
      mem := s.mem, schedule := rest, freeIdx := s.freeIdx, rdata := s.rdata }) ∧
  ∀ (s : State) (i : Instr) (rest : List Turn), s.mem.wf → s.csr.busy = true → decode s.csr.cmd = .ok i →
    s.schedule = .host .reset :: rest →
    ∃ t, step s = .next t ∧
      t = { State.resetWith s.params with mem := t.mem, schedule := rest, freeIdx := t.freeIdx, rdata := s.rdata } ∧
      (∀ a, inRange (dstRange s i) a = false → t.mem.readByte a = s.mem.readByte a) ∧
      (∀ a, a < 2 ^ 64 → inRange (dstRange s i) a = true →
        ∃ k, s.freeIdx ≤ k ∧ k < t.freeIdx ∧ t.mem.readByte a = Config.freeByte k)

/-- 20_memory.md R96: a host write to bytes of the running command's ranges makes them raced; in a read by the block each
raced byte is a free value and every other byte its value in memory; in a host read while BUSY each byte of the destination
range is a free value and every other byte its value in memory, and the read disturbs nothing. The model's choices: a host
access is of any size, little-endian and not subject to mem_ok (notes/assumptions/11.md), the list of raced bytes
and the counter of free values (notes/assumptions/8.md), and that memory is as it is for the host as soon as BUSY = 0
(notes/assumptions/19.md). -/
def Obligations.RacedBytesAreFree : Prop :=
  (∀ (s : State) (a : Word) (n v : Nat) (rest : List Turn), s.schedule = .host (.memWrite a n v) :: rest →
    ∃ t, step s = .next t ∧ t = { s with schedule := rest, mem := t.mem, raced := t.raced } ∧
      (a.toNat + n ≤ 2 ^ 64 → t.mem = s.mem.writeLE a.toNat n v) ∧
      ∀ x, x ∈ t.raced ↔ x ∈ s.raced ∨ (x < 2 ^ 64 ∧ inRange (a.toNat, n) x = true ∧ s.csr.busy = true
        ∧ (inRange s.runningSrc x = true ∨ inRange s.runningDst x = true))) ∧
  (∀ (s : State) (a n j : Nat), s.mem.wf → j < n →
    (a + j ∈ s.raced → ∃ k, s.freeIdx ≤ k ∧ k < (s.memRead a n).2.freeIdx ∧
      BitVec.ofNat 8 ((s.memRead a n).1 / 2 ^ (8 * j)) = Config.freeByte k) ∧
    (a + j ∉ s.raced → BitVec.ofNat 8 ((s.memRead a n).1 / 2 ^ (8 * j)) = s.mem.readByte (a + j))) ∧
  (∀ (s : State) (a : Word) (n : Nat) (rest : List Turn), s.mem.wf → s.schedule = .host (.memRead a n) :: rest →
    ∃ t, step s = .next t ∧ t = { s with schedule := rest, rdata := t.rdata, freeIdx := t.freeIdx } ∧
      t.rdata < 2 ^ (8 * n) ∧ t.freeIdx ≤ s.freeIdx + n ∧
      (s.csr.busy = false ∨ (∀ j < n, inRange s.runningDst (a.toNat + j) = false) → t.freeIdx = s.freeIdx) ∧
      ∀ j < n,
        (s.csr.busy = true → a.toNat + j < 2 ^ 64 → inRange s.runningDst (a.toNat + j) = true →
          ∃ k, s.freeIdx ≤ k ∧ k < t.freeIdx ∧ BitVec.ofNat 8 (t.rdata / 2 ^ (8 * j)) = Config.freeByte k) ∧
        (s.csr.busy = false ∨ 2 ^ 64 ≤ a.toNat + j ∨ inRange s.runningDst (a.toNat + j) = false →
          BitVec.ofNat 8 (t.rdata / 2 ^ (8 * j)) = s.mem.readByte (a.toNat + j)))

/-- 10_state.md R59, R33: what the window reads after reset, on every implementation: ID and PARAM as stated, every other
CSR 0; no vector register has been written (R56). -/
def Obligations.ResetHoldsTheStatedValues : Prop :=
  ∀ p : Params,
    (State.resetWith p).csrValue .id = 0x00000000414E4801 ∧
    (p.vlen = .v128 → (State.resetWith p).csrValue .param = 0x700) ∧
    (p.vlen = .v256 → (State.resetWith p).csrValue .param = 0x701) ∧
    (p.vlen = .v512 → (State.resetWith p).csrValue .param = 0x702) ∧
    (∀ c, c ≠ .id → c ≠ .param → (State.resetWith p).csrValue c = 0) ∧
    (∀ r : VNum, ((State.resetWith p).vregs.get r).written = false)

/-! ### The whole machine -/

/-- The invariant holds after reset, on every implementation. -/
def Obligations.InvariantHoldsAtReset : Prop := ∀ p : Params, (State.resetWith p).Inv

/-- Every step keeps the invariant: memory stays canonical, CFG's reserved bits stay 0, A and AINV stay an odd constant below
2^w and its inverse modulo 2^(2w) for the width in AW or nothing is committed, vector registers stay within VLEN bits, a
report without error names no location, the fault of R56 is recorded only under VREG_UNINIT = fault (10_state.md R36, R38 to R40, R52, R54). -/
def Obligations.StepKeepsTheInvariant : Prop :=
  ∀ s t : State, s.Inv → step s = .next t → t.Inv

/-- 00_scope.md R20, R19: an accepted command ends. From every state with a command running, after at most the scheduled
turns and one more, a step has ended it (BUSY = 0). (The schedule of turns and this bound are the model's own,
notes/assumptions/7.md: R20 fixes no time. That a read of a never-written vector register does not stop the machine is the
model's choice, notes/assumptions/6.md.) -/
def Obligations.EveryAcceptedCommandEnds : Prop :=
  ∀ s : State, s.csr.busy = true →
    ∃ n u t, n ≤ s.schedule.length ∧ Reaches n s u ∧ step u = .next t ∧ t.csr.busy = false

/-- Nothing stops the machine: every step from every state gives a next state (30_encoding.md R124, 00_scope.md R19). And the
record of the fault of 10_state.md R56 is truthful: a step changes it only by a reset that clears it, or where it is empty
and VREG_UNINIT is `fault`, to name a register that had not been written since reset. (That this fault is put on record
instead of stopping the machine is the model's choice, notes/assumptions/6.md.) -/
def Obligations.EveryStepGoesOn : Prop :=
  (∀ s : State, ∃ t, step s = .next t) ∧
  ∀ s t : State, step s = .next t →
    t.vregFault = s.vregFault ∨ (t.vregFault = none ∧ ∃ rest, s.schedule = .host .reset :: rest) ∨
      (s.vregFault = none ∧ s.params.vregUninit = .fault ∧
        ∃ r : VNum, t.vregFault = some r ∧ (s.vregs.get r).written = false)

/-- A command that ends has BUSY = 0 and DONE = 1 (10_state.md R34), leaves every operand CSR, CMD and OVR as they were (R53),
and changes no byte of memory outside its destination range (20_memory.md R89, R91); commands without one change no byte. -/
def Obligations.CommandsTouchOnlyTheirDestination : Prop :=
  ∀ (i : Instr) (s t : State), exec i s = .next t →
    t.csr.busy = false ∧ t.csr.done = true ∧ s.csr.keeps t.csr ∧ t.params = s.params ∧ t.schedule = s.schedule
      ∧ t.rdata = s.rdata
      ∧ ∀ a, inRange (dstRange s i) a = false → t.mem.readByte a = s.mem.readByte a

/-- Only SETA and REENC change A or AINV, only SETA changes AW (10_state.md R38 to R40), only HCHK raises HMCOUNT (R47), only
MODINV changes SOLV_A (R49), only VCOMPRESS changes VCNT (R51), and only vector instructions change vector registers (R55) or put a read of one on record (R56). -/
def Obligations.ResultRegistersHaveOneWriter : Prop :=
  ∀ (i : Instr) (s t : State), exec i s = .next t →
    (i ≠ .seta → i ≠ .reenc → t.csr.a = s.csr.a ∧ t.csr.ainv = s.csr.ainv) ∧
    (i ≠ .seta → t.csr.aw = s.csr.aw) ∧
    (i ≠ .hchk → t.csr.hmcount = s.csr.hmcount) ∧
    (i ≠ .modinv → t.csr.solvA = s.csr.solvA) ∧
    ((∀ vd vs1 vs2 ew sg, i ≠ .vcompress vd vs1 vs2 ew sg) → t.csr.vcnt = s.csr.vcnt) ∧
    (i ∈ [Instr.nop, .seta, .modinv, .enc, .chk, .dec, .decchk, .reenc, .arithAdd, .arithSub, .arithMul, .arithDiv, .henc,
      .hchk] → t.vregs = s.vregs ∧ t.vregFault = s.vregFault)

/-- 60_exceptions.md R332: a command ends with one of its family's error codes, an illegal word with ILLEGAL_COMMAND. -/
def Obligations.CommandsReportTheirFamilysErrors : Prop :=
  (∀ (i : Instr) (s t : State), i.wellFormed = true → s.csr.err = .none → exec i s = .next t →
    t.csr.err ∈ familyErrors i) ∧
  ∀ (s t : State) (e : Illegal), decode s.csr.cmd = .error e → runCommand s = .next t → t.csr.err = .illegalCommand

/-- 10_state.md R37: CFG.BACKEND, CFG.HSTRAT and CFG.UNROLL have no effect: running a command under other hints gives the
same outcome, the hints aside. -/
def Obligations.HintsHaveNoEffect : Prop :=
  ∀ (i : Instr) (s : State) (h : Word), exec i (withHints s h) = mapNext (fun t => withHints t h) (exec i s)

/-- 60_exceptions.md R316: what `raise E(i, it)` does, and that nothing else changes. -/
def Obligations.RaiseReportsAndEndsTheCommand : Prop :=
  ∀ (s : State) (e : ErrCode) (i it : Nat),
    s.raise e i it = { s with
      csr := { s.csr with
        err := e, failIndex := BitVec.ofNat 64 i, failIter := BitVec.ofNat 64 it, busy := false, done := true }
      seq := Seq.idle
      raced := [] }

/-! ### Control and solver -/

/-- 40_solver.md R140: NOP does nothing beyond completion. -/
def Obligations.NopOnlyCompletes : Prop :=
  ∀ s : State, exec .nop s = .next { s with
    csr := { s.csr with busy := false, done := true }, seq := Seq.idle, raced := [] }

/-- 40_solver.md R143: for odd b and 1 ≤ k ≤ 64, Solve returns the unique inverse of b in [0, 2^k). -/
def Obligations.SolveReturnsTheUniqueInverse : Prop :=
  ∀ b k : Nat, b < 2 ^ 64 → b % 2 = 1 → 1 ≤ k → k ≤ 64 →
    ∃ a, solve b k = some a ∧ a < 2 ^ k ∧ b * a % 2 ^ k = 1 ∧ ∀ a', a' < 2 ^ k → b * a' % 2 ^ k = 1 → a' = a

/-- 40_solver.md R144: Solve fails exactly when b is even, and never returns a wrong a. -/
def Obligations.SolveFailsExactlyOnEven : Prop :=
  ∀ b k : Nat, b < 2 ^ 64 → 1 ≤ k → k ≤ 64 →
    (solve b k = none ↔ b % 2 = 0) ∧ ∀ a, solve b k = some a → a < 2 ^ k ∧ b * a % 2 ^ k = 1

/-- SETA on an odd constant below 2^w, w not 64, commits A, the inverse AINV modulo 2^(2w) and AW = {VALID, EW}, and changes
nothing else but completion (40_solver.md R150). -/
def Obligations.SetaCommitsThePair : Prop :=
  ∀ s : State, cfgEW s.csr.cfg ≠ .e64 → s.csr.aIn.toNat < 2 ^ cfgW s → s.csr.aIn.toNat % 2 = 1 →
    ∃ v : Word, v.toNat < 2 ^ (2 * cfgW s) ∧ s.csr.aIn.toNat * v.toNat % 2 ^ (2 * cfgW s) = 1 ∧
      exec .seta s = .next (State.complete { s with
        csr := { s.csr with a := s.csr.aIn, ainv := v, aw := BitVec.ofNat 64 (1 + 2 * (cfgEW s.csr.cfg).code) } })

/-- MODINV with 1 ≤ k ≤ 64 and b odd stores the inverse of b modulo 2^k in SOLV_A and changes nothing else but completion
(40_solver.md R155). -/
def Obligations.ModinvStoresTheInverse : Prop :=
  ∀ s : State, 1 ≤ s.csr.solvK.toNat → s.csr.solvK.toNat ≤ 64 → s.csr.solvB.toNat % 2 = 1 →
    ∃ v : Word, v.toNat < 2 ^ s.csr.solvK.toNat ∧ s.csr.solvB.toNat * v.toNat % 2 ^ s.csr.solvK.toNat = 1 ∧
      exec .modinv s = .next (State.complete { s with csr := { s.csr with solvA := v } })

/-- Where SETA and MODINV refuse, the size or range check before the parity check, and that they then change nothing but the
report (40_solver.md R150, R155, 60_exceptions.md R311). -/
def Obligations.SolverCommandsRefuseInOrder : Prop :=
  (∀ s : State, cfgEW s.csr.cfg = .e64 ∨ 2 ^ cfgW s ≤ s.csr.aIn.toNat → exec .seta s = .next (s.raise .configError 0 0)) ∧
  (∀ s : State, cfgEW s.csr.cfg ≠ .e64 → s.csr.aIn.toNat < 2 ^ cfgW s → s.csr.aIn.toNat % 2 = 0 →
    exec .seta s = .next (s.raise .invariantViolation 0 0)) ∧
  (∀ s : State, s.csr.solvK.toNat = 0 ∨ 64 < s.csr.solvK.toNat → exec .modinv s = .next (s.raise .configError 0 0)) ∧
  (∀ s : State, 1 ≤ s.csr.solvK.toNat → s.csr.solvK.toNat ≤ 64 → s.csr.solvB.toNat % 2 = 0 →
    exec .modinv s = .next (s.raise .invariantViolation 0 0))

/-! ### AN codec -/

/-- 41_an_codec.md R170, 43_hamming.md R230, 42_an_arith.md R216: without a constant committed at the width in CFG, or at
w = 64, every AN stream command ends with CONFIG_ERROR(0, 0); HENC and HCHK do at every width but 16 and 32; ARITH.DIV with
OPERAND[w−1:0] = 0 ends with DIVIDE_BY_ZERO(0, 0) whatever the buffers, COUNT and ITER are; and none of them does anything
else. -/
def Obligations.StartChecksRefuseFirst : Prop :=
  (∀ (i : Instr) (s : State), i ∈ anCommands → ¬ AnReady s → exec i s = .next (s.raise .configError 0 0)) ∧
  (∀ s : State, cfgEW s.csr.cfg ≠ .e16 → cfgEW s.csr.cfg ≠ .e32 →
    exec .henc s = .next (s.raise .configError 0 0) ∧ exec .hchk s = .next (s.raise .configError 0 0)) ∧
  (∀ s : State, AnReady s → operandAt s (cfgW s) = 0 → exec .arithDiv s = .next (s.raise .divideByZero 0 0))

/-- 20_memory.md R92: after the start checks, overlapping buffers end the command with BUFFER_OVERLAP(0, 0) and no memory
access, whatever ITER is; the exact in-place case, ranges without a common byte and empty ranges do not. -/
def Obligations.OverlapIsRefusedBeforeAnyAccess : Prop :=
  ∀ (i : Instr) (s : State) (ss ds : Nat), StreamReady s i ss ds →
    (¬ (s.csr.src = s.csr.dst ∧ ss = ds) →
      (∃ a, inRange (s.csr.src.toNat, s.csr.count.toNat * ss) a = true
        ∧ inRange (s.csr.dst.toNat, s.csr.count.toNat * ds) a = true) →
      exec i s = .next (s.raise .bufferOverlap 0 0)) ∧
    (((s.csr.src = s.csr.dst ∧ ss = ds) ∨
      ∀ a, inRange (s.csr.src.toNat, s.csr.count.toNat * ss) a = false
        ∨ inRange (s.csr.dst.toNat, s.csr.count.toNat * ds) a = false) →
      s.csr.err = .none → ∃ t, exec i s = .next t ∧ t.csr.err ≠ .bufferOverlap)

/-- 20_memory.md R84, 60_exceptions.md R316(b), (c), R318: a refused access, read or write, ends a stream command with
BUS_ERROR at its element and moves no byte of it; the elements before it stay written, and no later one is touched
(the first refusal falls in iteration 0, for admission depends on address and size alone). A refused read ends CHK and
HCHK likewise; where the very first read is refused, nothing at all has changed but the report. (HCHK past its first record:
`HchkBusErrorKeepsTheCount`.) -/
def Obligations.RefusedReadRaisesBusError : Prop :=
  (∀ (i : Instr) (s : State) (ss ds n : Nat), StreamReady s i ss ds → s.mem.wf → s.raced = [] →
    (s.csr.src = s.csr.dst ∧ ss = ds) ∨ BuffersDisjoint s ss ds → 0 < s.csr.iter.toNat → n < s.csr.count.toNat →
    (∀ j < n, s.admits (elemAddr s.csr.src.toNat j ss) ss = true ∧ s.admits (elemAddr s.csr.dst.toNat j ds) ds = true ∧
      elemPasses s i (srcElem s ss j) = true) →
    s.admits (elemAddr s.csr.src.toNat n ss) ss = false ∨
      (s.admits (elemAddr s.csr.src.toNat n ss) ss = true ∧ elemPasses s i (srcElem s ss n) = true ∧
        s.admits (elemAddr s.csr.dst.toNat n ds) ds = false) →
    ∃ t, exec i s = .next t ∧
      WritesElems s (s.raise .busError n 0) t ds n fun j => elemValue s i (srcElem s ss j)) ∧
  (∀ (i : Instr) (s : State) (ss ds : Nat), StreamReady s i ss ds →
    (s.csr.src = s.csr.dst ∧ ss = ds) ∨ BuffersDisjoint s ss ds → 0 < s.csr.count.toNat → 0 < s.csr.iter.toNat →
    s.admits s.csr.src.toNat ss = false → exec i s = .next (s.raise .busError 0 0)) ∧
  (∀ (s : State) (n : Nat), AnReady s → s.raced = [] → n < s.csr.count.toNat → 0 < s.csr.iter.toNat →
    (∀ j < n, elemPasses s .chk (srcElem s (2 * cfgW s / 8) j) = true) →
    (∀ j ≤ n, s.admits (elemAddr s.csr.src.toNat j (2 * cfgW s / 8)) (2 * cfgW s / 8) = decide (j < n)) →
    exec .chk s = .next (s.raise .busError n 0)) ∧
  (∀ s : State, AnReady s → 0 < s.csr.count.toNat → 0 < s.csr.iter.toNat →
    s.admits s.csr.src.toNat (2 * cfgW s / 8) = false → exec .chk s = .next (s.raise .busError 0 0)) ∧
  (∀ (s : State) (w : Nat), HamReady s w → 0 < s.csr.count.toNat → 0 < s.csr.iter.toNat →
    s.admits s.csr.src.toNat (2 * (w / 8)) = false → exec .hchk s = .next (s.raise .busError 0 0))

/-- 41_an_codec.md R183: decode inverts encode for every raw value, signed or unsigned. -/
def Obligations.DecodeInvertsEncode : Prop :=
  ∀ (sg : Sgn) (w : Nat) (r : BitVec w) (a ainv : Nat), a * ainv % 2 ^ (2 * w) = 1 % 2 ^ (2 * w) →
    decodeVal (encodeVal sg r a) ainv = r

/-- 41_an_codec.md R172, R179(a): an encoded value is the widened raw value times A, without overflow of m bits, and it is
valid under both layouts and both signednesses. -/
def Obligations.EncodedValuesAreValid : Prop :=
  ∀ (sg : Sgn) (w : Nat) (r : BitVec w) (a : Nat), 0 < w → a < 2 ^ w →
    num sg (encodeVal sg r a) = num sg r * (a : Int) ∧
    ∀ (layout : Layout) (ainv : Nat), a * ainv % 2 ^ (2 * w) = 1 → validCode layout sg (encodeVal sg r a) a ainv = true

/-- 41_an_codec.md R180: the inverse policy accepts exactly the encodings of raw values, and each of them is accepted by the
divmod policy. (For A = 1 too: R180 is followed there, not the last words of R179(c), notes/assumptions/18.md.) -/
def Obligations.InverseCheckAcceptsExactlyCodewords : Prop :=
  ∀ (sg : Sgn) (w : Nat) (e : BitVec (2 * w)) (a ainv : Nat), 0 < w → a < 2 ^ w → a * ainv % 2 ^ (2 * w) = 1 →
    (validCode .inverse sg e a ainv = true ↔ ∃ r : BitVec w, e = encodeVal sg r a) ∧
    (validCode .inverse sg e a ainv = true → validCode .divmod sg e a ainv = true)

/-- 41_an_codec.md R179(c): for an odd A > 1, flipping exactly one bit of a valid codeword is detected under either layout. -/
def Obligations.SingleBitFlipsAreDetected : Prop :=
  ∀ (layout : Layout) (sg : Sgn) (w : Nat) (e : BitVec (2 * w)) (a ainv j : Nat), 0 < w → 1 < a → a < 2 ^ w → a % 2 = 1 →
    a * ainv % 2 ^ (2 * w) = 1 → j < 2 * w → validCode layout sg e a ainv = true →
    validCode layout sg (e ^^^ BitVec.ofNat (2 * w) (2 ^ j)) a ainv = false

/-- ENC with admitted, disjoint buffers writes EncodeVal of every raw element, whatever ITER ≥ 1 is, and changes nothing
else but completion (41_an_codec.md R175, R176). -/
def Obligations.EncWritesEveryCodeword : Prop :=
  ∀ s : State, AnReady s → ReadsReady s (cfgW s / 8) → WritesReady s (2 * cfgW s / 8) →
    BuffersDisjoint s (cfgW s / 8) (2 * cfgW s / 8) →
    ∃ t, exec .enc s = .next t ∧ WritesElems s s.complete t (2 * cfgW s / 8) (passCount s) fun i =>
      (ext (cfgSgn s.csr.cfg) (2 * cfgW s) (BitVec.ofNat (cfgW s) (srcElem s (cfgW s / 8) i))).toNat * s.csr.a.toNat
        % 2 ^ (2 * cfgW s)

/-- DEC with admitted, disjoint buffers writes DecodeVal of every element, valid or not (41_an_codec.md R182). -/
def Obligations.DecWritesEveryRawValue : Prop :=
  ∀ s : State, AnReady s → ReadsReady s (2 * cfgW s / 8) → WritesReady s (cfgW s / 8) →
    BuffersDisjoint s (2 * cfgW s / 8) (cfgW s / 8) →
    ∃ t, exec .dec s = .next t ∧ WritesElems s s.complete t (cfgW s / 8) (passCount s) fun i =>
      srcElem s (2 * cfgW s / 8) i * s.csr.ainv.toNat % 2 ^ (2 * cfgW s) % 2 ^ cfgW s

/-- CHK of a buffer of valid elements only completes: no register and no byte changes (41_an_codec.md R178). -/
def Obligations.ChkPassesValidBuffers : Prop :=
  ∀ s : State, AnReady s → ReadsReady s (2 * cfgW s / 8) →
    (∀ i < s.csr.count.toNat, validCode (cfgLayout s.csr.cfg) (cfgSgn s.csr.cfg)
      (BitVec.ofNat (2 * cfgW s) (srcElem s (2 * cfgW s / 8) i)) s.csr.a.toNat s.csr.ainv.toNat = true) →
    exec .chk s = .next s.complete

/-- CHK stops at the first invalid element i of iteration 0 with CORRUPTION_DETECTED(i, 0); later elements are not read, so
their admission does not matter (41_an_codec.md R178). -/
def Obligations.ChkStopsAtTheFirstInvalid : Prop :=
  ∀ (s : State) (i : Nat), AnReady s → s.mem.wf → s.raced = [] → i < s.csr.count.toNat → 0 < s.csr.iter.toNat →
    (∀ j ≤ i, s.admits (elemAddr s.csr.src.toNat j (2 * cfgW s / 8)) (2 * cfgW s / 8) = true) →
    (∀ j ≤ i, validCode (cfgLayout s.csr.cfg) (cfgSgn s.csr.cfg)
      (BitVec.ofNat (2 * cfgW s) (srcElem s (2 * cfgW s / 8) j)) s.csr.a.toNat s.csr.ainv.toNat = decide (j < i)) →
    exec .chk s = .next (s.raise .corruptionDetected i 0)

/-- DECCHK of a buffer of valid elements writes DecodeVal of every one (41_an_codec.md R185). -/
def Obligations.DecchkWritesValidBuffers : Prop :=
  ∀ s : State, AnReady s → ReadsReady s (2 * cfgW s / 8) → WritesReady s (cfgW s / 8) →
    BuffersDisjoint s (2 * cfgW s / 8) (cfgW s / 8) →
    (∀ i < s.csr.count.toNat, validCode (cfgLayout s.csr.cfg) (cfgSgn s.csr.cfg)
      (BitVec.ofNat (2 * cfgW s) (srcElem s (2 * cfgW s / 8) i)) s.csr.a.toNat s.csr.ainv.toNat = true) →
    ∃ t, exec .decchk s = .next t ∧ WritesElems s s.complete t (cfgW s / 8) (passCount s) fun i =>
      srcElem s (2 * cfgW s / 8) i * s.csr.ainv.toNat % 2 ^ (2 * cfgW s) % 2 ^ cfgW s

/-- DECCHK at the first invalid element i: elements before it are written, it and the later ones are not, and nothing is
restored (41_an_codec.md R185, R186, 60_exceptions.md R318); whether later accesses, or the write of element i, would be
admitted does not matter. -/
def Obligations.DecchkKeepsThePartialOutput : Prop :=
  ∀ (s : State) (i : Nat), AnReady s → s.mem.wf → s.raced = [] →
    (∀ j ≤ i, s.admits (elemAddr s.csr.src.toNat j (2 * cfgW s / 8)) (2 * cfgW s / 8) = true) →
    (∀ j < i, s.admits (elemAddr s.csr.dst.toNat j (cfgW s / 8)) (cfgW s / 8) = true) →
    BuffersDisjoint s (2 * cfgW s / 8) (cfgW s / 8) → i < s.csr.count.toNat → 0 < s.csr.iter.toNat →
    (∀ j ≤ i, validCode (cfgLayout s.csr.cfg) (cfgSgn s.csr.cfg)
      (BitVec.ofNat (2 * cfgW s) (srcElem s (2 * cfgW s / 8) j)) s.csr.a.toNat s.csr.ainv.toNat = decide (j < i)) →
    ∃ t, exec .decchk s = .next t ∧ WritesElems s (s.raise .corruptionDetected i 0) t (cfgW s / 8) i fun j =>
      srcElem s (2 * cfgW s / 8) j * s.csr.ainv.toNat % 2 ^ (2 * cfgW s) % 2 ^ cfgW s

/-- REENC of a buffer of valid elements, out of place, or in place with ITER ≤ 1, writes EncodeVal(DecodeVal(e)) under A_IN
for every one and commits A_IN and its inverse at the end, AW unchanged (41_an_codec.md R190). -/
def Obligations.ReencRewritesAndCommits : Prop :=
  ∀ s : State, AnReady s → ReadsReady s (2 * cfgW s / 8) → WritesReady s (2 * cfgW s / 8) →
    (BuffersDisjoint s (2 * cfgW s / 8) (2 * cfgW s / 8) ∨ (s.csr.src = s.csr.dst ∧ s.csr.iter.toNat ≤ 1)) →
    s.csr.aIn.toNat < 2 ^ cfgW s → s.csr.aIn.toNat % 2 = 1 →
    (∀ i < s.csr.count.toNat, validCode (cfgLayout s.csr.cfg) (cfgSgn s.csr.cfg)
      (BitVec.ofNat (2 * cfgW s) (srcElem s (2 * cfgW s / 8) i)) s.csr.a.toNat s.csr.ainv.toNat = true) →
    ∃ (t : State) (v : Word), exec .reenc s = .next t ∧
      v.toNat < 2 ^ (2 * cfgW s) ∧ s.csr.aIn.toNat * v.toNat % 2 ^ (2 * cfgW s) = 1 ∧
      WritesElems s (State.complete { s with csr := { s.csr with a := s.csr.aIn, ainv := v } }) t (2 * cfgW s / 8)
        (passCount s) fun i =>
        (encodeVal (cfgSgn s.csr.cfg)
          (decodeVal (BitVec.ofNat (2 * cfgW s) (srcElem s (2 * cfgW s / 8) i)) s.csr.ainv.toNat) s.csr.aIn.toNat).toNat

/-- REENC that fails keeps the old code: whatever the error and wherever it strikes (a check before the loop, an invalid
element or a refused access in any iteration), A, AINV and AW are as before (41_an_codec.md R190, R192). A_IN ≥ 2^w, then
an even A_IN, are refused with nothing done; an invalid element i of iteration 0 ends it with the elements before i in the
new code and nothing else changed, whatever the admission of later accesses (R190, R191). A refused access:
`RefusedReadRaisesBusError`. -/
def Obligations.ReencFailureKeepsTheCode : Prop :=
  (∀ s : State, AnReady s → 2 ^ cfgW s ≤ s.csr.aIn.toNat → exec .reenc s = .next (s.raise .configError 0 0)) ∧
  (∀ s : State, AnReady s → s.csr.aIn.toNat < 2 ^ cfgW s → s.csr.aIn.toNat % 2 = 0 →
    exec .reenc s = .next (s.raise .invariantViolation 0 0)) ∧
  (∀ s t : State, s.csr.err = .none → exec .reenc s = .next t → t.csr.err ≠ .none →
    t.csr.a = s.csr.a ∧ t.csr.ainv = s.csr.ainv ∧ t.csr.aw = s.csr.aw) ∧
  (∀ (s : State) (i : Nat), AnReady s → s.mem.wf → s.raced = [] →
    (∀ j ≤ i, s.admits (elemAddr s.csr.src.toNat j (2 * cfgW s / 8)) (2 * cfgW s / 8) = true) →
    (∀ j < i, s.admits (elemAddr s.csr.dst.toNat j (2 * cfgW s / 8)) (2 * cfgW s / 8) = true) →
    (BuffersDisjoint s (2 * cfgW s / 8) (2 * cfgW s / 8) ∨ s.csr.src = s.csr.dst) →
    s.csr.aIn.toNat < 2 ^ cfgW s → s.csr.aIn.toNat % 2 = 1 → i < s.csr.count.toNat → 0 < s.csr.iter.toNat →
    (∀ j ≤ i, validCode (cfgLayout s.csr.cfg) (cfgSgn s.csr.cfg)
      (BitVec.ofNat (2 * cfgW s) (srcElem s (2 * cfgW s / 8) j)) s.csr.a.toNat s.csr.ainv.toNat = decide (j < i)) →
    ∃ t, exec .reenc s = .next t ∧
      WritesElems s (s.raise .corruptionDetected i 0) t (2 * cfgW s / 8) i fun j =>
        (encodeVal (cfgSgn s.csr.cfg)
          (decodeVal (BitVec.ofNat (2 * cfgW s) (srcElem s (2 * cfgW s / 8) j)) s.csr.ainv.toNat) s.csr.aIn.toNat).toNat)

/-! ### AN arithmetic -/

/-- ARITH.ADD, SUB, MUL and DIV with admitted, disjoint buffers write their element function of every element, whatever
ITER ≥ 1 is, and change nothing else but completion; ADD and SUB scale the operand by A, MUL and DIV do not
(42_an_arith.md R211 to R216). -/
def Obligations.ArithWritesItsFunction : Prop :=
  ∀ (i : Instr) (s : State), i ∈ arithCommands → AnReady s → (i = .arithDiv → operandAt s (cfgW s) ≠ 0) →
    ReadsReady s (2 * cfgW s / 8) → WritesReady s (2 * cfgW s / 8) → BuffersDisjoint s (2 * cfgW s / 8) (2 * cfgW s / 8) →
    ∃ t, exec i s = .next t ∧ WritesElems s s.complete t (2 * cfgW s / 8) (passCount s) fun j =>
      arithSpec i (cfgSgn s.csr.cfg) s.csr.a.toNat (cfgW s) (operandAt s (cfgW s)) (srcElem s (2 * cfgW s / 8) j)

/-- In place (SRC = DST), ARITH with ITER = k applies its function k times to every element (20_memory.md R93,
70_reset_and_hazards.md R353). -/
def Obligations.ArithInPlaceRepeats : Prop :=
  ∀ (i : Instr) (s : State), i ∈ arithCommands → AnReady s → (i = .arithDiv → operandAt s (cfgW s) ≠ 0) →
    ReadsReady s (2 * cfgW s / 8) → s.csr.src = s.csr.dst →
    ∃ t, exec i s = .next t ∧ WritesElems s s.complete t (2 * cfgW s / 8) s.csr.count.toNat fun j =>
      (arithSpec i (cfgSgn s.csr.cfg) s.csr.a.toNat (cfgW s) (operandAt s (cfgW s)))^[s.csr.iter.toNat]
        (srcElem s (2 * cfgW s / 8) j)

/-- 42_an_arith.md R217: decode of add, sub, mul on encoded data is the raw operation modulo 2^w, and the result passes the
inverse check exactly when the exact result is in the raw range. -/
def Obligations.ArithIsAHomomorphism : Prop :=
  ∀ (sg : Sgn) (w : Nat) (x y : BitVec w) (a ainv : Nat), 0 < w → a < 2 ^ w → a * ainv % 2 ^ (2 * w) = 1 →
    (decodeVal (arithAddVal sg a y (encodeVal sg x a)) ainv = x + y ∧
      decodeVal (arithSubVal sg a y (encodeVal sg x a)) ainv = x - y ∧
      decodeVal (arithMulVal sg y (encodeVal sg x a)) ainv = x * y) ∧
    ((validCode .inverse sg (arithAddVal sg a y (encodeVal sg x a)) a ainv = true ↔
        ∃ r : BitVec w, num sg r = num sg x + num sg y) ∧
      (validCode .inverse sg (arithSubVal sg a y (encodeVal sg x a)) a ainv = true ↔
        ∃ r : BitVec w, num sg r = num sg x - num sg y) ∧
      (validCode .inverse sg (arithMulVal sg y (encodeVal sg x a)) a ainv = true ↔
        ∃ r : BitVec w, num sg r = num sg x * num sg y))

/-- 42_an_arith.md R218: exact division of an encoded value whose quotient is a raw value gives the encoded quotient, and
the one exactly-dividing case out of range, signed −2^(w−1) by −1, decodes to −2^(w−1) and fails the inverse check. -/
def Obligations.ExactDivisionEncodesTheQuotient : Prop :=
  (∀ (sg : Sgn) (w : Nat) (x o q : BitVec w) (a : Nat), 0 < w → 0 < a → a < 2 ^ w → o ≠ 0 →
    num sg x = num sg q * num sg o → arithDivVal sg o (encodeVal sg x a) = encodeVal sg q a) ∧
  (∀ (w : Nat) (a ainv : Nat), 1 < w → a < 2 ^ w → a * ainv % 2 ^ (2 * w) = 1 →
    decodeVal (arithDivVal .signed (BitVec.allOnes w) (encodeVal .signed (BitVec.intMin w) a)) ainv = BitVec.intMin w ∧
    validCode .inverse .signed (arithDivVal .signed (BitVec.allOnes w) (encodeVal .signed (BitVec.intMin w) a)) a ainv
      = false)

/-! ### Hamming codec -/

/-- HENC with admitted, disjoint buffers writes the record of every data word, its code in the byte above the data and zero
padding, and changes nothing else but completion (43_hamming.md R232, R237). -/
def Obligations.HencWritesEveryRecord : Prop :=
  ∀ (s : State) (w : Nat), HamReady s w → ReadsReady s (w / 8) → WritesReady s (2 * (w / 8)) →
    BuffersDisjoint s (w / 8) (2 * (w / 8)) →
    ∃ t, exec .henc s = .next t ∧ WritesElems s s.complete t (2 * (w / 8)) (passCount s) fun i =>
      srcElem s (w / 8) i + 2 ^ w * hamCode s.params (BitVec.ofNat w (srcElem s (w / 8) i))

/-- HCHK scans every record of every iteration: HMCOUNT grows by ITER times the number of mismatching records, modulo 2^64;
without one the command only completes, else FAIL_INDEX names the first one, FAIL_ITER is 0 and ERR is CHECKSUM_MISMATCH
(43_hamming.md R240, R241). -/
def Obligations.HchkCountsEveryMismatch : Prop :=
  ∀ (s : State) (w : Nat), HamReady s w → ReadsReady s (2 * (w / 8)) →
    exec .hchk s = .next (
      match (List.range (passCount s)).find? (recordMismatch s w) with
      | none => s.complete
      | some i => State.complete { s with csr := { s.csr with
          hmcount := s.csr.hmcount + BitVec.ofNat 64
            (s.csr.iter.toNat * ((List.range s.csr.count.toNat).filter (recordMismatch s w)).length)
          err := .checksumMismatch, failIndex := BitVec.ofNat 64 i, failIter := 0 } })

/-- A refused read ends HCHK with BUS_ERROR at the refused record, keeping the count so far, even after a mismatch
(43_hamming.md R241, 60_exceptions.md R317). -/
def Obligations.HchkBusErrorKeepsTheCount : Prop :=
  ∀ (s : State) (w i : Nat), HamReady s w → s.raced = [] → i < s.csr.count.toNat → 0 < s.csr.iter.toNat →
    (∀ j ≤ i, s.admits (elemAddr s.csr.src.toNat j (2 * (w / 8))) (2 * (w / 8)) = decide (j < i)) →
    exec .hchk s = .next (State.raise { s with csr := { s.csr with
      hmcount := s.csr.hmcount + BitVec.ofNat 64 ((List.range i).filter (recordMismatch s w)).length } } .busError i 0)

/-- 43_hamming.md R242, for every mask table: the record of every data word passes, flipping one data bit or one bit of the code
byte mismatches, and padding does not matter. -/
def Obligations.HammingDetectsSingleFlips : Prop :=
  ∀ (p : Params) (w : Nat) (d : BitVec w), w = 16 ∨ w = 32 →
    recordCode w (hamRecord p d) = hamCode p (BitVec.ofNat w (hamRecord p d)) ∧
    (∀ j < w, hamCode p (d ^^^ BitVec.ofNat w (2 ^ j)) ≠ hamCode p d) ∧
    (∀ j < 8, recordCode w (hamRecord p d ^^^ 2 ^ (w + j)) ≠ hamCode p (BitVec.ofNat w (hamRecord p d ^^^ 2 ^ (w + j)))) ∧
    (∀ pad, recordCode w (hamRecord p d + pad * 2 ^ (w + 8)) = recordCode w (hamRecord p d) ∧
      BitVec.ofNat w (hamRecord p d + pad * 2 ^ (w + 8)) = BitVec.ofNat w (hamRecord p d))

/-- 43_hamming.md R233: each code bit k + 1 is the parity of the data bits mask k selects, and bit 0 is the parity of the data
and the partial code together. -/
def Obligations.CodeBitsAreMaskParities : Prop :=
  ∀ (p : Params) (w : Nat) (d : BitVec w), w = 16 ∨ w = 32 →
    (∀ (k : Nat) (mk : BitVec w), (hamMasks p w)[k]? = some mk →
      hamCode p d / 2 ^ (k + 1) % 2 = popcount (d &&& mk) % 2) ∧
    hamCode p d < 2 ^ ((hamMasks p w).length + 1) ∧ (hamMasks p w).length = (if w = 16 then 5 else 6) ∧
    (popcount d + popcount (BitVec.ofNat 8 (hamCode p d))) % 2 = 0

/-! ### SIMD vector layer -/

/-- A vector instruction that reads a register no instruction has written since reset goes on, and where VREG_UNINIT is
`fault` and nothing is on record yet the fault of 10_state.md R56 is recorded with the register's number, VS1 before VS2;
one that reads written registers alone records nothing (R56, 44_simd.md R260, 70_reset_and_hazards.md R347). The model's
choices: the fault is recorded and does not stop the machine (notes/assumptions/6.md); which of two is named
(notes/assumptions/10.md). -/
def Obligations.UnwrittenSourcesAreRecorded : Prop :=
  ∀ (s : State) (vd vs1 vs2 : VNum) (ew : EW) (sg : Sgn) (k : Fin 8) (imm : BitVec 16),
    s.vregFault = none → s.params.vregUninit = .fault →
    let twoSources := [Instr.vadd vd vs1 vs2 ew sg, .vsub vd vs1 vs2 ew sg, .vmullo vd vs1 vs2 ew sg, .vdiv vd vs1 vs2 ew sg,
      .vmin vd vs1 vs2 ew sg, .vmax vd vs1 vs2 ew sg, .vcmpLt vd vs1 vs2 ew sg, .vcmpLe vd vs1 vs2 ew sg,
      .vcmpEq vd vs1 vs2 ew sg, .vcmpNe vd vs1 vs2 ew sg, .vcmpGe vd vs1 vs2 ew sg, .vcmpGt vd vs1 vs2 ew sg,
      .vcompress vd vs1 vs2 ew sg]
    let oneSource := [Instr.vredsum vd vs1 ew sg, .vredmin vd vs1 ew sg, .vredmax vd vs1 ew sg, .vpopcnt vd vs1 ew sg,
      .vst vs1 imm]
    ((s.vregs.get vs1).written = false →
      (∀ i ∈ twoSources ++ oneSource, ∃ t, exec i s = .next t ∧ t.vregFault = some vs1) ∧
      (hparLegal ew k = true → ∃ t, exec (.vhpar vd vs1 ew sg k) s = .next t ∧ t.vregFault = some vs1)) ∧
    ((s.vregs.get vs1).written = true →
      (∀ i ∈ oneSource, ∃ t, exec i s = .next t ∧ t.vregFault = none) ∧
      (hparLegal ew k = true → ∃ t, exec (.vhpar vd vs1 ew sg k) s = .next t ∧ t.vregFault = none) ∧
      ∀ i ∈ twoSources, ∃ t, exec i s = .next t ∧
        t.vregFault = if (s.vregs.get vs2).written then none else some vs2)

/-- VLD of an admitted access loads byte b of the VLEN/8 bytes at VBASE + IMM16 into bits [8b+7:8b] of v[VR], at any
alignment, and changes nothing else but completion (44_simd.md R262, 10_state.md R54); a refused one, beyond 2^64 for example,
ends with BUS_ERROR(0, 0) and v[VR] unchanged (20_memory.md R84). -/
def Obligations.VldLoadsTheBytes : Prop :=
  ∀ (s : State) (vr : VNum) (imm : BitVec 16), s.raced = [] →
    (s.admits (s.csr.vbase.toNat + imm.toNat) (s.params.vlen.bits / 8) = true →
      ∃ t, exec (.vld vr imm) s = .next t ∧ WritesOnlyV s t [] vr ∧
        ∀ b < s.params.vlen.bits / 8,
          lane (vval t vr) 8 b = s.mem.readByte (s.csr.vbase.toNat + imm.toNat + b)) ∧
    (s.admits (s.csr.vbase.toNat + imm.toNat) (s.params.vlen.bits / 8) = false →
      exec (.vld vr imm) s = .next (s.raise .busError 0 0))

/-- VST of an admitted access stores bits [8b+7:8b] of v[VR] at VBASE + IMM16 + b for the VLEN/8 bytes and no byte outside
them, and changes nothing else but completion (44_simd.md R263); a refused one ends with BUS_ERROR(0, 0) and no byte written
(20_memory.md R84). The model's choice (notes/assumptions/6.md: a never-written source is
read as the value it holds, and the read is recorded). -/
def Obligations.VstStoresTheBytes : Prop :=
  ∀ (s : State) (vr : VNum) (imm : BitVec 16), s.raced = [] → s.mem.wf →
    (s.admits (s.csr.vbase.toNat + imm.toNat) (s.params.vlen.bits / 8) = true →
      ∃ t, exec (.vst vr imm) s = .next t ∧
        t = { s.complete with mem := t.mem, vregFault := faultAfter s [vr] } ∧
        (∀ b < s.params.vlen.bits / 8,
          t.mem.readByte (s.csr.vbase.toNat + imm.toNat + b) = lane (vval s vr) 8 b) ∧
        ∀ a, inRange (s.csr.vbase.toNat + imm.toNat, s.params.vlen.bits / 8) a = false →
          t.mem.readByte a = s.mem.readByte a) ∧
    (s.admits (s.csr.vbase.toNat + imm.toNat) (s.params.vlen.bits / 8) = false →
      exec (.vst vr imm) s = .next (State.raise { s with vregFault := faultAfter s [vr] } .busError 0 0))

/-- VADD, VSUB, VMULLO, VMIN and VMAX compute every lane from the old sources, also where VD is a source; S matters to VMIN and
VMAX alone; nothing else changes but completion (44_simd.md R260, R265 to R267, R269, R270). The model's choice
(notes/assumptions/6.md: a never-written source is read as the value it holds, and the read is recorded). -/
def Obligations.VectorArithmeticLanes : Prop :=
  ∀ (s : State) (vd vs1 vs2 : VNum) (ew : EW) (sg : Sgn) (i : Instr) (f : BitVec ew.bits → BitVec ew.bits → BitVec ew.bits),
    (i, f) ∈
        [(Instr.vadd vd vs1 vs2 ew sg, fun a b => BitVec.ofNat ew.bits (a.toNat + b.toNat)),
          (.vsub vd vs1 vs2 ew sg, fun a b => BitVec.ofInt ew.bits (a.toNat - b.toNat)),
          (.vmullo vd vs1 vs2 ew sg, fun a b => BitVec.ofNat ew.bits (a.toNat * b.toNat)),
          (.vmin vd vs1 vs2 ew sg, fun a b => if num sg a ≤ num sg b then a else b),
          (.vmax vd vs1 vs2 ew sg, fun a b => if num sg a ≥ num sg b then a else b)] →
      ∃ t, exec i s = .next t ∧ WritesOnlyV s t [vs1, vs2] vd ∧
        ∀ j < laneCount s.params ew,
          lane (vval t vd) ew.bits j = f (lane (vval s vs1) ew.bits j) (lane (vval s vs2) ew.bits j)

/-- 44_simd.md R271 to R277: every VCMP lane is all ones where the comparison of num(a_j) with num(b_j) holds and 0 where it
does not; only v[VD] is written and no error is raised. The model's choice
(notes/assumptions/6.md: a never-written source is read as the value it holds, and the read is recorded). -/
def Obligations.VectorCompareLanes : Prop :=
  ∀ (s : State) (vd vs1 vs2 : VNum) (ew : EW) (sg : Sgn) (i : Instr) (rel : Int → Int → Bool),
    (i, rel) ∈
        [(Instr.vcmpLt vd vs1 vs2 ew sg, fun a b => decide (a < b)), (.vcmpLe vd vs1 vs2 ew sg, fun a b => decide (a ≤ b)),
          (.vcmpEq vd vs1 vs2 ew sg, fun a b => decide (a = b)), (.vcmpNe vd vs1 vs2 ew sg, fun a b => decide (a ≠ b)),
          (.vcmpGe vd vs1 vs2 ew sg, fun a b => decide (a ≥ b)), (.vcmpGt vd vs1 vs2 ew sg, fun a b => decide (a > b))] →
      ∃ t, exec i s = .next t ∧ WritesOnlyV s t [vs1, vs2] vd ∧
        ∀ j < laneCount s.params ew,
          (lane (vval t vd) ew.bits j).toNat =
            if rel (num sg (lane (vval s vs1) ew.bits j)) (num sg (lane (vval s vs2) ew.bits j)) then 2 ^ ew.bits - 1
            else 0

/-- 44_simd.md R268: without a zero divisor lane VDIV writes the quotients, truncated toward zero when signed; with one it
ends with DIVIDE_BY_ZERO at the lowest such lane and writes nothing. The model's choice
(notes/assumptions/6.md: a never-written source is read as the value it holds, and the read is recorded). -/
def Obligations.VdivLanesOrDivideByZero : Prop :=
  ∀ (s : State) (vd vs1 vs2 : VNum) (ew : EW) (sg : Sgn),
    ((∀ j < laneCount s.params ew, lane (vval s vs2) ew.bits j ≠ 0) →
      ∃ t, exec (.vdiv vd vs1 vs2 ew sg) s = .next t ∧ WritesOnlyV s t [vs1, vs2] vd ∧
        ∀ j < laneCount s.params ew,
          lane (vval t vd) ew.bits j =
            BitVec.ofInt ew.bits
              ((num sg (lane (vval s vs1) ew.bits j)).tdiv (num sg (lane (vval s vs2) ew.bits j)))) ∧
    (∀ j < laneCount s.params ew, lane (vval s vs2) ew.bits j = 0 →
      (∀ k < j, lane (vval s vs2) ew.bits k ≠ 0) →
      exec (.vdiv vd vs1 vs2 ew sg) s
        = .next (State.raise { s with vregFault := faultAfter s [vs1, vs2] } .divideByZero j 0))

/-- VREDSUM puts the sum of the lanes modulo 2^ew in v[VD] with every other bit 0, VREDMIN and VREDMAX a lane of the source
with the least and greatest num, and VPOPCNT the number of one bits of every lane in that lane (44_simd.md R279 to R282). The
model's choice (notes/assumptions/6.md: a never-written source is read as the value it holds,
and the read is recorded). -/
def Obligations.VectorReductionsAndPopcount : Prop :=
  ∀ (s : State) (vd vs1 : VNum) (ew : EW) (sg : Sgn),
    (∃ t, exec (.vredsum vd vs1 ew sg) s = .next t ∧ WritesOnlyV s t [vs1] vd ∧
      (vval t vd).toNat =
        ((List.range (laneCount s.params ew)).map fun j => (lane (vval s vs1) ew.bits j).toNat).sum % 2 ^ ew.bits) ∧
    (∃ t, exec (.vredmin vd vs1 ew sg) s = .next t ∧ WritesOnlyV s t [vs1] vd ∧
      ∃ j < laneCount s.params ew, (vval t vd).toNat = (lane (vval s vs1) ew.bits j).toNat ∧
        ∀ k < laneCount s.params ew, num sg (lane (vval s vs1) ew.bits j) ≤ num sg (lane (vval s vs1) ew.bits k)) ∧
    (∃ t, exec (.vredmax vd vs1 ew sg) s = .next t ∧ WritesOnlyV s t [vs1] vd ∧
      ∃ j < laneCount s.params ew, (vval t vd).toNat = (lane (vval s vs1) ew.bits j).toNat ∧
        ∀ k < laneCount s.params ew, num sg (lane (vval s vs1) ew.bits k) ≤ num sg (lane (vval s vs1) ew.bits j)) ∧
    (∃ t, exec (.vpopcnt vd vs1 ew sg) s = .next t ∧ WritesOnlyV s t [vs1] vd ∧
      ∀ j < laneCount s.params ew,
        (lane (vval t vd) ew.bits j).toNat = popcount (lane (vval s vs1) ew.bits j))

/-- 44_simd.md R283: lane j of VS1 with a nonzero predicate lane goes to the lane numbered by the selected lanes before it;
the lanes from their number on are 0, and VCNT is their number. The model's choice
(notes/assumptions/6.md: a never-written source is read as the value it holds, and the read is recorded). -/
def Obligations.VcompressPacksSelectedLanes : Prop :=
  ∀ (s : State) (vd vs1 vs2 : VNum) (ew : EW) (sg : Sgn),
    let chosen := fun j : Nat => decide (lane (vval s vs2) ew.bits j ≠ 0)
    let before := fun j : Nat => ((List.range j).filter chosen).length
    ∃ t, exec (.vcompress vd vs1 vs2 ew sg) s = .next t ∧
      t = { s.complete with
        csr := { s.complete.csr with vcnt := BitVec.ofNat 64 (before (laneCount s.params ew)) }, vregs := t.vregs
        vregFault := faultAfter s [vs1, vs2] } ∧
      (∀ r, r ≠ vd → t.vregs.get r = s.vregs.get r) ∧ (t.vregs.get vd).written = true ∧
      truncVLen s.params (vval t vd) = vval t vd ∧
      (∀ j < laneCount s.params ew, chosen j = true →
        lane (vval t vd) ew.bits (before j) = lane (vval s vs1) ew.bits j) ∧
      (∀ k, before (laneCount s.params ew) ≤ k → k < laneCount s.params ew → lane (vval t vd) ew.bits k = 0)

/-- 44_simd.md R285, R286: VHPAR puts one parity bit per lane in the low bits of v[VD] and 0 above; lane j's bit is code bit
K + 1 of the lane for a mask index K, and code bit 0 for K = 7, so the bits for K = 0 .. nm−1 and 7 together are the
scalar code of the lane. The model's choice (notes/assumptions/6.md: a never-written source is read as
the value it holds, and the read is recorded). -/
def Obligations.VhparBitsAreTheScalarCode : Prop :=
  ∀ (s : State) (vd vs1 : VNum) (ew : EW) (sg : Sgn) (k : Fin 8), hparLegal ew k = true →
    ∃ t, exec (.vhpar vd vs1 ew sg k) s = .next t ∧ WritesOnlyV s t [vs1] vd ∧
      (vval t vd).toNat < 2 ^ laneCount s.params ew ∧
      ∀ j < laneCount s.params ew,
        (vval t vd).toNat / 2 ^ j % 2 =
          hamCode s.params (lane (vval s vs1) ew.bits j) / 2 ^ (if k.val = 7 then 0 else k.val + 1) % 2
end

