-- ==== Sys2Proof/Laws/Config.lean ====
section
/-! SUPPORT. The window list of `Params.memMap` loses no generality: every admission predicate on the accesses the block
can make is one (00_scope.md R6, mem_ok). -/

namespace Sys2Proof.Laws

/-- For every predicate mem_ok there is a window list that admits exactly the accesses below 2^64 of 1 to 64 bytes the
predicate admits. -/
theorem every_admission_predicate_is_a_window_list (ok : Nat → Nat → Bool) (p : Params) :
    ∃ ws : List Window, ∀ a n, a + n ≤ 2 ^ 64 → 1 ≤ n → n ≤ 64 →
      Params.memOk { p with memMap := ws } a n = ok a n := by
  let pairs : List (Nat × Nat) := (List.range (2 ^ 64)).flatMap fun a => (List.range 65).map fun n => (a, n)
  refine ⟨(pairs.filter fun q => ok q.1 q.2).map fun q => ⟨q.1, q.1 + q.2, [q.2]⟩, fun a n h h1 hn => ?_⟩
  rw [Bool.eq_iff_iff]
  simp only [Params.memOk, List.any_eq_true, List.mem_map, List.mem_filter]
  constructor
  · rintro ⟨w, ⟨⟨b, k⟩, ⟨-, hok⟩, rfl⟩, hw⟩
    simp only [Bool.and_eq_true, decide_eq_true_eq, List.contains_iff_mem, List.mem_singleton] at hw
    obtain ⟨⟨hb, hk⟩, rfl⟩ := hw
    have : a = b := by omega
    exact this ▸ hok
  · intro hok
    refine ⟨⟨a, a + n, [n]⟩, ⟨(a, n), ⟨?_, hok⟩, rfl⟩, by simp⟩
    exact List.mem_flatMap.2 ⟨a, List.mem_range.2 (by omega), List.mem_map.2 ⟨n, List.mem_range.2 (by omega), rfl⟩⟩

end Sys2Proof.Laws
end

