-- ==== Sys2Proof/Laws/State.lean ====
section
/-! SUPPORT. One lemma per field per update of State and Csrs, each true by rfl, so that no later proof unfolds a record
update. -/

namespace Sys2Proof.Machine

/-! `Csrs.accept` -/
@[simp] theorem Csrs_accept_cmd (c : Csrs) (w : CmdWord) : (c.accept w).cmd = w := rfl
@[simp] theorem Csrs_accept_busy (c : Csrs) (w : CmdWord) : (c.accept w).busy = true := rfl
@[simp] theorem Csrs_accept_done (c : Csrs) (w : CmdWord) : (c.accept w).done = false := rfl
@[simp] theorem Csrs_accept_ovr (c : Csrs) (w : CmdWord) : (c.accept w).ovr = c.ovr := rfl
@[simp] theorem Csrs_accept_err (c : Csrs) (w : CmdWord) : (c.accept w).err = .none := rfl
@[simp] theorem Csrs_accept_cfg (c : Csrs) (w : CmdWord) : (c.accept w).cfg = c.cfg := rfl
@[simp] theorem Csrs_accept_a (c : Csrs) (w : CmdWord) : (c.accept w).a = c.a := rfl
@[simp] theorem Csrs_accept_ainv (c : Csrs) (w : CmdWord) : (c.accept w).ainv = c.ainv := rfl
@[simp] theorem Csrs_accept_aw (c : Csrs) (w : CmdWord) : (c.accept w).aw = c.aw := rfl
@[simp] theorem Csrs_accept_aIn (c : Csrs) (w : CmdWord) : (c.accept w).aIn = c.aIn := rfl
@[simp] theorem Csrs_accept_src (c : Csrs) (w : CmdWord) : (c.accept w).src = c.src := rfl
@[simp] theorem Csrs_accept_dst (c : Csrs) (w : CmdWord) : (c.accept w).dst = c.dst := rfl
@[simp] theorem Csrs_accept_count (c : Csrs) (w : CmdWord) : (c.accept w).count = c.count := rfl
@[simp] theorem Csrs_accept_iter (c : Csrs) (w : CmdWord) : (c.accept w).iter = c.iter := rfl
@[simp] theorem Csrs_accept_operand (c : Csrs) (w : CmdWord) : (c.accept w).operand = c.operand := rfl
@[simp] theorem Csrs_accept_failIndex (c : Csrs) (w : CmdWord) : (c.accept w).failIndex = 0 := rfl
@[simp] theorem Csrs_accept_failIter (c : Csrs) (w : CmdWord) : (c.accept w).failIter = 0 := rfl
@[simp] theorem Csrs_accept_hmcount (c : Csrs) (w : CmdWord) : (c.accept w).hmcount = 0 := rfl
@[simp] theorem Csrs_accept_solvB (c : Csrs) (w : CmdWord) : (c.accept w).solvB = c.solvB := rfl
@[simp] theorem Csrs_accept_solvK (c : Csrs) (w : CmdWord) : (c.accept w).solvK = c.solvK := rfl
@[simp] theorem Csrs_accept_solvA (c : Csrs) (w : CmdWord) : (c.accept w).solvA = c.solvA := rfl
@[simp] theorem Csrs_accept_vbase (c : Csrs) (w : CmdWord) : (c.accept w).vbase = c.vbase := rfl
@[simp] theorem Csrs_accept_vcnt (c : Csrs) (w : CmdWord) : (c.accept w).vcnt = c.vcnt := rfl

/-! `Csrs.complete` -/
@[simp] theorem Csrs_complete_cmd (c : Csrs) : (c.complete).cmd = c.cmd := rfl
@[simp] theorem Csrs_complete_busy (c : Csrs) : (c.complete).busy = false := rfl
@[simp] theorem Csrs_complete_done (c : Csrs) : (c.complete).done = true := rfl
@[simp] theorem Csrs_complete_ovr (c : Csrs) : (c.complete).ovr = c.ovr := rfl
@[simp] theorem Csrs_complete_err (c : Csrs) : (c.complete).err = c.err := rfl
@[simp] theorem Csrs_complete_cfg (c : Csrs) : (c.complete).cfg = c.cfg := rfl
@[simp] theorem Csrs_complete_a (c : Csrs) : (c.complete).a = c.a := rfl
@[simp] theorem Csrs_complete_ainv (c : Csrs) : (c.complete).ainv = c.ainv := rfl
@[simp] theorem Csrs_complete_aw (c : Csrs) : (c.complete).aw = c.aw := rfl
@[simp] theorem Csrs_complete_aIn (c : Csrs) : (c.complete).aIn = c.aIn := rfl
@[simp] theorem Csrs_complete_src (c : Csrs) : (c.complete).src = c.src := rfl
@[simp] theorem Csrs_complete_dst (c : Csrs) : (c.complete).dst = c.dst := rfl
@[simp] theorem Csrs_complete_count (c : Csrs) : (c.complete).count = c.count := rfl
@[simp] theorem Csrs_complete_iter (c : Csrs) : (c.complete).iter = c.iter := rfl
@[simp] theorem Csrs_complete_operand (c : Csrs) : (c.complete).operand = c.operand := rfl
@[simp] theorem Csrs_complete_failIndex (c : Csrs) : (c.complete).failIndex = c.failIndex := rfl
@[simp] theorem Csrs_complete_failIter (c : Csrs) : (c.complete).failIter = c.failIter := rfl
@[simp] theorem Csrs_complete_hmcount (c : Csrs) : (c.complete).hmcount = c.hmcount := rfl
@[simp] theorem Csrs_complete_solvB (c : Csrs) : (c.complete).solvB = c.solvB := rfl
@[simp] theorem Csrs_complete_solvK (c : Csrs) : (c.complete).solvK = c.solvK := rfl
@[simp] theorem Csrs_complete_solvA (c : Csrs) : (c.complete).solvA = c.solvA := rfl
@[simp] theorem Csrs_complete_vbase (c : Csrs) : (c.complete).vbase = c.vbase := rfl
@[simp] theorem Csrs_complete_vcnt (c : Csrs) : (c.complete).vcnt = c.vcnt := rfl

/-! `Csrs.report` -/
@[simp] theorem Csrs_report_cmd (c : Csrs) (e : ErrCode) (i it : Nat) : (c.report e i it).cmd = c.cmd := rfl
@[simp] theorem Csrs_report_busy (c : Csrs) (e : ErrCode) (i it : Nat) : (c.report e i it).busy = c.busy := rfl
@[simp] theorem Csrs_report_done (c : Csrs) (e : ErrCode) (i it : Nat) : (c.report e i it).done = c.done := rfl
@[simp] theorem Csrs_report_ovr (c : Csrs) (e : ErrCode) (i it : Nat) : (c.report e i it).ovr = c.ovr := rfl
@[simp] theorem Csrs_report_err (c : Csrs) (e : ErrCode) (i it : Nat) : (c.report e i it).err = e := rfl
@[simp] theorem Csrs_report_cfg (c : Csrs) (e : ErrCode) (i it : Nat) : (c.report e i it).cfg = c.cfg := rfl
@[simp] theorem Csrs_report_a (c : Csrs) (e : ErrCode) (i it : Nat) : (c.report e i it).a = c.a := rfl
@[simp] theorem Csrs_report_ainv (c : Csrs) (e : ErrCode) (i it : Nat) : (c.report e i it).ainv = c.ainv := rfl
@[simp] theorem Csrs_report_aw (c : Csrs) (e : ErrCode) (i it : Nat) : (c.report e i it).aw = c.aw := rfl
@[simp] theorem Csrs_report_aIn (c : Csrs) (e : ErrCode) (i it : Nat) : (c.report e i it).aIn = c.aIn := rfl
@[simp] theorem Csrs_report_src (c : Csrs) (e : ErrCode) (i it : Nat) : (c.report e i it).src = c.src := rfl
@[simp] theorem Csrs_report_dst (c : Csrs) (e : ErrCode) (i it : Nat) : (c.report e i it).dst = c.dst := rfl
@[simp] theorem Csrs_report_count (c : Csrs) (e : ErrCode) (i it : Nat) : (c.report e i it).count = c.count := rfl
@[simp] theorem Csrs_report_iter (c : Csrs) (e : ErrCode) (i it : Nat) : (c.report e i it).iter = c.iter := rfl
@[simp] theorem Csrs_report_operand (c : Csrs) (e : ErrCode) (i it : Nat) : (c.report e i it).operand = c.operand := rfl
@[simp] theorem Csrs_report_failIndex (c : Csrs) (e : ErrCode) (i it : Nat) : (c.report e i it).failIndex = BitVec.ofNat 64 i := rfl
@[simp] theorem Csrs_report_failIter (c : Csrs) (e : ErrCode) (i it : Nat) : (c.report e i it).failIter = BitVec.ofNat 64 it := rfl
@[simp] theorem Csrs_report_hmcount (c : Csrs) (e : ErrCode) (i it : Nat) : (c.report e i it).hmcount = c.hmcount := rfl
@[simp] theorem Csrs_report_solvB (c : Csrs) (e : ErrCode) (i it : Nat) : (c.report e i it).solvB = c.solvB := rfl
@[simp] theorem Csrs_report_solvK (c : Csrs) (e : ErrCode) (i it : Nat) : (c.report e i it).solvK = c.solvK := rfl
@[simp] theorem Csrs_report_solvA (c : Csrs) (e : ErrCode) (i it : Nat) : (c.report e i it).solvA = c.solvA := rfl
@[simp] theorem Csrs_report_vbase (c : Csrs) (e : ErrCode) (i it : Nat) : (c.report e i it).vbase = c.vbase := rfl
@[simp] theorem Csrs_report_vcnt (c : Csrs) (e : ErrCode) (i it : Nat) : (c.report e i it).vcnt = c.vcnt := rfl

/-! `Csrs.writeStatus` -/
@[simp] theorem Csrs_writeStatus_cmd (c : Csrs) (v : Word) : (c.writeStatus v).cmd = c.cmd := rfl
@[simp] theorem Csrs_writeStatus_busy (c : Csrs) (v : Word) : (c.writeStatus v).busy = c.busy := rfl
@[simp] theorem Csrs_writeStatus_done (c : Csrs) (v : Word) : (c.writeStatus v).done = (c.done && !v.getLsbD 1) := rfl
@[simp] theorem Csrs_writeStatus_ovr (c : Csrs) (v : Word) : (c.writeStatus v).ovr = (c.ovr && !v.getLsbD 2) := rfl
@[simp] theorem Csrs_writeStatus_err (c : Csrs) (v : Word) : (c.writeStatus v).err = c.err := rfl
@[simp] theorem Csrs_writeStatus_cfg (c : Csrs) (v : Word) : (c.writeStatus v).cfg = c.cfg := rfl
@[simp] theorem Csrs_writeStatus_a (c : Csrs) (v : Word) : (c.writeStatus v).a = c.a := rfl
@[simp] theorem Csrs_writeStatus_ainv (c : Csrs) (v : Word) : (c.writeStatus v).ainv = c.ainv := rfl
@[simp] theorem Csrs_writeStatus_aw (c : Csrs) (v : Word) : (c.writeStatus v).aw = c.aw := rfl
@[simp] theorem Csrs_writeStatus_aIn (c : Csrs) (v : Word) : (c.writeStatus v).aIn = c.aIn := rfl
@[simp] theorem Csrs_writeStatus_src (c : Csrs) (v : Word) : (c.writeStatus v).src = c.src := rfl
@[simp] theorem Csrs_writeStatus_dst (c : Csrs) (v : Word) : (c.writeStatus v).dst = c.dst := rfl
@[simp] theorem Csrs_writeStatus_count (c : Csrs) (v : Word) : (c.writeStatus v).count = c.count := rfl
@[simp] theorem Csrs_writeStatus_iter (c : Csrs) (v : Word) : (c.writeStatus v).iter = c.iter := rfl
@[simp] theorem Csrs_writeStatus_operand (c : Csrs) (v : Word) : (c.writeStatus v).operand = c.operand := rfl
@[simp] theorem Csrs_writeStatus_failIndex (c : Csrs) (v : Word) : (c.writeStatus v).failIndex = c.failIndex := rfl
@[simp] theorem Csrs_writeStatus_failIter (c : Csrs) (v : Word) : (c.writeStatus v).failIter = c.failIter := rfl
@[simp] theorem Csrs_writeStatus_hmcount (c : Csrs) (v : Word) : (c.writeStatus v).hmcount = c.hmcount := rfl
@[simp] theorem Csrs_writeStatus_solvB (c : Csrs) (v : Word) : (c.writeStatus v).solvB = c.solvB := rfl
@[simp] theorem Csrs_writeStatus_solvK (c : Csrs) (v : Word) : (c.writeStatus v).solvK = c.solvK := rfl
@[simp] theorem Csrs_writeStatus_solvA (c : Csrs) (v : Word) : (c.writeStatus v).solvA = c.solvA := rfl
@[simp] theorem Csrs_writeStatus_vbase (c : Csrs) (v : Word) : (c.writeStatus v).vbase = c.vbase := rfl
@[simp] theorem Csrs_writeStatus_vcnt (c : Csrs) (v : Word) : (c.writeStatus v).vcnt = c.vcnt := rfl

/-! `State.accept` -/
@[simp] theorem State_accept_params (s : State) (w : CmdWord) : (s.accept w).params = s.params := rfl
@[simp] theorem State_accept_csr (s : State) (w : CmdWord) : (s.accept w).csr = s.csr.accept w := rfl
@[simp] theorem State_accept_vregs (s : State) (w : CmdWord) : (s.accept w).vregs = s.vregs := rfl
@[simp] theorem State_accept_mem (s : State) (w : CmdWord) : (s.accept w).mem = s.mem := rfl
@[simp] theorem State_accept_seq (s : State) (w : CmdWord) : (s.accept w).seq = Seq.idle := rfl
@[simp] theorem State_accept_schedule (s : State) (w : CmdWord) : (s.accept w).schedule = s.schedule := rfl
@[simp] theorem State_accept_raced (s : State) (w : CmdWord) : (s.accept w).raced = [] := rfl
@[simp] theorem State_accept_freeIdx (s : State) (w : CmdWord) : (s.accept w).freeIdx = s.freeIdx := rfl
@[simp] theorem State_accept_rdata (s : State) (w : CmdWord) : (s.accept w).rdata = s.rdata := rfl
@[simp] theorem State_accept_vregFault (s : State) (w : CmdWord) : (s.accept w).vregFault = s.vregFault := rfl

/-! `State.issue` -/
@[simp] theorem State_issue_params (s : State) (w : CmdWord) : (s.issue w).params = s.params := rfl
@[simp] theorem State_issue_csr (s : State) (w : CmdWord) : (s.issue w).csr = s.csr.accept w := rfl
@[simp] theorem State_issue_vregs (s : State) (w : CmdWord) : (s.issue w).vregs = s.vregs := rfl
@[simp] theorem State_issue_mem (s : State) (w : CmdWord) : (s.issue w).mem = s.mem := rfl
@[simp] theorem State_issue_seq (s : State) (w : CmdWord) : (s.issue w).seq = Seq.idle := rfl
@[simp] theorem State_issue_schedule (s : State) (w : CmdWord) : (s.issue w).schedule = .core :: s.schedule := rfl
@[simp] theorem State_issue_raced (s : State) (w : CmdWord) : (s.issue w).raced = [] := rfl
@[simp] theorem State_issue_freeIdx (s : State) (w : CmdWord) : (s.issue w).freeIdx = s.freeIdx := rfl
@[simp] theorem State_issue_rdata (s : State) (w : CmdWord) : (s.issue w).rdata = s.rdata := rfl
@[simp] theorem State_issue_vregFault (s : State) (w : CmdWord) : (s.issue w).vregFault = s.vregFault := rfl

/-! `State.complete` -/
@[simp] theorem State_complete_params (s : State) : (s.complete).params = s.params := rfl
@[simp] theorem State_complete_csr (s : State) : (s.complete).csr = s.csr.complete := rfl
@[simp] theorem State_complete_vregs (s : State) : (s.complete).vregs = s.vregs := rfl
@[simp] theorem State_complete_mem (s : State) : (s.complete).mem = s.mem := rfl
@[simp] theorem State_complete_seq (s : State) : (s.complete).seq = Seq.idle := rfl
@[simp] theorem State_complete_schedule (s : State) : (s.complete).schedule = s.schedule := rfl
@[simp] theorem State_complete_raced (s : State) : (s.complete).raced = [] := rfl
@[simp] theorem State_complete_freeIdx (s : State) : (s.complete).freeIdx = s.freeIdx := rfl
@[simp] theorem State_complete_rdata (s : State) : (s.complete).rdata = s.rdata := rfl
@[simp] theorem State_complete_vregFault (s : State) : (s.complete).vregFault = s.vregFault := rfl

/-! `State.raise` -/
@[simp] theorem State_raise_params (s : State) (e : ErrCode) (i it : Nat) : (s.raise e i it).params = s.params := rfl
@[simp] theorem State_raise_csr (s : State) (e : ErrCode) (i it : Nat) : (s.raise e i it).csr = (s.csr.report e i it).complete := rfl
@[simp] theorem State_raise_vregs (s : State) (e : ErrCode) (i it : Nat) : (s.raise e i it).vregs = s.vregs := rfl
@[simp] theorem State_raise_mem (s : State) (e : ErrCode) (i it : Nat) : (s.raise e i it).mem = s.mem := rfl
@[simp] theorem State_raise_seq (s : State) (e : ErrCode) (i it : Nat) : (s.raise e i it).seq = Seq.idle := rfl
@[simp] theorem State_raise_schedule (s : State) (e : ErrCode) (i it : Nat) : (s.raise e i it).schedule = s.schedule := rfl
@[simp] theorem State_raise_raced (s : State) (e : ErrCode) (i it : Nat) : (s.raise e i it).raced = [] := rfl
@[simp] theorem State_raise_freeIdx (s : State) (e : ErrCode) (i it : Nat) : (s.raise e i it).freeIdx = s.freeIdx := rfl
@[simp] theorem State_raise_rdata (s : State) (e : ErrCode) (i it : Nat) : (s.raise e i it).rdata = s.rdata := rfl
@[simp] theorem State_raise_vregFault (s : State) (e : ErrCode) (i it : Nat) : (s.raise e i it).vregFault = s.vregFault := rfl

/-! `State.raiseHere` -/
@[simp] theorem State_raiseHere_params (s : State) (e : ErrCode) : (s.raiseHere e).params = s.params := rfl
@[simp] theorem State_raiseHere_csr (s : State) (e : ErrCode) : (s.raiseHere e).csr = (s.csr.report e s.seq.i s.seq.it).complete := rfl
@[simp] theorem State_raiseHere_vregs (s : State) (e : ErrCode) : (s.raiseHere e).vregs = s.vregs := rfl
@[simp] theorem State_raiseHere_mem (s : State) (e : ErrCode) : (s.raiseHere e).mem = s.mem := rfl
@[simp] theorem State_raiseHere_seq (s : State) (e : ErrCode) : (s.raiseHere e).seq = Seq.idle := rfl
@[simp] theorem State_raiseHere_schedule (s : State) (e : ErrCode) : (s.raiseHere e).schedule = s.schedule := rfl
@[simp] theorem State_raiseHere_raced (s : State) (e : ErrCode) : (s.raiseHere e).raced = [] := rfl
@[simp] theorem State_raiseHere_freeIdx (s : State) (e : ErrCode) : (s.raiseHere e).freeIdx = s.freeIdx := rfl
@[simp] theorem State_raiseHere_rdata (s : State) (e : ErrCode) : (s.raiseHere e).rdata = s.rdata := rfl
@[simp] theorem State_raiseHere_vregFault (s : State) (e : ErrCode) : (s.raiseHere e).vregFault = s.vregFault := rfl

/-! `State.memRead_state` -/
@[simp] theorem State_memRead_state_params (s : State) (a n : Nat) : ((s.memRead a n).2).params = s.params := rfl
@[simp] theorem State_memRead_state_csr (s : State) (a n : Nat) : ((s.memRead a n).2).csr = s.csr := rfl
@[simp] theorem State_memRead_state_vregs (s : State) (a n : Nat) : ((s.memRead a n).2).vregs = s.vregs := rfl
@[simp] theorem State_memRead_state_mem (s : State) (a n : Nat) : ((s.memRead a n).2).mem = s.mem := rfl
@[simp] theorem State_memRead_state_seq (s : State) (a n : Nat) : ((s.memRead a n).2).seq = s.seq := rfl
@[simp] theorem State_memRead_state_schedule (s : State) (a n : Nat) : ((s.memRead a n).2).schedule = s.schedule := rfl
@[simp] theorem State_memRead_state_raced (s : State) (a n : Nat) : ((s.memRead a n).2).raced = s.raced := rfl
@[simp] theorem State_memRead_state_freeIdx (s : State) (a n : Nat) : ((s.memRead a n).2).freeIdx = s.freeIdx + (s.racedIn a n).length := rfl
@[simp] theorem State_memRead_state_rdata (s : State) (a n : Nat) : ((s.memRead a n).2).rdata = s.rdata := rfl
@[simp] theorem State_memRead_state_vregFault (s : State) (a n : Nat) : ((s.memRead a n).2).vregFault = s.vregFault := rfl

/-! `State.memWrite` -/
@[simp] theorem State_memWrite_params (s : State) (a n v : Nat) : (s.memWrite a n v).params = s.params := rfl
@[simp] theorem State_memWrite_csr (s : State) (a n v : Nat) : (s.memWrite a n v).csr = s.csr := rfl
@[simp] theorem State_memWrite_vregs (s : State) (a n v : Nat) : (s.memWrite a n v).vregs = s.vregs := rfl
@[simp] theorem State_memWrite_mem (s : State) (a n v : Nat) : (s.memWrite a n v).mem = (s.mem.writeLE a n v).scramble (s.racedIn a n) s.freeIdx := rfl
@[simp] theorem State_memWrite_seq (s : State) (a n v : Nat) : (s.memWrite a n v).seq = s.seq := rfl
@[simp] theorem State_memWrite_schedule (s : State) (a n v : Nat) : (s.memWrite a n v).schedule = s.schedule := rfl
@[simp] theorem State_memWrite_raced (s : State) (a n v : Nat) : (s.memWrite a n v).raced = s.raced := rfl
@[simp] theorem State_memWrite_freeIdx (s : State) (a n v : Nat) : (s.memWrite a n v).freeIdx = s.freeIdx + (s.racedIn a n).length := rfl
@[simp] theorem State_memWrite_rdata (s : State) (a n v : Nat) : (s.memWrite a n v).rdata = s.rdata := rfl
@[simp] theorem State_memWrite_vregFault (s : State) (a n v : Nat) : (s.memWrite a n v).vregFault = s.vregFault := rfl

/-! `State.writeV` -/
@[simp] theorem State_writeV_params (s : State) (r : VNum) (x : VWord) : (s.writeV r x).params = s.params := rfl
@[simp] theorem State_writeV_csr (s : State) (r : VNum) (x : VWord) : (s.writeV r x).csr = s.csr := rfl
@[simp] theorem State_writeV_vregs (s : State) (r : VNum) (x : VWord) : (s.writeV r x).vregs = s.vregs.set r.val ⟨truncVLen s.params x, true⟩ r.isLt := rfl
@[simp] theorem State_writeV_mem (s : State) (r : VNum) (x : VWord) : (s.writeV r x).mem = s.mem := rfl
@[simp] theorem State_writeV_seq (s : State) (r : VNum) (x : VWord) : (s.writeV r x).seq = s.seq := rfl
@[simp] theorem State_writeV_schedule (s : State) (r : VNum) (x : VWord) : (s.writeV r x).schedule = s.schedule := rfl
@[simp] theorem State_writeV_raced (s : State) (r : VNum) (x : VWord) : (s.writeV r x).raced = s.raced := rfl
@[simp] theorem State_writeV_freeIdx (s : State) (r : VNum) (x : VWord) : (s.writeV r x).freeIdx = s.freeIdx := rfl
@[simp] theorem State_writeV_rdata (s : State) (r : VNum) (x : VWord) : (s.writeV r x).rdata = s.rdata := rfl
@[simp] theorem State_writeV_vregFault (s : State) (r : VNum) (x : VWord) : (s.writeV r x).vregFault = s.vregFault := rfl

/-! `State.noteRead` -/
@[simp] theorem State_noteRead_params (s : State) (r : VNum) : (s.noteRead r).params = s.params := rfl
@[simp] theorem State_noteRead_csr (s : State) (r : VNum) : (s.noteRead r).csr = s.csr := rfl
@[simp] theorem State_noteRead_vregs (s : State) (r : VNum) : (s.noteRead r).vregs = s.vregs := rfl
@[simp] theorem State_noteRead_mem (s : State) (r : VNum) : (s.noteRead r).mem = s.mem := rfl
@[simp] theorem State_noteRead_seq (s : State) (r : VNum) : (s.noteRead r).seq = s.seq := rfl
@[simp] theorem State_noteRead_schedule (s : State) (r : VNum) : (s.noteRead r).schedule = s.schedule := rfl
@[simp] theorem State_noteRead_raced (s : State) (r : VNum) : (s.noteRead r).raced = s.raced := rfl
@[simp] theorem State_noteRead_freeIdx (s : State) (r : VNum) : (s.noteRead r).freeIdx = s.freeIdx := rfl
@[simp] theorem State_noteRead_rdata (s : State) (r : VNum) : (s.noteRead r).rdata = s.rdata := rfl

/-! `State.nextElem` -/
@[simp] theorem State_nextElem_params (s : State) : (s.nextElem).params = s.params := rfl
@[simp] theorem State_nextElem_csr (s : State) : (s.nextElem).csr = s.csr := rfl
@[simp] theorem State_nextElem_vregs (s : State) : (s.nextElem).vregs = s.vregs := rfl
@[simp] theorem State_nextElem_mem (s : State) : (s.nextElem).mem = s.mem := rfl
@[simp] theorem State_nextElem_seq (s : State) : (s.nextElem).seq = { s.seq with i := s.seq.i + 1 } := rfl
@[simp] theorem State_nextElem_schedule (s : State) : (s.nextElem).schedule = s.schedule := rfl
@[simp] theorem State_nextElem_raced (s : State) : (s.nextElem).raced = s.raced := rfl
@[simp] theorem State_nextElem_freeIdx (s : State) : (s.nextElem).freeIdx = s.freeIdx := rfl
@[simp] theorem State_nextElem_rdata (s : State) : (s.nextElem).rdata = s.rdata := rfl
@[simp] theorem State_nextElem_vregFault (s : State) : (s.nextElem).vregFault = s.vregFault := rfl

/-! `State.nextIter` -/
@[simp] theorem State_nextIter_params (s : State) : (s.nextIter).params = s.params := rfl
@[simp] theorem State_nextIter_csr (s : State) : (s.nextIter).csr = s.csr := rfl
@[simp] theorem State_nextIter_vregs (s : State) : (s.nextIter).vregs = s.vregs := rfl
@[simp] theorem State_nextIter_mem (s : State) : (s.nextIter).mem = s.mem := rfl
@[simp] theorem State_nextIter_seq (s : State) : (s.nextIter).seq = { s.seq with it := s.seq.it + 1, i := 0 } := rfl
@[simp] theorem State_nextIter_schedule (s : State) : (s.nextIter).schedule = s.schedule := rfl
@[simp] theorem State_nextIter_raced (s : State) : (s.nextIter).raced = s.raced := rfl
@[simp] theorem State_nextIter_freeIdx (s : State) : (s.nextIter).freeIdx = s.freeIdx := rfl
@[simp] theorem State_nextIter_rdata (s : State) : (s.nextIter).rdata = s.rdata := rfl
@[simp] theorem State_nextIter_vregFault (s : State) : (s.nextIter).vregFault = s.vregFault := rfl

/-! `State.noteMismatch` -/
@[simp] theorem State_noteMismatch_params (s : State) : (s.noteMismatch).params = s.params := rfl
@[simp] theorem State_noteMismatch_vregs (s : State) : (s.noteMismatch).vregs = s.vregs := rfl
@[simp] theorem State_noteMismatch_mem (s : State) : (s.noteMismatch).mem = s.mem := rfl
@[simp] theorem State_noteMismatch_seq (s : State) : (s.noteMismatch).seq = { s.seq with found := true } := rfl
@[simp] theorem State_noteMismatch_schedule (s : State) : (s.noteMismatch).schedule = s.schedule := rfl
@[simp] theorem State_noteMismatch_raced (s : State) : (s.noteMismatch).raced = s.raced := rfl
@[simp] theorem State_noteMismatch_freeIdx (s : State) : (s.noteMismatch).freeIdx = s.freeIdx := rfl
@[simp] theorem State_noteMismatch_rdata (s : State) : (s.noteMismatch).rdata = s.rdata := rfl
@[simp] theorem State_noteMismatch_vregFault (s : State) : (s.noteMismatch).vregFault = s.vregFault := rfl

/-! `State.commitPair` -/
@[simp] theorem State_commitPair_params (s : State) (ainv : Nat) : (s.commitPair ainv).params = s.params := rfl
@[simp] theorem State_commitPair_csr (s : State) (ainv : Nat) : (s.commitPair ainv).csr = { s.csr with a := s.csr.aIn, ainv := BitVec.ofNat 64 ainv } := rfl
@[simp] theorem State_commitPair_vregs (s : State) (ainv : Nat) : (s.commitPair ainv).vregs = s.vregs := rfl
@[simp] theorem State_commitPair_mem (s : State) (ainv : Nat) : (s.commitPair ainv).mem = s.mem := rfl
@[simp] theorem State_commitPair_seq (s : State) (ainv : Nat) : (s.commitPair ainv).seq = s.seq := rfl
@[simp] theorem State_commitPair_schedule (s : State) (ainv : Nat) : (s.commitPair ainv).schedule = s.schedule := rfl
@[simp] theorem State_commitPair_raced (s : State) (ainv : Nat) : (s.commitPair ainv).raced = s.raced := rfl
@[simp] theorem State_commitPair_freeIdx (s : State) (ainv : Nat) : (s.commitPair ainv).freeIdx = s.freeIdx := rfl
@[simp] theorem State_commitPair_rdata (s : State) (ainv : Nat) : (s.commitPair ainv).rdata = s.rdata := rfl
@[simp] theorem State_commitPair_vregFault (s : State) (ainv : Nat) : (s.commitPair ainv).vregFault = s.vregFault := rfl

/-! `State.resetInput` -/
@[simp] theorem State_resetInput_params (s : State) : (s.resetInput).params = s.params := rfl
@[simp] theorem State_resetInput_csr (s : State) : (s.resetInput).csr = Csrs.reset := rfl
@[simp] theorem State_resetInput_vregs (s : State) : (s.resetInput).vregs = Vector.replicate 8 VReg.reset := rfl
@[simp] theorem State_resetInput_mem (s : State) : (s.resetInput).mem = s.mem.scramble s.resetDraws s.freeIdx := rfl
@[simp] theorem State_resetInput_seq (s : State) : (s.resetInput).seq = Seq.idle := rfl
@[simp] theorem State_resetInput_schedule (s : State) : (s.resetInput).schedule = s.schedule := rfl
@[simp] theorem State_resetInput_raced (s : State) : (s.resetInput).raced = [] := rfl
@[simp] theorem State_resetInput_freeIdx (s : State) : (s.resetInput).freeIdx = s.freeIdx + s.resetDraws.length := rfl
@[simp] theorem State_resetInput_rdata (s : State) : (s.resetInput).rdata = s.rdata := rfl
@[simp] theorem State_resetInput_vregFault (s : State) : (s.resetInput).vregFault = none := rfl

/-! `State.resetWith` -/
@[simp] theorem State_resetWith_params (p : Params) : (State.resetWith p).params = p := rfl
@[simp] theorem State_resetWith_csr (p : Params) : (State.resetWith p).csr = Csrs.reset := rfl
@[simp] theorem State_resetWith_vregs (p : Params) : (State.resetWith p).vregs = Vector.replicate 8 VReg.reset := rfl
@[simp] theorem State_resetWith_mem (p : Params) : (State.resetWith p).mem = [] := rfl
@[simp] theorem State_resetWith_seq (p : Params) : (State.resetWith p).seq = Seq.idle := rfl
@[simp] theorem State_resetWith_schedule (p : Params) : (State.resetWith p).schedule = [] := rfl
@[simp] theorem State_resetWith_raced (p : Params) : (State.resetWith p).raced = [] := rfl
@[simp] theorem State_resetWith_freeIdx (p : Params) : (State.resetWith p).freeIdx = 0 := rfl
@[simp] theorem State_resetWith_rdata (p : Params) : (State.resetWith p).rdata = 0 := rfl
@[simp] theorem State_resetWith_vregFault (p : Params) : (State.resetWith p).vregFault = none := rfl

/-! Reading the vector register file after a write. -/

@[simp] theorem State_writeV_get_same (s : State) (r : VNum) (x : VWord) :
    (s.writeV r x).vregs.get r = ⟨truncVLen s.params x, true⟩ := by
  simp [State.writeV, Vector.get_eq_getElem]

theorem State_writeV_get_ne (s : State) (r q : VNum) (x : VWord) (h : q ≠ r) :
    (s.writeV r x).vregs.get q = s.vregs.get q := by
  have : r.val ≠ q.val := fun e => h (Fin.ext e.symm)
  simp [State.writeV, Vector.get_eq_getElem, this]

@[simp] theorem State_complete_complete (s : State) : s.complete.complete = s.complete := rfl

/-- What the sequencer does with a word is what `exec` does with the instruction it decodes to. -/
theorem runCommand_of_decode {s : State} {i : Instr} (h : decode s.csr.cmd = .ok i) : runCommand s = exec i s := by
  simp [runCommand, h]

end Sys2Proof.Machine
end

