-- ==== Sys2Proof/Laws/Lanes.lean ====
section
/-! SUPPORT. The laws of lanes: what a packed register's lanes are, that it fits VLEN bits, and the lane counts of the
three VLENs. -/

namespace Sys2Proof.Machine

/-- Bit i of a packed register is bit i mod ew of lane i / ew, 0 above the last lane. -/
theorem packLanes_getLsbD {ew : Nat} (hew : 0 < ew) (xs : List (BitVec ew)) {i : Nat} (hi : i < 512) :
    (packLanes xs).getLsbD i = (xs.getD (i / ew) 0#ew).getLsbD (i % ew) := by
  induction xs generalizing i with
  | nil => simp [packLanes]
  | cons x rest ih =>
    rw [packLanes, BitVec.getLsbD_or, BitVec.getLsbD_setWidth, BitVec.getLsbD_shiftLeft]
    by_cases h : i < ew
    · simp [hi, h, Nat.div_eq_of_lt h, Nat.mod_eq_of_lt h]
    · have hx : x.getLsbD i = false := BitVec.getLsbD_of_ge x i (by omega)
      have hd : i / ew = (i - ew) / ew + 1 := by
        conv_lhs => rw [show i = (i - ew) + ew from by omega, Nat.add_div_right _ hew]
      have hm : i % ew = (i - ew) % ew := by
        conv_lhs => rw [show i = (i - ew) + ew from by omega, Nat.add_mod_right]
      rw [ih (by omega), hd, hm]
      simp [hi, h, hx]

/-- Lane j of a packed register is the j-th lane packed, 0 if there is none. -/
theorem lane_packLanes {ew j : Nat} (hew : 0 < ew) (xs : List (BitVec ew)) (h : (j + 1) * ew ≤ 512) :
    lane (packLanes xs) ew j = xs.getD j 0#ew := by
  apply BitVec.eq_of_getLsbD_eq
  intro i hi
  have hb : j * ew + i < 512 := by rw [Nat.add_mul] at h; omega
  rw [lane, BitVec.getLsbD_extractLsb', packLanes_getLsbD hew xs hb]
  have h1 : (j * ew + i) / ew = j := by
    rw [Nat.mul_comm, Nat.mul_add_div hew, Nat.div_eq_of_lt hi, Nat.add_zero]
  have h2 : (j * ew + i) % ew = i := by
    rw [Nat.mul_comm, Nat.mul_add_mod, Nat.mod_eq_of_lt hi]
  simp [h1, h2, hi]

theorem truncVLen_getLsbD (p : Params) (x : VWord) (i : Nat) :
    (truncVLen p x).getLsbD i = (decide (i < 512) && (decide (i < p.vlen.bits) && x.getLsbD i)) := by
  rw [truncVLen, BitVec.getLsbD_setWidth, BitVec.getLsbD_setWidth]

@[simp] theorem truncVLen_truncVLen (p : Params) (x : VWord) : truncVLen p (truncVLen p x) = truncVLen p x := by
  apply BitVec.eq_of_getLsbD_eq
  intro i hi
  simp only [truncVLen_getLsbD]
  cases decide (i < p.vlen.bits) <;> simp [hi]

/-- Lanes that fit VLEN bits lose nothing when the register is written. -/
theorem truncVLen_packLanes (p : Params) {ew : Nat} (hew : 0 < ew) (xs : List (BitVec ew))
    (h : xs.length * ew ≤ p.vlen.bits) : truncVLen p (packLanes xs) = packLanes xs := by
  apply BitVec.eq_of_getLsbD_eq
  intro i hi
  rw [truncVLen_getLsbD]
  by_cases hv : i < p.vlen.bits
  · simp [hi, hv]
  · have : xs.length ≤ i / ew := (Nat.le_div_iff_mul_le hew).2 (by omega)
    rw [packLanes_getLsbD hew xs hi, List.getD_eq_default _ _ this]
    simp [hv]

theorem EW_bits_pos (ew : EW) : 0 < ew.bits := by cases ew <;> decide

/-- L(ew) lanes of width ew make up VLEN bits exactly (44_simd.md R264). -/
theorem laneCount_mul_bits (p : Params) (ew : EW) : laneCount p ew * ew.bits = p.vlen.bits := by
  rcases hv : p.vlen <;> cases ew <;> simp [laneCount, hv, VLen.bits, EW.bits]

theorem vlen_bits_le (p : Params) : p.vlen.bits ≤ 512 := by rcases hv : p.vlen <;> simp [VLen.bits]

/-- A lane below L(ew) lies in the 512 bits a register holds. -/
theorem lane_fits (p : Params) (ew : EW) {j : Nat} (h : j < laneCount p ew) : (j + 1) * ew.bits ≤ 512 := by
  have h1 := laneCount_mul_bits p ew
  have h2 := vlen_bits_le p
  have h3 : (j + 1) * ew.bits ≤ laneCount p ew * ew.bits := Nat.mul_le_mul_right _ h
  omega

@[simp] theorem lanes_length (x : VWord) (ew n : Nat) : (lanes x ew n).length = n := by simp [lanes]

@[simp] theorem State_lanes_length (s : State) (ew : EW) (x : VWord) : (s.lanes ew x).length = laneCount s.params ew := by
  simp [State.lanes]

theorem State_lanes_getElem (s : State) (ew : EW) (x : VWord) {j : Nat} (h : j < (s.lanes ew x).length) :
    (s.lanes ew x)[j] = lane x ew.bits j := by
  simp [State.lanes, lanes]

/-- Lane j of the register a lane-wise function writes. -/
theorem lane_lanewise (s : State) (f : (n : Nat) → BitVec n → BitVec n → BitVec n) (ew : EW) (x y : VWord) {j : Nat}
    (h : j < laneCount s.params ew) :
    lane (truncVLen s.params (packLanes (List.zipWith (f ew.bits) (s.lanes ew x) (s.lanes ew y)))) ew.bits j
      = f ew.bits (lane x ew.bits j) (lane y ew.bits j) := by
  rw [truncVLen_packLanes _ (EW_bits_pos ew) _ (by simp [laneCount_mul_bits]),
    lane_packLanes (EW_bits_pos ew) _ (lane_fits _ _ h)]
  simp [List.getD_eq_getElem?_getD, State.lanes, lanes, h]

theorem selectLanes_length_le {n : Nat} (xs bs : List (BitVec n)) : (selectLanes xs bs).length ≤ xs.length := by
  induction xs generalizing bs with
  | nil => simp [selectLanes]
  | cons x rest ih =>
    cases bs with
    | nil => simp [selectLanes]
    | cons b bs =>
      rw [selectLanes]
      split
      · exact Nat.le_succ_of_le (ih bs)
      · simpa using ih bs

end Sys2Proof.Machine
end

