-- ==== Sys2Proof/Laws/Memory.lean ====
section
/-! SUPPORT. The laws of the data memory: reading after writing, what a write leaves alone, and that every memory
operation keeps the canonical form `Memory.wf`. -/

namespace Sys2Proof.Machine

open Sys2Proof

/-! ### One byte -/

theorem Memory_readByte_of_lt {m : Memory} {a : Nat} (h : ∀ c ∈ m, a < c.1) :
    m.readByte a = Config.unlistedByte := by
  induction m with
  | nil => rfl
  | cons c rest ih =>
    have hc := h c (by simp)
    have : c.1 ≠ a := by omega
    simp only [Memory.readByte, this, if_false]
    exact ih fun d hd => h d (by simp [hd])

theorem Memory_readByte_writeByte_same {m : Memory} (hm : m.Pairwise fun c d => c.1 < d.1) (a : Nat) (v : Byte) :
    (m.writeByte a v).readByte a = v := by
  induction m with
  | nil =>
    by_cases hv : v = Config.unlistedByte <;> simp [Memory.writeByte, Memory.readByte, hv]
  | cons c rest ih =>
    rw [List.pairwise_cons] at hm
    unfold Memory.writeByte
    split
    · split
      · rename_i hlt hv
        rw [hv]
        exact Memory_readByte_of_lt fun d hd => by
          rcases List.mem_cons.1 hd with rfl | hd
          · exact hlt
          · exact Nat.lt_trans hlt (hm.1 d hd)
      · simp [Memory.readByte]
    · split
      · rename_i heq
        split
        · rename_i hv
          rw [hv]
          exact Memory_readByte_of_lt fun d hd => heq ▸ hm.1 d hd
        · simp [Memory.readByte]
      · rename_i h1 h2
        have : c.1 ≠ a := fun e => h2 e.symm
        simp [Memory.readByte, this, ih hm.2]

theorem Memory_readByte_writeByte_ne (m : Memory) {a b : Nat} (v : Byte) (h : b ≠ a) :
    (m.writeByte a v).readByte b = m.readByte b := by
  induction m with
  | nil =>
    by_cases hv : v = Config.unlistedByte <;> simp [Memory.writeByte, Memory.readByte, hv, h.symm]
  | cons c rest ih =>
    unfold Memory.writeByte
    split
    · split
      · rfl
      · simp [Memory.readByte, h.symm]
    · split
      · rename_i heq
        have : c.1 ≠ b := fun e => h (e.symm.trans heq.symm)
        split <;> simp [Memory.readByte, this, h.symm]
      · simp [Memory.readByte, ih]

theorem Memory_mem_writeByte {m : Memory} {a : Nat} {v : Byte} {c : Host.Cell} (h : c ∈ m.writeByte a v) :
    c ∈ m ∨ (c = (a, v) ∧ v ≠ Config.unlistedByte) := by
  induction m with
  | nil =>
    by_cases hv : v = Config.unlistedByte <;> simp_all [Memory.writeByte]
  | cons d rest ih =>
    unfold Memory.writeByte at h
    split at h
    · split at h
      · exact .inl h
      · rcases List.mem_cons.1 h with rfl | h
        · exact .inr ⟨rfl, ‹_›⟩
        · exact .inl h
    · split at h
      · split at h
        · exact .inl (List.mem_cons_of_mem _ h)
        · rcases List.mem_cons.1 h with rfl | h
          · exact .inr ⟨rfl, ‹_›⟩
          · exact .inl (List.mem_cons_of_mem _ h)
      · rcases List.mem_cons.1 h with rfl | h
        · exact .inl (by simp)
        · rcases ih h with h | h
          · exact .inl (List.mem_cons_of_mem _ h)
          · exact .inr h

theorem Memory_writeByte_pairwise {m : Memory} (hm : m.Pairwise fun c d => c.1 < d.1) (a : Nat) (v : Byte) :
    (m.writeByte a v).Pairwise fun c d => c.1 < d.1 := by
  induction m with
  | nil => by_cases hv : v = Config.unlistedByte <;> simp [Memory.writeByte, hv]
  | cons c rest ih =>
    have hc := List.pairwise_cons.1 hm
    unfold Memory.writeByte
    split
    · rename_i hlt
      split
      · exact hm
      · refine List.pairwise_cons.2 ⟨fun d hd => ?_, hm⟩
        rcases List.mem_cons.1 hd with rfl | hd
        · exact hlt
        · exact Nat.lt_trans hlt (hc.1 d hd)
    · split
      · rename_i heq
        split
        · exact hc.2
        · exact List.pairwise_cons.2 ⟨fun d hd => heq ▸ hc.1 d hd, hc.2⟩
      · refine List.pairwise_cons.2 ⟨fun d hd => ?_, ih hc.2⟩
        rcases Memory_mem_writeByte hd with hd | ⟨rfl, -⟩
        · exact hc.1 d hd
        · show c.1 < a
          omega

theorem Memory_wf_writeByte {m : Memory} (hm : m.wf) {a : Nat} (ha : a < 2 ^ 64) (v : Byte) : (m.writeByte a v).wf := by
  refine ⟨Memory_writeByte_pairwise hm.1 a v, fun c hc => ?_⟩
  rcases Memory_mem_writeByte hc with h | ⟨rfl, hv⟩
  · exact hm.2 c h
  · exact ⟨ha, hv⟩

/-! ### Little-endian accesses -/

theorem Memory_wf_writeLE {m : Memory} (hm : m.wf) {a n : Nat} (v : Nat) (h : a + n ≤ 2 ^ 64) : (m.writeLE a n v).wf := by
  induction n generalizing m a v with
  | zero => exact hm
  | succ n ih => exact ih (Memory_wf_writeByte hm (by omega) _) _ (by omega)

theorem Memory_writeLE_pairwise {m : Memory} (hm : m.Pairwise fun c d => c.1 < d.1) (a n v : Nat) :
    (m.writeLE a n v).Pairwise fun c d => c.1 < d.1 := by
  induction n generalizing m a v with
  | zero => exact hm
  | succ n ih => exact ih (Memory_writeByte_pairwise hm _ _) _ _

theorem Memory_readByte_writeLE_outside (m : Memory) {a n b : Nat} (v : Nat) (h : b < a ∨ a + n ≤ b) :
    (m.writeLE a n v).readByte b = m.readByte b := by
  induction n generalizing m a v with
  | zero => rfl
  | succ n ih =>
    rw [Memory.writeLE, ih _ _ (by omega)]
    exact Memory_readByte_writeByte_ne m _ (by omega)

theorem Memory_readByte_writeLE_inside {m : Memory} (hm : m.Pairwise fun c d => c.1 < d.1) {a n t : Nat} (v : Nat)
    (h : t < n) : (m.writeLE a n v).readByte (a + t) = BitVec.ofNat 8 (v / 2 ^ (8 * t)) := by
  induction n generalizing m a v t with
  | zero => omega
  | succ n ih =>
    rw [Memory.writeLE]
    cases t with
    | zero =>
      rw [Nat.add_zero, Memory_readByte_writeLE_outside _ _ (by omega)]
      simpa using Memory_readByte_writeByte_same hm a (BitVec.ofNat 8 v)
    | succ t =>
      rw [show a + (t + 1) = a + 1 + t from by omega,
        ih (Memory_writeByte_pairwise hm _ _) _ (by omega), Nat.div_div_eq_div_mul, ← Nat.pow_add]
      congr 3
      ring

theorem Memory_readLE_congr {m m' : Memory} {a n : Nat} (h : ∀ t < n, m.readByte (a + t) = m'.readByte (a + t)) :
    m.readLE a n = m'.readLE a n := by
  induction n generalizing a with
  | zero => rfl
  | succ n ih =>
    have h0 := h 0 (by omega)
    rw [Nat.add_zero] at h0
    rw [Memory.readLE, Memory.readLE, h0,
      ih fun t ht => by simpa [Nat.add_assoc, Nat.add_comm 1] using h (t + 1) (by omega)]

theorem Memory_readLE_lt (m : Memory) (a n : Nat) : m.readLE a n < 2 ^ (8 * n) := by
  induction n generalizing a with
  | zero => simp [Memory.readLE]
  | succ n ih =>
    have h1 := (m.readByte a).isLt
    have h2 := ih (a + 1)
    rw [Memory.readLE, show 8 * (n + 1) = 8 + 8 * n from by ring, Nat.pow_add]
    have : 2 ^ 8 * m.readLE (a + 1) n ≤ 2 ^ 8 * (2 ^ (8 * n) - 1) := Nat.mul_le_mul_left _ (by omega)
    have hp : 0 < 2 ^ (8 * n) := Nat.two_pow_pos _
    rw [Nat.mul_sub] at this
    omega

/-- A value read where it was just written is the value cut to the access width (20_memory.md R85). -/
theorem Memory_readLE_writeLE_same {m : Memory} (hm : m.Pairwise fun c d => c.1 < d.1) (a n v : Nat) :
    (m.writeLE a n v).readLE a n = v % 2 ^ (8 * n) := by
  induction n generalizing m a v with
  | zero => simp [Memory.readLE, Nat.mod_one]
  | succ n ih =>
    rw [Memory.readLE, Memory.writeLE, ih (Memory_writeByte_pairwise hm _ _),
      Memory_readByte_writeLE_outside _ _ (by omega), Memory_readByte_writeByte_same hm,
      show 8 * (n + 1) = 8 + 8 * n from by ring, Nat.pow_add, Nat.mod_mul, BitVec.toNat_ofNat]

/-- A write leaves every disjoint value alone. -/
theorem Memory_readLE_writeLE_disjoint (m : Memory) {a n b k : Nat} (v : Nat) (h : b + k ≤ a ∨ a + n ≤ b) :
    (m.writeLE a n v).readLE b k = m.readLE b k :=
  Memory_readLE_congr fun t ht => Memory_readByte_writeLE_outside m v (by omega)

/-! ### Free bytes -/

@[simp] theorem Memory_scramble_nil (m : Memory) (k : Nat) : m.scramble [] k = m := rfl

theorem Memory_wf_scramble {m : Memory} (hm : m.wf) {as : List Nat} (k : Nat) (h : ∀ a ∈ as, a < 2 ^ 64) :
    (m.scramble as k).wf := by
  induction as generalizing m k with
  | nil => exact hm
  | cons a rest ih =>
    exact ih (Memory_wf_writeByte hm (h a (by simp)) _) _ fun b hb => h b (by simp [hb])

theorem Memory_scramble_pairwise {m : Memory} (hm : m.Pairwise fun c d => c.1 < d.1) (as : List Nat) (k : Nat) :
    (m.scramble as k).Pairwise fun c d => c.1 < d.1 := by
  induction as generalizing m k with
  | nil => exact hm
  | cons a rest ih => exact ih (Memory_writeByte_pairwise hm _ _) _

theorem Memory_readByte_scramble_of_not_mem (m : Memory) {as : List Nat} (k : Nat) {b : Nat} (h : b ∉ as) :
    (m.scramble as k).readByte b = m.readByte b := by
  induction as generalizing m k with
  | nil => rfl
  | cons a rest ih =>
    rw [Memory.scramble, ih _ _ (by simp_all)]
    exact Memory_readByte_writeByte_ne m _ (by simp_all)

/-- A drawn byte reads as some free value, numbered at or after the first draw. -/
theorem Memory_readByte_scramble_of_mem {m : Memory} (hm : m.Pairwise fun c d => c.1 < d.1) {as : List Nat} (k : Nat)
    {b : Nat} (h : b ∈ as) :
    ∃ j, k ≤ j ∧ j < k + as.length ∧ (m.scramble as k).readByte b = Config.freeByte j := by
  induction as generalizing m k with
  | nil => simp at h
  | cons a rest ih =>
    by_cases hb : b ∈ rest
    · obtain ⟨j, h1, h2, h3⟩ := ih (Memory_writeByte_pairwise hm a (Config.freeByte k)) (k + 1) hb
      exact ⟨j, by omega, by simp; omega, h3⟩
    · have : b = a := by simpa [hb] using h
      subst this
      refine ⟨k, le_refl _, by simp, ?_⟩
      rw [Memory.scramble, Memory_readByte_scramble_of_not_mem _ _ hb, Memory_readByte_writeByte_same hm]

theorem Memory_wf_writeBytes {m : Memory} (hm : m.wf) {as : List Nat} (v : Nat) (h : ∀ a ∈ as, a < 2 ^ 64) :
    (m.writeBytes as v).wf := by
  induction as generalizing m v with
  | nil => exact hm
  | cons a rest ih =>
    exact ih (Memory_wf_writeByte hm (h a (by simp)) _) _ fun b hb => h b (by simp [hb])

theorem bytesAt_lt {a n x : Nat} (h : x ∈ bytesAt a n) : x < 2 ^ 64 := by
  simpa using (List.mem_filter.1 h).2

/-! ### The block's accesses where no byte is raced -/

@[simp] theorem State_racedIn_of_no_race {s : State} (h : s.raced = []) (a n : Nat) : s.racedIn a n = [] := by
  simp [State.racedIn, h]

theorem State_memRead_of_no_race {s : State} (h : s.raced = []) (a n : Nat) :
    s.memRead a n = (s.mem.readLE a n, s) := by
  rw [State.memRead, State_racedIn_of_no_race h]
  rfl

theorem State_memWrite_of_no_race {s : State} (h : s.raced = []) (a n v : Nat) :
    s.memWrite a n v = { s with mem := s.mem.writeLE a n v } := by
  rw [State.memWrite, State_racedIn_of_no_race h]
  rfl

theorem State_racedIn_lt {s : State} {a n x : Nat} (hx : x ∈ s.racedIn a n) : a ≤ x ∧ x < a + n := by
  have := (List.mem_filter.1 hx).2
  simpa [inRange] using this

/-- An admitted write of the block keeps the canonical form, whatever was raced. -/
theorem State_memWrite_wf {s : State} (hm : s.mem.wf) {a n : Nat} (v : Nat) (h : s.admits a n = true) :
    (s.memWrite a n v).mem.wf := by
  have hb : a + n ≤ 2 ^ 64 := by simp [State.admits] at h; exact h.1
  rw [State_memWrite_mem]
  exact Memory_wf_scramble (Memory_wf_writeLE hm _ hb) _ fun x hx => by have := State_racedIn_lt hx; omega

/-- A write of the block changes no byte outside its access. -/
theorem State_memWrite_readByte_outside (s : State) {a n b : Nat} (v : Nat) (h : b < a ∨ a + n ≤ b) :
    (s.memWrite a n v).mem.readByte b = s.mem.readByte b := by
  rw [State_memWrite_mem, Memory_readByte_scramble_of_not_mem _ _ fun hx => by have := State_racedIn_lt hx; omega]
  exact Memory_readByte_writeLE_outside _ _ h

end Sys2Proof.Machine
end

