-- ==== Sys2Proof/Laws/Ops.lean ====
section
/-! SUPPORT. What each shared operation can do, said once: reading a vector register, the CSR window, the start checks, the
overlap check, the solver's answer and the candidate constant's check. -/

namespace Sys2Proof.Machine

open Sys2Proof

/-! ### Vector registers -/

/-- A read goes on with the register's value. -/
theorem withV_eq (s : State) (r : VNum) (k : VWord → State → Host.Outcome State Fault Refusal) :
    s.withV r k = k (s.vregs.get r).val (s.noteRead r) := rfl

/-- Reading a written register leaves no trace, and neither does any read where VREG_UNINIT is `value` or a fault is on
record already. -/
theorem noteRead_eq_self {s : State} {r : VNum}
    (h : s.vregFault ≠ none ∨ s.params.vregUninit = .value ∨ (s.vregs.get r).written = true) : s.noteRead r = s := by
  unfold State.noteRead
  rw [if_neg]
  rintro ⟨h1, h2, h3⟩
  rcases h with h | h | h
  · exact h h1
  · rw [h2] at h; cases h
  · rw [h3] at h; cases h

/-- The first read of a never-written register, where VREG_UNINIT is `fault`, is put on record. -/
theorem noteRead_records {s : State} {r : VNum} (h1 : s.vregFault = none) (h2 : s.params.vregUninit = .fault)
    (h3 : (s.vregs.get r).written = false) : (s.noteRead r).vregFault = some r := by
  simp [State.noteRead, h1, h2, h3]

/-- A fault on record stays on record. -/
theorem noteRead_keeps_record {s : State} {r q : VNum} (h : s.vregFault = some q) : (s.noteRead r).vregFault = some q := by
  rw [noteRead_eq_self (.inl (by simp [h])), h]

/-- No other field changes. -/
theorem noteRead_frame (s : State) (r : VNum) : s.noteRead r = { s with vregFault := (s.noteRead r).vregFault } := rfl

/-- v[r] after v[r] is written. -/
theorem writeV_get_same (s : State) (r : VNum) (x : VWord) :
    (s.writeV r x).vregs.get r = ⟨truncVLen s.params x, true⟩ := by
  show (s.vregs.set r.val _ r.isLt)[r.val] = _
  simp

/-- The other registers after v[r] is written. -/
theorem writeV_get_ne (s : State) {r q : VNum} (x : VWord) (h : q ≠ r) :
    (s.writeV r x).vregs.get q = s.vregs.get q := by
  have : r.val ≠ q.val := fun e => h (Fin.ext e.symm)
  show (s.vregs.set r.val _ r.isLt)[q.val] = s.vregs[q.val]
  simp [this]

/-! ### The CSR window -/

theorem windowOffset_inside (p : Params) {off : Nat} (h : off < 4096) : windowOffset p (p.mmioBase + off) = some off := by
  unfold windowOffset
  rw [if_pos (by omega), Nat.add_sub_cancel_left]

/-- Every offset that holds a CSR is a multiple of 8 below 0x0B0 (10_state.md R32). -/
theorem ofOffset_some {off : Nat} {c : CsrName} (h : CsrName.ofOffset off = some c) : off % 8 = 0 ∧ off < 0x0B0 := by
  unfold CsrName.ofOffset at h
  split at h <;> first | decide | cases h

/-- A read that is not conforming, or of an offset without CSR, returns 0 (10_state.md R32). -/
theorem mmioRead_hole (s : State) {off n : Nat} (h : n ≠ 8 ∨ off % 8 ≠ 0 ∨ 0x0B0 ≤ off) :
    s.mmioRead off n = { s with rdata := 0 } := by
  unfold State.mmioRead
  split
  · rename_i c hc ho
    have := ofOffset_some ho
    simp only [conforming, Bool.and_eq_true, beq_iff_eq] at hc
    omega
  · rfl

/-- A write that is not conforming, or to an offset without CSR, is ignored (10_state.md R32). -/
theorem mmioWrite_hole (s : State) {off n : Nat} (v : Word) (h : n ≠ 8 ∨ off % 8 ≠ 0 ∨ 0x0B0 ≤ off) :
    s.mmioWrite off n v = s := by
  unfold State.mmioWrite
  split
  · rename_i hc ho
    have := ofOffset_some ho
    simp only [conforming, Bool.and_eq_true, beq_iff_eq] at hc
    omega
  · rename_i c _ hc ho
    have := ofOffset_some ho
    simp only [conforming, Bool.and_eq_true, beq_iff_eq] at hc
    omega
  · rfl

/-! ### Start checks -/

/-- `StartAN()` gives the width, signedness, layout and pair, or raises CONFIG_ERROR(0, 0). -/
theorem startAN_cases (s : State) (k : AnSetup → Host.Outcome State Fault Refusal) :
    (∃ c, s.anSetup = some c ∧ s.startAN k = k c) ∨
      (s.anSetup = none ∧ s.startAN k = .next (s.raise .configError 0 0)) := by
  cases h : s.anSetup with
  | none => exact .inr ⟨rfl, by simp [State.startAN, h]⟩
  | some c => exact .inl ⟨c, rfl, by simp [State.startAN, h]⟩

theorem anSetup_eq_none {s : State} : s.anSetup = none ↔
    cfgEW s.csr.cfg = .e64 ∨ awValid s.csr.aw = false ∨ awEW s.csr.aw ≠ cfgEW s.csr.cfg := by
  unfold State.anSetup
  split
  · simp_all
  · split <;> simp_all

theorem anSetup_eq_some {s : State} (h64 : cfgEW s.csr.cfg ≠ .e64) (hv : awValid s.csr.aw = true)
    (hw : awEW s.csr.aw = cfgEW s.csr.cfg) :
    s.anSetup = some
      { w := (cfgEW s.csr.cfg).bits, sg := cfgSgn s.csr.cfg, layout := cfgLayout s.csr.cfg, a := s.csr.a.toNat,
        ainv := s.csr.ainv.toNat } := by
  simp [State.anSetup, h64, hv, hw]

/-- `StartHam()` goes on at width 16 or 32, or raises CONFIG_ERROR(0, 0). -/
theorem startHam_cases (s : State) (k : Nat → Host.Outcome State Fault Refusal) :
    (cfgEW s.csr.cfg = .e16 ∧ s.startHam k = k 16) ∨ (cfgEW s.csr.cfg = .e32 ∧ s.startHam k = k 32) ∨
      (cfgEW s.csr.cfg ≠ .e16 ∧ cfgEW s.csr.cfg ≠ .e32 ∧ s.startHam k = .next (s.raise .configError 0 0)) := by
  cases h : cfgEW s.csr.cfg <;> simp [State.startHam, h]

/-- The overlap check goes on, or raises BUFFER_OVERLAP(0, 0). -/
theorem overlapCheck_cases (s : State) (ss ds : Nat) (k : Host.Outcome State Fault Refusal) :
    (buffersOverlap s.csr.src.toNat s.csr.dst.toNat s.csr.count.toNat ss ds = false ∧ s.overlapCheck ss ds k = k) ∨
      (buffersOverlap s.csr.src.toNat s.csr.dst.toNat s.csr.count.toNat ss ds = true ∧
        s.overlapCheck ss ds k = .next (s.raise .bufferOverlap 0 0)) := by
  cases h : buffersOverlap s.csr.src.toNat s.csr.dst.toNat s.csr.count.toNat ss ds <;> simp [State.overlapCheck, h]

/-- Disjoint buffers are never refused, and in place with equal element sizes is not either. -/
theorem overlapCheck_passes {s : State} {ss ds : Nat} {k : Host.Outcome State Fault Refusal}
    (h : rangesMeet s.csr.src.toNat (s.csr.count.toNat * ss) s.csr.dst.toNat (s.csr.count.toNat * ds) = false ∨
      (s.csr.src = s.csr.dst ∧ ss = ds)) : s.overlapCheck ss ds k = k := by
  rcases h with h | ⟨h1, h2⟩ <;> simp [State.overlapCheck, buffersOverlap, *]

/-! ### The solver -/

/-- What Solve returns has passed its self-check (40_solver.md R141). -/
theorem solve_eq_some {b k a : Nat} (h : solve b k = some a) : a < 2 ^ k ∧ b * a % 2 ^ k = 1 := by
  unfold solve at h
  dsimp only at h
  split at h
  · rename_i hc
    cases h
    refine ⟨?_, hc⟩
    have hp : (0 : Int) < 2 ^ k := by positivity
    have h1 := Int.emod_lt_of_pos (euclid (b + 1) (2 ^ k) b 0 1) hp
    have h2 := Int.emod_nonneg (euclid (b + 1) (2 ^ k) b 0 1) hp.ne'
    zify
    rwa [Int.toNat_of_nonneg h2]
  · cases h

/-- A candidate constant that passes is odd, fits the raw width, and comes with its inverse. -/
theorem checkConstant_ok {c w a : Nat} (h : checkConstant c w = .ok a) :
    c < 2 ^ w ∧ c % 2 = 1 ∧ a < 2 ^ (2 * w) ∧ c * a % 2 ^ (2 * w) = 1 := by
  unfold checkConstant at h
  split at h
  · cases h
  · split at h
    · cases h
    · split at h
      · rename_i h1 h2 _ _ hs
        cases h
        exact ⟨by omega, by omega, solve_eq_some hs⟩
      · cases h

/-- A candidate constant is refused for its size or its parity, or passes. -/
theorem checkConstant_error {c w : Nat} {e : ErrCode} (h : checkConstant c w = .error e) :
    (e = .configError ∧ 2 ^ w ≤ c) ∨ (e = .invariantViolation ∧ c < 2 ^ w) := by
  unfold checkConstant at h
  split at h
  · cases h; exact .inl ⟨rfl, ‹_›⟩
  · split at h
    · cases h; exact .inr ⟨rfl, by omega⟩
    · split at h
      · cases h
      · cases h; exact .inr ⟨rfl, by omega⟩

end Sys2Proof.Machine
end

