-- ==== Sys2Proof/Laws/PerInstr.lean ====
section
/-! SUPPORT. Families of statements about every instruction, one lemma per constructor. TableMatch: the encoder's words have
the fixed bits of their rows of spec/opcode_table.json, which are transcribed here a second time. -/

namespace Sys2Proof.Laws.TableMatch

/-- The fixed bits (hi, lo, value) of an instruction's row of spec/opcode_table.json (30_encoding.md R120). -/
def row : Instr → List (Nat × Nat × Nat)
  | .nop => [(31, 0, 0x1000000)]
  | .seta => [(31, 0, 0x10000000)]
  | .modinv => [(31, 0, 0x11000000)]
  | .enc => [(31, 0, 0x20000000)]
  | .chk => [(31, 0, 0x21000000)]
  | .dec => [(31, 0, 0x22000000)]
  | .decchk => [(31, 0, 0x23000000)]
  | .reenc => [(31, 0, 0x24000000)]
  | .arithAdd => [(31, 0, 0x28000000)]
  | .arithSub => [(31, 0, 0x29000000)]
  | .arithMul => [(31, 0, 0x2A000000)]
  | .arithDiv => [(31, 0, 0x2B000000)]
  | .henc => [(31, 0, 0x30000000)]
  | .hchk => [(31, 0, 0x31000000)]
  | .vld .. => [(20, 16, 0x0), (31, 24, 0x40)]
  | .vst .. => [(20, 16, 0x0), (31, 24, 0x41)]
  | .vadd .. => [(11, 0, 0x0), (31, 24, 0x48)]
  | .vsub .. => [(11, 0, 0x0), (31, 24, 0x49)]
  | .vmullo .. => [(11, 0, 0x0), (31, 24, 0x4A)]
  | .vdiv .. => [(11, 0, 0x0), (31, 24, 0x4B)]
  | .vmin .. => [(11, 0, 0x0), (31, 24, 0x4C)]
  | .vmax .. => [(11, 0, 0x0), (31, 24, 0x4D)]
  | .vcmpLt .. => [(11, 0, 0x0), (31, 24, 0x50)]
  | .vcmpLe .. => [(11, 0, 0x200), (31, 24, 0x50)]
  | .vcmpEq .. => [(11, 0, 0x400), (31, 24, 0x50)]
  | .vcmpNe .. => [(11, 0, 0x600), (31, 24, 0x50)]
  | .vcmpGe .. => [(11, 0, 0x800), (31, 24, 0x50)]
  | .vcmpGt .. => [(11, 0, 0xA00), (31, 24, 0x50)]
  | .vredsum .. => [(11, 0, 0x0), (17, 15, 0x0), (31, 24, 0x58)]
  | .vredmin .. => [(11, 0, 0x0), (17, 15, 0x0), (31, 24, 0x59)]
  | .vredmax .. => [(11, 0, 0x0), (17, 15, 0x0), (31, 24, 0x5A)]
  | .vpopcnt .. => [(11, 0, 0x0), (17, 15, 0x0), (31, 24, 0x5C)]
  | .vcompress .. => [(11, 0, 0x0), (31, 24, 0x5E)]
  | .vhpar .. => [(8, 0, 0x0), (17, 15, 0x0), (31, 24, 0x60)]

/-- Every fixed field of the row stands in the encoded word. -/
def Statement (i : Instr) : Prop := ∀ f ∈ row i, field (encode i) f.2.1 (f.1 + 1 - f.2.1) = f.2.2

theorem code_lt (ew : EW) : ew.code < 4 := by cases ew <;> decide

theorem sgn_code_lt (sg : Sgn) : sg.code < 2 := by cases sg <;> decide

/-- Bits [11:0], [17:15] and [31:24] of a Format R word. -/
theorem encodeR_fixed (opc : Nat) (h : opc < 256) (vd vs1 vs2 : VNum) (ew : EW) (sg : Sgn) (f : Nat) (hf : f < 8) :
    field (encodeR opc vd vs1 vs2 ew sg f) 0 12 = f * 2 ^ 9 ∧ field (encodeR opc vd vs1 vs2 ew sg f) 0 9 = 0 ∧
      field (encodeR opc vd vs1 vs2 ew sg f) 15 3 = vs2.val ∧ field (encodeR opc vd vs1 vs2 ew sg f) 24 8 = opc := by
  have h1 := vd.isLt
  have h2 := vs1.isLt
  have h3 := vs2.isLt
  have h4 := code_lt ew
  have h5 := sgn_code_lt sg
  simp only [field, encodeR, BitVec.toNat_ofNat]
  omega

/-- Bits [20:16] and [31:24] of a Format M word. -/
theorem encodeM_fixed (opc : Nat) (h : opc < 256) (vr : VNum) (imm : BitVec 16) :
    field (encodeM opc vr imm) 16 5 = 0 ∧ field (encodeM opc vr imm) 24 8 = opc := by
  have h1 := vr.isLt
  have h2 := imm.isLt
  simp only [field, encodeM, BitVec.toNat_ofNat]
  omega

theorem nop : Statement .nop := by simp [Statement, row, encode, encodeN, field]

theorem seta : Statement .seta := by simp [Statement, row, encode, encodeN, field]

theorem modinv : Statement .modinv := by simp [Statement, row, encode, encodeN, field]

theorem enc : Statement .enc := by simp [Statement, row, encode, encodeN, field]

theorem chk : Statement .chk := by simp [Statement, row, encode, encodeN, field]

theorem dec : Statement .dec := by simp [Statement, row, encode, encodeN, field]

theorem decchk : Statement .decchk := by simp [Statement, row, encode, encodeN, field]

theorem reenc : Statement .reenc := by simp [Statement, row, encode, encodeN, field]

theorem arithAdd : Statement .arithAdd := by simp [Statement, row, encode, encodeN, field]

theorem arithSub : Statement .arithSub := by simp [Statement, row, encode, encodeN, field]

theorem arithMul : Statement .arithMul := by simp [Statement, row, encode, encodeN, field]

theorem arithDiv : Statement .arithDiv := by simp [Statement, row, encode, encodeN, field]

theorem henc : Statement .henc := by simp [Statement, row, encode, encodeN, field]

theorem hchk : Statement .hchk := by simp [Statement, row, encode, encodeN, field]

theorem vld (vr : VNum) (imm : BitVec 16) : Statement (.vld vr imm) := by
  have h := encodeM_fixed 0x40 (by decide) vr imm
  simp [Statement, row, encode, h]

theorem vst (vr : VNum) (imm : BitVec 16) : Statement (.vst vr imm) := by
  have h := encodeM_fixed 0x41 (by decide) vr imm
  simp [Statement, row, encode, h]

theorem vadd (vd vs1 vs2 : VNum) (ew : EW) (sg : Sgn) : Statement (.vadd vd vs1 vs2 ew sg) := by
  have h := encodeR_fixed 0x48 (by decide) vd vs1 vs2 ew sg 0 (by decide)
  simp [Statement, row, encode, h]

theorem vsub (vd vs1 vs2 : VNum) (ew : EW) (sg : Sgn) : Statement (.vsub vd vs1 vs2 ew sg) := by
  have h := encodeR_fixed 0x49 (by decide) vd vs1 vs2 ew sg 0 (by decide)
  simp [Statement, row, encode, h]

theorem vmullo (vd vs1 vs2 : VNum) (ew : EW) (sg : Sgn) : Statement (.vmullo vd vs1 vs2 ew sg) := by
  have h := encodeR_fixed 0x4A (by decide) vd vs1 vs2 ew sg 0 (by decide)
  simp [Statement, row, encode, h]

theorem vdiv (vd vs1 vs2 : VNum) (ew : EW) (sg : Sgn) : Statement (.vdiv vd vs1 vs2 ew sg) := by
  have h := encodeR_fixed 0x4B (by decide) vd vs1 vs2 ew sg 0 (by decide)
  simp [Statement, row, encode, h]

theorem vmin (vd vs1 vs2 : VNum) (ew : EW) (sg : Sgn) : Statement (.vmin vd vs1 vs2 ew sg) := by
  have h := encodeR_fixed 0x4C (by decide) vd vs1 vs2 ew sg 0 (by decide)
  simp [Statement, row, encode, h]

theorem vmax (vd vs1 vs2 : VNum) (ew : EW) (sg : Sgn) : Statement (.vmax vd vs1 vs2 ew sg) := by
  have h := encodeR_fixed 0x4D (by decide) vd vs1 vs2 ew sg 0 (by decide)
  simp [Statement, row, encode, h]

theorem vcmpLt (vd vs1 vs2 : VNum) (ew : EW) (sg : Sgn) : Statement (.vcmpLt vd vs1 vs2 ew sg) := by
  have h := encodeR_fixed 0x50 (by decide) vd vs1 vs2 ew sg 0 (by decide)
  simp [Statement, row, encode, h]

theorem vcmpLe (vd vs1 vs2 : VNum) (ew : EW) (sg : Sgn) : Statement (.vcmpLe vd vs1 vs2 ew sg) := by
  have h := encodeR_fixed 0x50 (by decide) vd vs1 vs2 ew sg 1 (by decide)
  simp [Statement, row, encode, h]

theorem vcmpEq (vd vs1 vs2 : VNum) (ew : EW) (sg : Sgn) : Statement (.vcmpEq vd vs1 vs2 ew sg) := by
  have h := encodeR_fixed 0x50 (by decide) vd vs1 vs2 ew sg 2 (by decide)
  simp [Statement, row, encode, h]

theorem vcmpNe (vd vs1 vs2 : VNum) (ew : EW) (sg : Sgn) : Statement (.vcmpNe vd vs1 vs2 ew sg) := by
  have h := encodeR_fixed 0x50 (by decide) vd vs1 vs2 ew sg 3 (by decide)
  simp [Statement, row, encode, h]

theorem vcmpGe (vd vs1 vs2 : VNum) (ew : EW) (sg : Sgn) : Statement (.vcmpGe vd vs1 vs2 ew sg) := by
  have h := encodeR_fixed 0x50 (by decide) vd vs1 vs2 ew sg 4 (by decide)
  simp [Statement, row, encode, h]

theorem vcmpGt (vd vs1 vs2 : VNum) (ew : EW) (sg : Sgn) : Statement (.vcmpGt vd vs1 vs2 ew sg) := by
  have h := encodeR_fixed 0x50 (by decide) vd vs1 vs2 ew sg 5 (by decide)
  simp [Statement, row, encode, h]

theorem vredsum (vd vs1 : VNum) (ew : EW) (sg : Sgn) : Statement (.vredsum vd vs1 ew sg) := by
  have h := encodeR_fixed 0x58 (by decide) vd vs1 0 ew sg 0 (by decide)
  simp [Statement, row, encode, h]

theorem vredmin (vd vs1 : VNum) (ew : EW) (sg : Sgn) : Statement (.vredmin vd vs1 ew sg) := by
  have h := encodeR_fixed 0x59 (by decide) vd vs1 0 ew sg 0 (by decide)
  simp [Statement, row, encode, h]

theorem vredmax (vd vs1 : VNum) (ew : EW) (sg : Sgn) : Statement (.vredmax vd vs1 ew sg) := by
  have h := encodeR_fixed 0x5A (by decide) vd vs1 0 ew sg 0 (by decide)
  simp [Statement, row, encode, h]

theorem vpopcnt (vd vs1 : VNum) (ew : EW) (sg : Sgn) : Statement (.vpopcnt vd vs1 ew sg) := by
  have h := encodeR_fixed 0x5C (by decide) vd vs1 0 ew sg 0 (by decide)
  simp [Statement, row, encode, h]

theorem vcompress (vd vs1 vs2 : VNum) (ew : EW) (sg : Sgn) : Statement (.vcompress vd vs1 vs2 ew sg) := by
  have h := encodeR_fixed 0x5E (by decide) vd vs1 vs2 ew sg 0 (by decide)
  simp [Statement, row, encode, h]

theorem vhpar (vd vs1 : VNum) (ew : EW) (sg : Sgn) (k : Fin 8) : Statement (.vhpar vd vs1 ew sg k) := by
  have h := encodeR_fixed 0x60 (by decide) vd vs1 0 ew sg k.val k.isLt
  simp [Statement, row, encode, h]

end Sys2Proof.Laws.TableMatch
end

