-- ==== Sys2Proof/Laws/Stream.lean ====
section
/-! SUPPORT. The laws of the stream loop: an induction principle said once for `forElems`, `forIters` and
`State.stream`, and what the loop that reads an element, checks it and writes a function of it does. -/

namespace Sys2Proof.Machine

/-- A flow that goes on satisfies R, one that an error has ended satisfies E. -/
def Flow.Holds (f : Flow) (R E : State → Prop) : Prop :=
  match f with
  | .running s => R s
  | .ended s => E s

@[simp] theorem Flow_holds_running (s : State) (R E : State → Prop) : (Flow.running s).Holds R E ↔ R s := Iff.rfl

@[simp] theorem Flow_holds_ended (s : State) (R E : State → Prop) : (Flow.ended s).Holds R E ↔ E s := Iff.rfl

theorem Flow_holds_mono {f : Flow} {R R' E E' : State → Prop} (h : f.Holds R E) (hR : ∀ s, R s → R' s)
    (hE : ∀ s, E s → E' s) : f.Holds R' E' := by
  cases f with
  | running s => exact hR s h
  | ended s => exact hE s h

theorem Flow_holds_andThen {f : Flow} {k : State → Flow} {Q R E : State → Prop} (h : f.Holds Q E)
    (hk : ∀ s, Q s → (k s).Holds R E) : (f.andThen k).Holds R E := by
  cases f with
  | running s => exact hk s h
  | ended s => exact h

/-- A flow no error ends is running. -/
theorem Flow_holds_running_iff {f : Flow} {R : State → Prop} :
    f.Holds R (fun _ => False) ↔ ∃ t, f = .running t ∧ R t := by
  cases f <;> simp [Flow.Holds]

/-- A flow that an error certainly ends. -/
theorem Flow_holds_ended_iff {f : Flow} {E : State → Prop} :
    f.Holds (fun _ => False) E ↔ ∃ t, f = .ended t ∧ E t := by
  cases f <;> simp [Flow.Holds]

/-- The outcome of a flow is a next state, completed by `done` or by the error. -/
theorem Flow_outcome_next {f : Flow} {R E : State → Prop} (h : f.Holds R E) (done : State → State) :
    (∃ t, f.outcome done = .next (done t) ∧ R t) ∨ (∃ t, f.outcome done = .next t ∧ E t) := by
  cases f with
  | running s => exact .inl ⟨s, rfl, h⟩
  | ended s => exact .inr ⟨s, rfl, h⟩

/-- Induction over the elements of one iteration. -/
theorem forElems_holds {body : State → Flow} {E : State → Prop} (Q : Nat → State → Prop) {n k : Nat} {s : State}
    (h0 : Q k s)
    (hstep : ∀ j, k ≤ j → j < k + n → ∀ s, Q j s → (body s).Holds (fun s' => Q (j + 1) s'.nextElem) E) :
    (forElems body n s).Holds (Q (k + n)) E := by
  induction n generalizing k s with
  | zero => exact h0
  | succ n ih =>
    refine Flow_holds_andThen (hstep k (le_refl k) (by omega) s h0) fun s' hs' => ?_
    have := ih hs' fun j h1 h2 => hstep j (by omega) (by omega)
    rwa [show k + 1 + n = k + (n + 1) from by omega] at this

/-- Induction over the iterations. -/
theorem forIters_holds {body : State → Flow} {E : State → Prop} (Q : Nat → State → Prop) {n m k : Nat} {s : State}
    (h0 : Q k s)
    (hstep : ∀ j, k ≤ j → j < k + m → ∀ s, Q j s → (forElems body n s).Holds (fun s' => Q (j + 1) s'.nextIter) E) :
    (forIters body n m s).Holds (Q (k + m)) E := by
  induction m generalizing k s with
  | zero => exact h0
  | succ m ih =>
    refine Flow_holds_andThen (hstep k (le_refl k) (by omega) s h0) fun s' hs' => ?_
    have := ih hs' fun j h1 h2 => hstep j (by omega) (by omega)
    rwa [show k + 1 + m = k + (m + 1) from by omega] at this

/-- Induction over the whole loop: Q it i holds before the body of element i in iteration it. -/
theorem stream_holds {s : State} {body : State → Flow} {E : State → Prop} (Q : Nat → Nat → State → Prop)
    (h0 : Q 0 0 { s with seq := Seq.idle })
    (hbody : ∀ it, it < s.csr.iter.toNat → ∀ i, i < s.csr.count.toNat → ∀ u, Q it i u →
      (body u).Holds (fun u' => Q it (i + 1) u'.nextElem) E)
    (hnext : ∀ it, it < s.csr.iter.toNat → ∀ u, Q it s.csr.count.toNat u → Q (it + 1) 0 u.nextIter) :
    (s.stream body).Holds (Q s.csr.iter.toNat 0) E := by
  have h := forIters_holds (fun it u => Q it 0 u) (body := body) (n := s.csr.count.toNat) (m := s.csr.iter.toNat) (k := 0)
    (E := E) h0 fun it _ hit u hu => by
      have he := forElems_holds (Q it) (k := 0) (n := s.csr.count.toNat) hu fun i _ hi v hv =>
        hbody it (by omega) i (by omega) v hv
      rw [Nat.zero_add] at he
      exact Flow_holds_mono he (fun v hv => hnext it (by omega) v hv) fun _ hv => hv
  rwa [Nat.zero_add] at h

/-- A property that the bodies and the sequencer's own moves keep holds at the end of the loop. -/
theorem stream_keeps {s : State} {body : State → Flow} {E : State → Prop} (P : State → Prop)
    (h0 : P { s with seq := Seq.idle }) (hbody : ∀ u, P u → (body u).Holds P E)
    (helem : ∀ u, P u → P u.nextElem) (hiter : ∀ u, P u → P u.nextIter) : (s.stream body).Holds P E :=
  stream_holds (fun _ _ u => P u) h0
    (fun _ _ _ _ u hu => Flow_holds_mono (hbody u hu) helem fun _ h => h) fun _ _ u hu => hiter u hu

/-! ### Element accesses -/

/-- Reading an element: an admitted access goes on with the value read, a refused one raises BUS_ERROR here. -/
theorem loadElem_holds {s : State} {base size : Nat} {k : Nat → State → Flow} {R E : State → Prop}
    (hok : s.admits (elemAddr base s.seq.i size) size = true →
      (k (s.memRead (elemAddr base s.seq.i size) size).1 (s.memRead (elemAddr base s.seq.i size) size).2).Holds R E)
    (hno : s.admits (elemAddr base s.seq.i size) size = false → E (s.raiseHere .busError)) :
    (s.loadElem base size k).Holds R E := by
  unfold State.loadElem
  split
  · rename_i h
    exact hok h
  · rename_i h
    exact hno (by simpa using h)

/-- Writing an element: an admitted access writes, a refused one raises BUS_ERROR here. -/
theorem storeElem_holds {s : State} {base size v : Nat} {R E : State → Prop}
    (hok : s.admits (elemAddr base s.seq.i size) size = true → R (s.memWrite (elemAddr base s.seq.i size) size v))
    (hno : s.admits (elemAddr base s.seq.i size) size = false → E (s.raiseHere .busError)) :
    (s.storeElem base size v).Holds R E := by
  unfold State.storeElem
  split
  · rename_i h
    exact hok h
  · rename_i h
    exact hno (by simpa using h)

/-! ### Accesses of a command that no host write has raced -/

theorem loadElem_admitted {s : State} {base size : Nat} {k : Nat → State → Flow} (hr : s.raced = [])
    (ha : s.admits (elemAddr base s.seq.i size) size = true) :
    s.loadElem base size k = k (s.mem.readLE (elemAddr base s.seq.i size) size) s := by
  simp [State.loadElem, ha, State_memRead_of_no_race hr]

theorem loadElem_refused {s : State} {base size : Nat} {k : Nat → State → Flow}
    (ha : s.admits (elemAddr base s.seq.i size) size = false) :
    s.loadElem base size k = .ended (s.raiseHere .busError) := by simp [State.loadElem, ha]

theorem storeElem_admitted {s : State} {base size v : Nat} (hr : s.raced = [])
    (ha : s.admits (elemAddr base s.seq.i size) size = true) :
    s.storeElem base size v = .running { s with mem := s.mem.writeLE (elemAddr base s.seq.i size) size v } := by
  simp [State.storeElem, ha, State_memWrite_of_no_race hr]

theorem storeElem_refused {s : State} {base size v : Nat} (ha : s.admits (elemAddr base s.seq.i size) size = false) :
    s.storeElem base size v = .ended (s.raiseHere .busError) := by simp [State.storeElem, ha]

/-! ### The loop that reads, checks and writes -/

theorem rangesMeet_eq_false {a la b lb : Nat} :
    rangesMeet a la b lb = false ↔ la = 0 ∨ lb = 0 ∨ b + lb ≤ a ∨ a + la ≤ b := by
  rw [← Bool.not_eq_true]
  simp only [rangesMeet, Bool.and_eq_true, bne_iff_ne, decide_eq_true_eq]
  omega

theorem inRange_eq_false {r : Nat × Nat} {a : Nat} : inRange r a = false ↔ a < r.1 ∨ r.1 + r.2 ≤ a := by
  rw [← Bool.not_eq_true]
  simp only [inRange, Bool.and_eq_true, decide_eq_true_eq]
  omega

/-- The body every writing stream command has: read an element of ss bytes at SRC, end with CORRUPTION_DETECTED where the
check refuses it, else write f of it as an element of ds bytes at DST; f may read the parameters, as HENC's masks. -/
def copyBody (ss ds : Nat) (ok : Nat → Bool) (f : Params → Nat → Nat) (s : State) : Flow :=
  s.loadElem s.csr.src.toNat ss fun e s' =>
    if ok e then s'.storeElem s'.csr.dst.toNat ds (f s'.params e) else .ended (s'.raiseHere .corruptionDetected)

theorem encBody_eq_copyBody (c : AnSetup) :
    encBody c = copyBody c.rawBytes c.encBytes (fun _ => true) fun _ r => (encodeVal c.sg (BitVec.ofNat c.w r) c.a).toNat :=
  rfl

theorem decBody_eq_copyBody (c : AnSetup) :
    decBody c = copyBody c.encBytes c.rawBytes (fun _ => true)
      fun _ e => (decodeVal (BitVec.ofNat (2 * c.w) e) c.ainv).toNat := rfl

theorem decchkBody_eq_copyBody (c : AnSetup) :
    decchkBody c = copyBody c.encBytes c.rawBytes (fun e => c.valid (BitVec.ofNat (2 * c.w) e))
      fun _ e => (decodeVal (BitVec.ofNat (2 * c.w) e) c.ainv).toNat := rfl

theorem reencBody_eq_copyBody (c : AnSetup) (anew : Nat) :
    reencBody c anew = copyBody c.encBytes c.encBytes (fun e => c.valid (BitVec.ofNat (2 * c.w) e))
      fun _ e => (encodeVal c.sg (decodeVal (BitVec.ofNat (2 * c.w) e) c.ainv) anew).toNat := rfl

theorem arithBody_eq_copyBody (c : AnSetup) (f : BitVec (2 * c.w) → BitVec (2 * c.w)) :
    arithBody c f = copyBody c.encBytes c.encBytes (fun _ => true) fun _ e => (f (BitVec.ofNat (2 * c.w) e)).toNat := rfl

theorem hencBody_eq_copyBody (w : Nat) :
    hencBody w = copyBody (w / 8) (2 * (w / 8)) (fun _ => true) fun p d => hamRecord p (BitVec.ofNat w d) := rfl

/-- Where a copying loop stands before element i of iteration it: nothing but memory and the progress differs from s; the
element j of the destination (n elements of ds bytes) holds val p j after p passes over it, and every byte outside the
elements written so far is as in s. -/
structure CopyAt (s : State) (ds n : Nat) (val : Nat → Nat → Nat) (it i : Nat) (u : State) : Prop where
  frame : u = { s with mem := u.mem, seq := ⟨it, i, false⟩ }
  sorted : u.mem.Pairwise fun c d => c.1 < d.1
  elems : ∀ j < n, u.mem.readLE (elemAddr s.csr.dst.toNat j ds) ds = val (if j < i then it + 1 else it) j
  others : ∀ a, inRange (s.csr.dst.toNat, (if it = 0 then i else n) * ds) a = false → u.mem.readByte a = s.mem.readByte a

theorem CopyAt_start {s : State} {ds n : Nat} {val : Nat → Nat → Nat} (hs : s.mem.Pairwise fun c d => c.1 < d.1)
    (h0 : ∀ j < n, s.mem.readLE (elemAddr s.csr.dst.toNat j ds) ds = val 0 j) :
    CopyAt s ds n val 0 0 { s with seq := Seq.idle } :=
  ⟨rfl, hs, fun j hj => by simpa using h0 j hj, fun _ _ => rfl⟩

theorem CopyAt_nextIter {s u : State} {ds n it : Nat} {val : Nat → Nat → Nat} (h : CopyAt s ds n val it n u) :
    CopyAt s ds n val (it + 1) 0 u.nextIter := by
  obtain ⟨hf, hs, he, ho⟩ := h
  refine ⟨by rw [hf]; rfl, hs, fun j hj => by simpa [hj] using he j hj, fun a ha => ho a ?_⟩
  simpa using ha

/-- One pass over element i: the value its source element gives is written and everything else stays. -/
theorem CopyAt_write {s u : State} {ds n it i v : Nat} {val : Nat → Nat → Nat} (h : CopyAt s ds n val it i u) (hi : i < n)
    (hv : v % 2 ^ (8 * ds) = val (it + 1) i) :
    CopyAt s ds n val it (i + 1)
      (State.nextElem { u with mem := u.mem.writeLE (elemAddr s.csr.dst.toNat i ds) ds v }) := by
  obtain ⟨hf, hs, he, ho⟩ := h
  refine ⟨by rw [hf]; rfl, Memory_writeLE_pairwise hs _ _ _, fun j hj => ?_, fun a ha => ?_⟩
  · show (u.mem.writeLE _ ds v).readLE _ ds = _
    rcases Nat.lt_trichotomy j i with hji | rfl | hij
    · have := Nat.mul_le_mul_right ds hji
      rw [Memory_readLE_writeLE_disjoint _ _ (by simp only [elemAddr]; rw [Nat.succ_mul] at this; omega), he j hj,
        if_pos hji, if_pos (by omega)]
    · rw [Memory_readLE_writeLE_same hs, hv, if_pos (by omega)]
    · have := Nat.mul_le_mul_right ds hij
      rw [Memory_readLE_writeLE_disjoint _ _ (by simp only [elemAddr]; rw [Nat.succ_mul] at this; omega), he j hj,
        if_neg (by omega), if_neg (by omega)]
  · show (u.mem.writeLE _ ds v).readByte a = _
    have h1 : (i + 1) * ds ≤ n * ds := Nat.mul_le_mul_right _ hi
    have h2 : (i + 1) * ds = i * ds + ds := Nat.succ_mul i ds
    simp only [inRange_eq_false] at ha ho
    rw [Memory_readByte_writeLE_outside _ _ (by simp only [elemAddr]; split at ha <;> omega)]
    exact ho a (by split at ha <;> split <;> omega)

/-- What a state inside the loop still shares with the state the loop began in. -/
theorem CopyAt_shared {s u : State} {ds n it i : Nat} {val : Nat → Nat → Nat} (h : CopyAt s ds n val it i u) :
    u.params = s.params ∧ u.csr = s.csr ∧ u.seq = ⟨it, i, false⟩ ∧ u.raced = s.raced ∧
      ∀ a k, u.admits a k = s.admits a k := by
  rw [h.frame]
  exact ⟨rfl, rfl, rfl, rfl, fun _ _ => rfl⟩

/-- One turn of the loop where both accesses are admitted and the check passes: element i is written. -/
theorem copyBody_writes {s u : State} {ss ds n it i : Nat} {ok : Nat → Bool} {f : Params → Nat → Nat}
    {val : Nat → Nat → Nat} {E : State → Prop} (h : CopyAt s ds n val it i u) (hr : s.raced = []) (hi : i < n)
    (hR : s.admits (elemAddr s.csr.src.toNat i ss) ss = true) (hW : s.admits (elemAddr s.csr.dst.toNat i ds) ds = true)
    (hok : ok (u.mem.readLE (elemAddr s.csr.src.toNat i ss) ss) = true)
    (hv : f s.params (u.mem.readLE (elemAddr s.csr.src.toNat i ss) ss) % 2 ^ (8 * ds) = val (it + 1) i) :
    (copyBody ss ds ok f u).Holds (fun u' => CopyAt s ds n val it (i + 1) u'.nextElem) E := by
  obtain ⟨hp, hc, hq, hur, hua⟩ := CopyAt_shared h
  rw [hr] at hur
  rw [copyBody, loadElem_admitted hur (by rw [hua, hq, hc]; exact hR), hq, hc, if_pos hok,
    storeElem_admitted hur (by rw [hua, hq]; exact hW), hq, hp]
  have h' := CopyAt_write h hi hv
  rwa [hq, hp] at h'

/-- One turn of the loop where the check refuses element i: CORRUPTION_DETECTED there. -/
theorem copyBody_invalid {s u : State} {ss ds n it i : Nat} {ok : Nat → Bool} {f : Params → Nat → Nat}
    {val : Nat → Nat → Nat} (h : CopyAt s ds n val it i u) (hr : s.raced = [])
    (hR : s.admits (elemAddr s.csr.src.toNat i ss) ss = true)
    (hok : ok (u.mem.readLE (elemAddr s.csr.src.toNat i ss) ss) = false) :
    copyBody ss ds ok f u = .ended (u.raiseHere .corruptionDetected) := by
  obtain ⟨-, hc, hq, hur, hua⟩ := CopyAt_shared h
  rw [hr] at hur
  rw [copyBody, loadElem_admitted hur (by rw [hua, hq, hc]; exact hR), hq, hc, hok]
  rfl

/-- One turn of the loop where an access of element i is refused, the write after a check that passes: BUS_ERROR there. -/
theorem copyBody_refused {s u : State} {ss ds n it i : Nat} {ok : Nat → Bool} {f : Params → Nat → Nat}
    {val : Nat → Nat → Nat} (h : CopyAt s ds n val it i u) (hr : s.raced = [])
    (hno : s.admits (elemAddr s.csr.src.toNat i ss) ss = false ∨
      s.admits (elemAddr s.csr.src.toNat i ss) ss = true ∧ s.admits (elemAddr s.csr.dst.toNat i ds) ds = false ∧
        ok (u.mem.readLE (elemAddr s.csr.src.toNat i ss) ss) = true) :
    copyBody ss ds ok f u = .ended (u.raiseHere .busError) := by
  obtain ⟨-, hc, hq, hur, hua⟩ := CopyAt_shared h
  rw [hr] at hur
  rcases hno with hno | ⟨hR, hW, hok⟩
  · rw [copyBody, loadElem_refused (by rw [hua, hq, hc]; exact hno)]
  · rw [copyBody, loadElem_admitted hur (by rw [hua, hq, hc]; exact hR), hq, hc, if_pos hok,
      storeElem_refused (by rw [hua, hq]; exact hW)]

/-- The loop of a copying command that no error ends: after ITER passes every destination element holds val ITER, and
nothing else has changed. The last hypothesis says what the source gives when its turn comes. -/
theorem stream_copy {s : State} {ss ds : Nat} {ok : Nat → Bool} {f : Params → Nat → Nat} {val : Nat → Nat → Nat}
    (hs : s.mem.Pairwise fun c d => c.1 < d.1) (hr : s.raced = [])
    (hR : ∀ i < s.csr.count.toNat, s.admits (elemAddr s.csr.src.toNat i ss) ss = true)
    (hW : ∀ i < s.csr.count.toNat, s.admits (elemAddr s.csr.dst.toNat i ds) ds = true)
    (h0 : ∀ j < s.csr.count.toNat, s.mem.readLE (elemAddr s.csr.dst.toNat j ds) ds = val 0 j)
    (hsrc : ∀ it i u, i < s.csr.count.toNat → CopyAt s ds s.csr.count.toNat val it i u →
      ok (u.mem.readLE (elemAddr s.csr.src.toNat i ss) ss) = true ∧
        f s.params (u.mem.readLE (elemAddr s.csr.src.toNat i ss) ss) % 2 ^ (8 * ds) = val (it + 1) i) :
    ∃ t, s.stream (copyBody ss ds ok f) = .running t ∧ CopyAt s ds s.csr.count.toNat val s.csr.iter.toNat 0 t :=
  Flow_holds_running_iff.1 (stream_holds (CopyAt s ds s.csr.count.toNat val) (CopyAt_start hs h0)
    (fun it _ i hi u hu => copyBody_writes hu hr hi (hR i hi) (hW i hi) (hsrc it i u hi hu).1 (hsrc it i u hi hu).2)
    fun _ _ _ hu => CopyAt_nextIter hu)

/-- The loop of a copying command that writes the elements before b of iteration 0 and ends with an error at b: nothing
else has changed. `hend` is the turn of element b. -/
theorem stream_copy_ends {s : State} {ss ds b : Nat} {ok : Nat → Bool} {f : Params → Nat → Nat} {val : Nat → Nat → Nat}
    {e : ErrCode} (hs : s.mem.Pairwise fun c d => c.1 < d.1) (hr : s.raced = [])
    (hR : ∀ i < b, s.admits (elemAddr s.csr.src.toNat i ss) ss = true)
    (hW : ∀ i < b, s.admits (elemAddr s.csr.dst.toNat i ds) ds = true)
    (h0 : ∀ j < s.csr.count.toNat, s.mem.readLE (elemAddr s.csr.dst.toNat j ds) ds = val 0 j)
    (hb : b < s.csr.count.toNat) (hit : 0 < s.csr.iter.toNat)
    (hsrc : ∀ i u, i < b → CopyAt s ds s.csr.count.toNat val 0 i u →
      ok (u.mem.readLE (elemAddr s.csr.src.toNat i ss) ss) = true ∧
        f s.params (u.mem.readLE (elemAddr s.csr.src.toNat i ss) ss) % 2 ^ (8 * ds) = val 1 i)
    (hend : ∀ u, CopyAt s ds s.csr.count.toNat val 0 b u → copyBody ss ds ok f u = .ended (u.raiseHere e)) :
    ∃ u, s.stream (copyBody ss ds ok f) = .ended (u.raiseHere e) ∧ CopyAt s ds s.csr.count.toNat val 0 b u := by
  have key : (s.stream (copyBody ss ds ok f)).Holds (fun _ => False)
      (fun t => ∃ u, t = u.raiseHere e ∧ CopyAt s ds s.csr.count.toNat val 0 b u) := by
    refine Flow_holds_mono (stream_holds
      (fun it i u => it = 0 ∧ i ≤ b ∧ CopyAt s ds s.csr.count.toNat val it i u)
      ⟨rfl, Nat.zero_le _, CopyAt_start hs h0⟩ (fun it _ i hi u hu => ?_) fun it _ u hu => by omega)
      (fun t ht => by omega) fun _ h => h
    obtain ⟨rfl, hib, hu⟩ := hu
    rcases Nat.lt_or_eq_of_le hib with hlt | rfl
    · exact Flow_holds_mono (copyBody_writes hu hr hi (hR i hlt) (hW i hlt) (hsrc i u hlt hu).1 (hsrc i u hlt hu).2)
        (fun _ h => ⟨rfl, hlt, h⟩) fun _ h => h
    · rw [hend u hu]
      exact ⟨u, rfl, hu⟩
  obtain ⟨t, ht, u, rfl, hu⟩ := Flow_holds_ended_iff.1 key
  exact ⟨u, ht, hu⟩

/-- The loop of a copying command whose check refuses element b of iteration 0 first: the elements before b are written,
nothing else has changed, and CORRUPTION_DETECTED(b, 0) ends it. -/
theorem stream_copy_invalid {s : State} {ss ds b : Nat} {ok : Nat → Bool} {f : Params → Nat → Nat} {val : Nat → Nat → Nat}
    (hs : s.mem.Pairwise fun c d => c.1 < d.1) (hr : s.raced = [])
    (hR : ∀ i ≤ b, s.admits (elemAddr s.csr.src.toNat i ss) ss = true)
    (hW : ∀ i < b, s.admits (elemAddr s.csr.dst.toNat i ds) ds = true)
    (h0 : ∀ j < s.csr.count.toNat, s.mem.readLE (elemAddr s.csr.dst.toNat j ds) ds = val 0 j)
    (hb : b < s.csr.count.toNat) (hit : 0 < s.csr.iter.toNat)
    (hsrc : ∀ i u, i < b → CopyAt s ds s.csr.count.toNat val 0 i u →
      ok (u.mem.readLE (elemAddr s.csr.src.toNat i ss) ss) = true ∧
        f s.params (u.mem.readLE (elemAddr s.csr.src.toNat i ss) ss) % 2 ^ (8 * ds) = val 1 i)
    (hbad : ∀ u, CopyAt s ds s.csr.count.toNat val 0 b u →
      ok (u.mem.readLE (elemAddr s.csr.src.toNat b ss) ss) = false) :
    ∃ u, s.stream (copyBody ss ds ok f) = .ended (u.raiseHere .corruptionDetected)
      ∧ CopyAt s ds s.csr.count.toNat val 0 b u :=
  stream_copy_ends hs hr (fun i hi => hR i hi.le) hW h0 hb hit hsrc
    fun u hu => copyBody_invalid hu hr (hR b le_rfl) (hbad u hu)

/-- The loop of a copying command an access of whose element b of iteration 0 is refused first: the elements before b are
written, nothing else has changed, and BUS_ERROR(b, 0) ends it. -/
theorem stream_copy_refused {s : State} {ss ds b : Nat} {ok : Nat → Bool} {f : Params → Nat → Nat} {val : Nat → Nat → Nat}
    (hs : s.mem.Pairwise fun c d => c.1 < d.1) (hr : s.raced = [])
    (hR : ∀ i < b, s.admits (elemAddr s.csr.src.toNat i ss) ss = true)
    (hW : ∀ i < b, s.admits (elemAddr s.csr.dst.toNat i ds) ds = true)
    (h0 : ∀ j < s.csr.count.toNat, s.mem.readLE (elemAddr s.csr.dst.toNat j ds) ds = val 0 j)
    (hb : b < s.csr.count.toNat) (hit : 0 < s.csr.iter.toNat)
    (hsrc : ∀ i u, i < b → CopyAt s ds s.csr.count.toNat val 0 i u →
      ok (u.mem.readLE (elemAddr s.csr.src.toNat i ss) ss) = true ∧
        f s.params (u.mem.readLE (elemAddr s.csr.src.toNat i ss) ss) % 2 ^ (8 * ds) = val 1 i)
    (hno : ∀ u, CopyAt s ds s.csr.count.toNat val 0 b u →
      s.admits (elemAddr s.csr.src.toNat b ss) ss = false ∨
        s.admits (elemAddr s.csr.src.toNat b ss) ss = true ∧ s.admits (elemAddr s.csr.dst.toNat b ds) ds = false ∧
          ok (u.mem.readLE (elemAddr s.csr.src.toNat b ss) ss) = true) :
    ∃ u, s.stream (copyBody ss ds ok f) = .ended (u.raiseHere .busError)
      ∧ CopyAt s ds s.csr.count.toNat val 0 b u :=
  stream_copy_ends hs hr hR hW h0 hb hit hsrc fun u hu => copyBody_refused hu hr (hno u hu)

/-- What a disjoint source reads as is untouched while the loop writes the destination. -/
theorem CopyAt_source {s u : State} {ss ds n it i : Nat} {val : Nat → Nat → Nat} (h : CopyAt s ds n val it i u)
    (hi : i < n) (hd : rangesMeet s.csr.src.toNat (n * ss) s.csr.dst.toNat (n * ds) = false) :
    u.mem.readLE (elemAddr s.csr.src.toNat i ss) ss = s.mem.readLE (elemAddr s.csr.src.toNat i ss) ss := by
  refine Memory_readLE_congr fun t ht => h.others _ ?_
  have h1 : (i + 1) * ss ≤ n * ss := Nat.mul_le_mul_right _ hi
  have h2 : (i + 1) * ss = i * ss + ss := Nat.succ_mul i ss
  have h3 : i * ds ≤ n * ds := Nat.mul_le_mul_right _ hi.le
  rw [rangesMeet_eq_false] at hd
  rw [inRange_eq_false]
  simp only [elemAddr]
  split <;> omega

end Sys2Proof.Machine
end

