-- ==== Sys2Proof/Tests/Slice0.lean ====
section
/-! SUPPORT. Tests of the model: the well-formedness smoke, decoding of words written out from 30_encoding.md, one step of
each instruction with the expected values of 95_test_vectors.md, and for every statement with hypotheses a witness that
meets them all. -/

namespace Sys2Proof.Tests

-- One theorem at a time: many kernel evaluations waiting for one another would each hold a thread.
set_option Elab.async false

open Sys2Proof Sys2Proof.Machine

/-! ### Well-formedness refuses each ill-formed shape (30_encoding.md R117, R122(d)) -/

theorem test_wellFormed_refuses_hpar_e8 : (Instr.vhpar 2 1 .e8 .unsigned 0).wellFormed = false := by decide

theorem test_wellFormed_refuses_hpar_e64 : (Instr.vhpar 2 1 .e64 .unsigned 7).wellFormed = false := by decide

theorem test_wellFormed_refuses_hpar_e16_k5 : (Instr.vhpar 2 1 .e16 .unsigned 5).wellFormed = false := by decide

theorem test_wellFormed_refuses_hpar_e16_k6 : (Instr.vhpar 2 1 .e16 .unsigned 6).wellFormed = false := by decide

theorem test_wellFormed_refuses_hpar_e32_k6 : (Instr.vhpar 2 1 .e32 .unsigned 6).wellFormed = false := by decide

/-! ### Decoding: words written out field by field from 30_encoding.md R111 to R113, R119 -/

/-- Format N: OPC, then 24 zero bits. -/
theorem test_decode_formatN :
    decode 0b00000001_000000000000000000000000 = .ok .nop ∧ decode 0b00010000_000000000000000000000000 = .ok .seta ∧
    decode 0b00010001_000000000000000000000000 = .ok .modinv ∧ decode 0b00100000_000000000000000000000000 = .ok .enc ∧
    decode 0b00100001_000000000000000000000000 = .ok .chk ∧ decode 0b00100010_000000000000000000000000 = .ok .dec ∧
    decode 0b00100011_000000000000000000000000 = .ok .decchk ∧ decode 0b00100100_000000000000000000000000 = .ok .reenc ∧
    decode 0b00101000_000000000000000000000000 = .ok .arithAdd ∧ decode 0b00101001_000000000000000000000000 = .ok .arithSub ∧
    decode 0b00101010_000000000000000000000000 = .ok .arithMul ∧ decode 0b00101011_000000000000000000000000 = .ok .arithDiv ∧
    decode 0b00110000_000000000000000000000000 = .ok .henc ∧ decode 0b00110001_000000000000000000000000 = .ok .hchk := by
  decide +kernel

/-- Format M: OPC, VR, 5 zero bits, IMM16. -/
theorem test_decode_formatM :
    decode 0b01000000_010_00000_0000000001000000 = .ok (.vld 2 0x40) ∧
    decode 0b01000001_101_00000_1000000000000001 = .ok (.vst 5 0x8001) := by decide +kernel

/-- Format R: OPC, VD, VS1, VS2, EW, S, F, 9 zero bits. -/
theorem test_decode_formatR_arith :
    decode 0b01001000_001_010_011_10_0_000_000000000 = .ok (.vadd 1 2 3 .e32 .unsigned) ∧
    decode 0b01001001_111_000_110_00_1_000_000000000 = .ok (.vsub 7 0 6 .e8 .signed) ∧
    decode 0b01001010_010_100_001_01_0_000_000000000 = .ok (.vmullo 2 4 1 .e16 .unsigned) ∧
    decode 0b01001011_010_000_001_10_1_000_000000000 = .ok (.vdiv 2 0 1 .e32 .signed) ∧
    decode 0b01001100_011_110_101_11_0_000_000000000 = .ok (.vmin 3 6 5 .e64 .unsigned) ∧
    decode 0b01001101_100_001_010_00_1_000_000000000 = .ok (.vmax 4 1 2 .e8 .signed) := by decide +kernel

/-- VCMP: F names the condition (30_encoding.md R116). -/
theorem test_decode_compares :
    decode 0b01010000_100_101_110_01_1_000_000000000 = .ok (.vcmpLt 4 5 6 .e16 .signed) ∧
    decode 0b01010000_100_101_110_01_1_001_000000000 = .ok (.vcmpLe 4 5 6 .e16 .signed) ∧
    decode 0b01010000_100_101_110_01_1_010_000000000 = .ok (.vcmpEq 4 5 6 .e16 .signed) ∧
    decode 0b01010000_100_101_110_01_1_011_000000000 = .ok (.vcmpNe 4 5 6 .e16 .signed) ∧
    decode 0b01010000_100_101_110_01_1_100_000000000 = .ok (.vcmpGe 4 5 6 .e16 .signed) ∧
    decode 0b01010000_100_101_110_01_1_101_000000000 = .ok (.vcmpGt 4 5 6 .e16 .signed) := by decide +kernel

theorem test_decode_reductions :
    decode 0b01011000_010_001_000_10_0_000_000000000 = .ok (.vredsum 2 1 .e32 .unsigned) ∧
    decode 0b01011001_010_000_000_10_1_000_000000000 = .ok (.vredmin 2 0 .e32 .signed) ∧
    decode 0b01011010_110_011_000_00_0_000_000000000 = .ok (.vredmax 6 3 .e8 .unsigned) ∧
    decode 0b01011100_010_000_000_11_0_000_000000000 = .ok (.vpopcnt 2 0 .e64 .unsigned) ∧
    decode 0b01011110_010_000_001_10_0_000_000000000 = .ok (.vcompress 2 0 1 .e32 .unsigned) ∧
    decode 0b01100000_001_010_000_01_0_111_000000000 = .ok (.vhpar 1 2 .e16 .unsigned 7) ∧
    decode 0b01100000_010_001_000_10_0_101_000000000 = .ok (.vhpar 2 1 .e32 .unsigned 5) := by decide +kernel

/-- The illegal words of 95_test_vectors.md section 7, each by its reason (30_encoding.md R122). -/
theorem test_decode_illegal :
    decode 0x00000000 = .error .unknownOpcode ∧ decode 0x02000000 = .error .unknownOpcode ∧
    decode 0x20000001 = .error .reservedBits ∧ decode 0x40210000 = .error .reservedBits ∧
    decode 0x4840C200 = .error .reservedBits ∧ decode 0x4840C001 = .error .reservedBits ∧
    decode 0x5840C000 = .error .reservedBits ∧ decode 0x5040CC00 = .error .compareCondition ∧
    decode 0x5040CE00 = .error .compareCondition ∧ decode 0x60442A00 = .error .parityIndex ∧
    decode 0x60444C00 = .error .parityIndex ∧ decode 0x60440000 = .error .parityIndex ∧
    decode 0x60446000 = .error .parityIndex ∧ decode 0x6044A000 = .error .reservedBits := by decide +kernel

/-! ### Small states -/

/-- The outcome is a next state with the property. -/
def gives (o : Host.Outcome State Fault Refusal) (p : State → Bool) : Bool :=
  match o with
  | .next t => p t
  | _ => false

/-- Memory with the values vs as elements of n bytes from a. -/
def memOf (a n : Nat) (vs : List Nat) : Memory := vs.zipIdx.foldl (fun m v => m.writeLE (a + v.2 * n) n v.1) []

/-- The elements of n bytes from a. -/
def elems (t : State) (a n k : Nat) : List Nat := (List.range k).map fun i => t.mem.readLE (a + i * n) n

/-- STATUS as the host reads it. -/
def status (t : State) : Nat := (t.csrValue .status).toNat

/-- A running stream command over COUNT elements, A = 63877 committed for w = 16 (95_test_vectors.md section 0, AN16). -/
def an (cfg src dst count iter : Word) (m : Memory) : State :=
  { State.reset with
    csr := { Csrs.reset with
      cmd := 0x20000000, busy := true, cfg := cfg, a := 63877, ainv := 0xD142174D, aw := 3, src := src, dst := dst,
      count := count, iter := iter }
    mem := m }

/-- A register of lanes at width n. -/
def reg (n : Nat) (vs : List Nat) : VReg := ⟨packLanes (vs.map (BitVec.ofNat n)), true⟩

/-- v0 and v1 written, the others not. -/
def vecs (n : Nat) (x y : List Nat) : State :=
  { State.reset with vregs := ((State.reset.vregs.set 0 (reg n x)).set 1 (reg n y)) }

/-- Lanes of v[r] at width n. -/
def lanesOf (t : State) (r : VNum) (n k : Nat) : List Nat := (lanes (t.vregs.get r).val n k).map (·.toNat)

/-! ### Steps and the host (95_test_vectors.md section 7) -/

/-- K12: the high half of a CMD write is dropped, and the next step runs the NOP. -/
theorem test_cmd_write :
    gives (step { State.reset with schedule := [.host (.mmioWrite 0x10 8 0xFFFFFFFF01000000)] })
      (fun t => t.csr.busy && t.csr.cmd == 0x01000000 && gives (step t) fun u => status u == 0x002) = true := by
  decide +kernel

/-- K9, K10: COUNT and CMD writes while BUSY are ignored and set OVR. -/
theorem test_busy_write :
    (gives (step { an 1 0 0 4 1 [] with schedule := [.host (.mmioWrite 0x58 8 9)] })
      fun t => t.csr.count == 4 && t.csr.ovr) = true ∧
    (gives (step { an 1 0 0 4 1 [] with schedule := [.host (.mmioWrite 0x10 8 0x01000000)] })
      fun t => t.csr.cmd == 0x20000000 && t.csr.ovr) = true := by decide +kernel

/-- K4: CFG keeps no reserved bit. K6: a 4-byte write is ignored. -/
theorem test_cfg_write :
    (gives (step { State.reset with schedule := [.host (.mmioWrite 0x20 8 0xFFFFFFFFFFFFFFFF)] })
      fun t => t.csr.cfg == 0xFF7F) = true ∧
    (gives (step { State.reset with schedule := [.host (.mmioWrite 0x20 4 0xFFFFFFFFFFFFFFFF)] })
      fun t => t.csr.cfg == 0) = true := by decide +kernel

/-- K1, K2: ID and PARAM. -/
theorem test_id_param :
    (gives (step { State.reset with schedule := [.host (.mmioRead 0x00 8)] }) fun t => t.rdata == 0x414E4801) = true ∧
    (gives (step { State.reset with schedule := [.host (.mmioRead 0x08 8)] }) fun t => t.rdata == 0x700) = true := by
  decide +kernel

/-- K8, K11: STATUS bits 1 and 2 clear DONE and OVR, ERR stays. -/
theorem test_status_write :
    (gives (step { State.reset with
        csr := { Csrs.reset with done := true, ovr := true, err := .corruptionDetected }
        schedule := [.host (.mmioWrite 0x18 8 2)] }) fun t => status t == 0x404) = true := by decide +kernel

/-- R35's fields with every flag set, and BUFFER_OVERLAP's number. -/
theorem test_status_word :
    ({ Csrs.reset with busy := true, done := true, ovr := true, err := .bufferOverlap } : Csrs).statusWord = 0x807 := by
  decide +kernel

/-- Z1: the reset input restores the CSRs and keeps memory. -/
theorem test_reset_input :
    (gives (step { (an 1 0x1000 0x2000 0 1 (memOf 0x1000 1 [7])).complete with schedule := [.host .reset] })
      fun t => t.csr == Csrs.reset && t.mem == memOf 0x1000 1 [7]) = true := by decide +kernel

/-- The host's word placed by `withFetchWord` is the next to run. -/
theorem test_withFetchWord :
    (gives (step (State.reset.withFetchWord 32 0x01000000)) fun t => t.csr.cmd == 0x01000000 && status t == 2) = true := by
  decide +kernel

/-! ### Control and solver (95_test_vectors.md section 5) -/

/-- S1 -/
theorem test_nop : (gives (exec .nop (State.reset.accept 0x01000000)) fun t => status t == 0x002) = true := by decide +kernel

/-- S2 -/
theorem test_seta :
    (gives (exec .seta { State.reset with csr := { Csrs.reset with cfg := 1, aIn := 63877 } })
      fun t => status t == 0x002 && t.csr.a == 0xF985 && t.csr.ainv == 0xD142174D && t.csr.aw == 3) = true := by
  decide +kernel

/-- P-7: the size check precedes the parity check. -/
theorem test_seta_size_first :
    (gives (exec .seta { State.reset with csr := { Csrs.reset with cfg := 1, aIn := 0x10000 } })
      fun t => status t == 0x202 && t.csr.a == 0 && t.csr.aw == 0) = true := by decide +kernel

/-- S11 -/
theorem test_modinv :
    (gives (exec .modinv { State.reset with csr := { Csrs.reset with solvB := 0xDEADBEEF, solvK := 64 } })
      fun t => status t == 0x002 && t.csr.solvA == 0xE102F06B904B300F) = true := by decide +kernel

/-- S14: the k check precedes the parity check. -/
theorem test_modinv_k_first :
    (gives (exec .modinv { State.reset with csr := { Csrs.reset with solvB := 4, solvA := 0xAB } })
      fun t => status t == 0x202 && t.csr.solvA == 0xAB) = true := by decide +kernel

/-! ### AN codec (95_test_vectors.md section 2.3) -/

/-- A1, with ITER = 2 (A2). -/
theorem test_enc :
    (gives (exec .enc (an 1 0x1000 0x2000 4 2 (memOf 0x1000 2 [0, 1, 65535, 12345])))
      fun t => status t == 0x002 && elems t 0x2000 4 4 == [0x0, 0xF985, 0xF984067B, 0x2F007E9D]) = true := by
  decide +kernel

/-- A29: the write of element 2 at 0x10000 is refused. -/
theorem test_enc_bus_error :
    (gives (exec .enc (an 1 0x1000 0xFFF8 4 1 (memOf 0x1000 2 [0, 1, 65535, 12345])))
      fun t => status t == 0x702 && t.csr.failIndex == 2 && t.csr.failIter == 0 && elems t 0xFFF8 4 2 == [0x0, 0xF985])
      = true := by decide +kernel

/-- A5 -/
theorem test_chk :
    (gives (exec .chk (an 1 0x2000 0 4 3 (memOf 0x2000 4 [0x0, 0xF985, 0xF984067B, 0x2F007E9D])))
      fun t => status t == 0x002) = true := by decide +kernel

/-- A7: the divmod layout. -/
theorem test_chk_corrupt :
    (gives (exec .chk (an 9 0x2000 0 4 3 (memOf 0x2000 4 [0x0, 0xF985, 0xF984067C, 0x2F007E9D])))
      fun t => status t == 0x402 && t.csr.failIndex == 2 && t.csr.failIter == 0) = true := by decide +kernel

/-- A11 -/
theorem test_dec :
    (gives (exec .dec (an 1 0x2000 0x3000 4 1 (memOf 0x2000 4 [0x0, 0xF985, 0xF984067B, 0x2F007E9D])))
      fun t => status t == 0x002 && elems t 0x3000 2 4 == [0, 1, 0xFFFF, 0x3039]) = true := by decide +kernel

/-- A13: the invalid element is not written. -/
theorem test_decchk :
    (gives (exec .decchk (an 1 0x2000 0x3000 3 1
        ((memOf 0x2000 4 [0x0, 0xF985, 0xF984067C]).writeLE 0x3000 6 0xAAAAAAAAAAAA)))
      fun t => status t == 0x402 && t.csr.failIndex == 2 && elems t 0x3000 2 3 == [0, 1, 0xAAAA]) = true := by
  decide +kernel

/-- A15 -/
theorem test_reenc :
    (gives (exec .reenc
        (let s := an 1 0x2000 0x2000 1 1 (memOf 0x2000 4 [0xF985]); { s with csr := { s.csr with aIn := 233 } }))
      fun t => status t == 0x002 && elems t 0x2000 4 1 == [0xE9] && t.csr.a == 233 && t.csr.ainv == 0x1FDCD759
        && t.csr.aw == 3) = true := by decide +kernel

/-- A18: the second pass in place finds elements of the new code; the pair is not committed. -/
theorem test_reenc_twice :
    (gives (exec .reenc
        (let s := an 1 0x2000 0x2000 2 2 (memOf 0x2000 4 [0xE9, 0x1D2]);
         { s with csr := { s.csr with a := 233, ainv := 0x1FDCD759, aIn := 63877 } }))
      fun t => status t == 0x402 && t.csr.failIndex == 0 && t.csr.failIter == 1 && elems t 0x2000 4 2 == [0xF985, 0x1F30A]
        && t.csr.a == 233) = true := by decide +kernel

/-- A27: in place, raw and encoded sizes differ. -/
theorem test_overlap :
    (gives (exec .enc (an 1 0x1000 0x1000 2 1 [])) fun t => status t == 0x802 && t.mem == []) = true := by decide +kernel

/-! ### AN arithmetic (95_test_vectors.md section 3) -/

/-- One element e at 0x2000 through an ARITH command to 0x3000. -/
def arith (i : Instr) (cfg : Word) (e : Nat) (o : Word) : Host.Outcome State Fault Refusal :=
  exec i (let s := an cfg 0x2000 0x3000 1 1 (memOf 0x2000 4 [e]); { s with csr := { s.csr with operand := o } })

/-- M1 and M15 -/
theorem test_arithAdd :
    gives (arith .arithAdd 1 0x006177F4 23) (fun t => elems t 0x3000 4 1 == [0x0077E2E7]) = true ∧
    gives (arith .arithAdd 1 0xF984067B 23) (fun t => elems t 0x3000 4 1 == [0xF99A716E]) = true := by decide +kernel

/-- M4 -/
theorem test_arithSub :
    gives (arith .arithSub 5 0x00166AF3 100) (fun t => elems t 0x3000 4 1 == [0xFFB4F2FF]) = true := by decide +kernel

/-- M6 and M12: the operand is not scaled. -/
theorem test_arithMul :
    gives (arith .arithMul 1 0x012467DC 300) (fun t => elems t 0x3000 4 1 == [0x56A9B5D0]) = true ∧
    gives (arith .arithMul 5 0xFFFF067B 0xFFFF) (fun t => elems t 0x3000 4 1 == [0x0000F985]) = true := by decide +kernel

/-- M9 and M14: truncation toward zero, and the quotient that wraps. -/
theorem test_arithDiv :
    gives (arith .arithDiv 5 0xFFF640CE 3) (fun t => elems t 0x3000 4 1 == [0xFFFCC045]) = true ∧
    gives (arith .arithDiv 5 0x80000000 0xFFFF) (fun t => elems t 0x3000 4 1 == [0x80000000]) = true := by decide +kernel

/-- M21: only OPERAND[15:0] counts. -/
theorem test_arithDiv_zero :
    gives (arith .arithDiv 1 0x006177F4 0x10000) (fun t => status t == 0x602 && elems t 0x3000 4 1 == [0]) = true := by
  decide +kernel

/-- M24: in place, three times. -/
theorem test_arith_in_place :
    (gives (exec .arithAdd (let s := an 1 0x2000 0x2000 1 3 []; { s with csr := { s.csr with operand := 1 } }))
      fun t => elems t 0x2000 4 1 == [0x0002EC8F]) = true := by decide +kernel

/-! ### Hamming codec (95_test_vectors.md section 4.3) -/

/-- H1 -/
theorem test_henc16 :
    (gives (exec .henc (an 1 0x1000 0x2000 3 1 (memOf 0x1000 2 [0x1234, 0xFFFF, 0x0001])))
      fun t => elems t 0x2000 4 3 == [0x00321234, 0x003CFFFF, 0x00070001]) = true := by decide +kernel

/-- H2 -/
theorem test_henc32 :
    (gives (exec .henc (an 2 0x1000 0x2000 2 1 (memOf 0x1000 4 [0x12345678, 0xDEADBEEF])))
      fun t => elems t 0x2000 8 2 == [0x5B12345678, 0x47DEADBEEF]) = true := by decide +kernel

/-- H5: every pass counts, the first mismatch is reported. -/
theorem test_hchk :
    (gives (exec .hchk (an 1 0x2000 0 2 3 (memOf 0x2000 4 [0x00321234, 0x00331234])))
      fun t => status t == 0x502 && t.csr.hmcount == 3 && t.csr.failIndex == 1 && t.csr.failIter == 0) = true := by
  decide +kernel

/-- H11: the refused read keeps the count. -/
theorem test_hchk_bus_error :
    (gives (exec .hchk (an 1 0xFFF8 0 3 1 (memOf 0xFFF8 4 [0x00331234, 0x00331234])))
      fun t => status t == 0x702 && t.csr.hmcount == 2 && t.csr.failIndex == 2 && t.csr.failIter == 0) = true := by
  decide +kernel

/-! ### SIMD vector layer (95_test_vectors.md section 6) -/

/-- V2: a misaligned load of the 16 bytes 1 .. 16. -/
theorem test_vld :
    (gives (exec (.vld 1 0) { State.reset with
        csr := { Csrs.reset with vbase := 0x1003 }, mem := memOf 0x1003 1 ((List.range 16).map (· + 1)) })
      fun t => lanesOf t 1 8 16 == (List.range 16).map (· + 1)) = true := by decide +kernel

/-- V4: an access past 2^64 is refused, not wrapped. -/
theorem test_vld_refused :
    (gives (exec (.vld 1 0x10) { State.reset with csr := { Csrs.reset with vbase := 0xFFFFFFFFFFFFFFF8 } })
      fun t => status t == 0x702 && t.csr.failIndex == 0 && !(t.vregs.get 1).written) = true := by decide +kernel

/-- V5 -/
theorem test_vst :
    (gives (exec (.vst 1 0x10) (let s := vecs 32 [] [1, 2, 3, 4]; { s with csr := { s.csr with vbase := 0x2000 } }))
      fun t => elems t 0x2010 4 4 == [1, 2, 3, 4]) = true := by decide +kernel

/-- v0 written and v1 never, on a machine with the given VREG_UNINIT. -/
def v1Unwritten (u : VregUninit) : State :=
  { State.reset with params := { Config.params with vregUninit := u }, vregs := State.reset.vregs.set 0 (reg 32 [1, 2]) }

/-- V35, Z3: a read of a register nothing has written puts the fault of R56 on record, and the instruction runs on what the
register holds (0 after reset, notes/assumptions/6.md). -/
theorem test_unwritten_recorded :
    gives (exec (.vadd 2 0 1 .e32 .unsigned) (v1Unwritten .fault))
      (fun t => t.vregFault == some 1 && lanesOf t 2 32 2 == [1, 2]) = true ∧
    gives (exec (.vst 0 0) { State.reset with csr := { Csrs.reset with vbase := 0x2000 } })
      (fun t => t.vregFault == some 0 && status t == 0x002) = true := by decide +kernel

/-- With VREG_UNINIT = value nothing is recorded. -/
theorem test_unwritten_value :
    gives (exec (.vadd 2 0 1 .e32 .unsigned) (v1Unwritten .value))
      (fun t => t.vregFault == none && lanesOf t 2 32 2 == [1, 2]) = true := by decide +kernel

/-- V7's last lane wraps. V34: the destination is both sources. -/
theorem test_vadd :
    gives (exec (.vadd 2 0 1 .e32 .unsigned) (vecs 32 [1, 2, 3, 0xFFFFFFFF] [10, 20, 30, 1]))
      (fun t => lanesOf t 2 32 4 == [11, 22, 33, 0]) = true ∧
    gives (exec (.vadd 0 0 0 .e32 .unsigned) (vecs 32 [1, 2, 3, 4] []))
      (fun t => lanesOf t 0 32 4 == [2, 4, 6, 8]) = true := by decide +kernel

/-- V8 -/
theorem test_vsub :
    gives (exec (.vsub 2 0 1 .e8 .unsigned) (vecs 8 [5, 0] [3, 1])) (fun t => lanesOf t 2 8 2 == [2, 0xFF]) = true := by
  decide +kernel

/-- V9 -/
theorem test_vmullo :
    gives (exec (.vmullo 2 0 1 .e16 .unsigned) (vecs 16 [300, 3, 0xFFFF] [300, 5, 0xFFFF]))
      (fun t => lanesOf t 2 16 3 == [0x5F90, 15, 1]) = true := by decide +kernel

/-- V10 -/
theorem test_vdiv :
    gives (exec (.vdiv 2 0 1 .e32 .signed)
        (vecs 32 [0xFFFFFFF9, 7, 100, 0x80000000] [2, 0xFFFFFFFE, 10, 0xFFFFFFFF]))
      (fun t => lanesOf t 2 32 4 == [0xFFFFFFFD, 0xFFFFFFFD, 0xA, 0x80000000]) = true := by decide +kernel

/-- V11 -/
theorem test_vdiv_zero :
    gives (exec (.vdiv 2 0 1 .e32 .unsigned) (vecs 32 [1, 2, 3, 4] [1, 0, 1, 0]))
      (fun t => status t == 0x602 && t.csr.failIndex == 1 && !(t.vregs.get 2).written) = true := by decide +kernel

/-- V12, V13 -/
theorem test_vmin :
    gives (exec (.vmin 2 0 1 .e8 .unsigned) (vecs 8 [0x80] [1])) (fun t => lanesOf t 2 8 1 == [1]) = true ∧
    gives (exec (.vmin 2 0 1 .e8 .signed) (vecs 8 [0x80] [1])) (fun t => lanesOf t 2 8 1 == [0x80]) = true := by
  decide +kernel

/-- V14, V15 -/
theorem test_vmax :
    gives (exec (.vmax 2 0 1 .e8 .unsigned) (vecs 8 [0x80] [1])) (fun t => lanesOf t 2 8 1 == [0x80]) = true ∧
    gives (exec (.vmax 2 0 1 .e8 .signed) (vecs 8 [0x80] [1])) (fun t => lanesOf t 2 8 1 == [1]) = true := by
  decide +kernel

/-- The inputs of V16 to V23. -/
def cmp (i : Instr) (r : List Nat) : Bool :=
  gives (exec i (vecs 32 [1, 0xFFFFFFFF, 5, 0] [2, 2, 2, 0])) fun t => lanesOf t 2 32 4 == r

/-- V16, V17 -/
theorem test_vcmpLt :
    cmp (.vcmpLt 2 0 1 .e32 .signed) [0xFFFFFFFF, 0xFFFFFFFF, 0, 0] = true ∧
    cmp (.vcmpLt 2 0 1 .e32 .unsigned) [0xFFFFFFFF, 0, 0, 0] = true := by decide +kernel

/-- V18 -/
theorem test_vcmpLe : cmp (.vcmpLe 2 0 1 .e32 .signed) [0xFFFFFFFF, 0xFFFFFFFF, 0, 0xFFFFFFFF] = true := by decide +kernel

/-- V19 -/
theorem test_vcmpEq : cmp (.vcmpEq 2 0 1 .e32 .signed) [0, 0, 0, 0xFFFFFFFF] = true := by decide +kernel

/-- V20 -/
theorem test_vcmpNe : cmp (.vcmpNe 2 0 1 .e32 .signed) [0xFFFFFFFF, 0xFFFFFFFF, 0xFFFFFFFF, 0] = true := by decide +kernel

/-- V21, V22 -/
theorem test_vcmpGe :
    cmp (.vcmpGe 2 0 1 .e32 .signed) [0, 0, 0xFFFFFFFF, 0xFFFFFFFF] = true ∧
    cmp (.vcmpGe 2 0 1 .e32 .unsigned) [0, 0xFFFFFFFF, 0xFFFFFFFF, 0xFFFFFFFF] = true := by decide +kernel

/-- V23 -/
theorem test_vcmpGt : cmp (.vcmpGt 2 0 1 .e32 .signed) [0, 0, 0xFFFFFFFF, 0] = true := by decide +kernel

/-- V24 -/
theorem test_vredsum :
    gives (exec (.vredsum 2 0 .e8 .unsigned) (vecs 8 (List.replicate 16 0xFF) []))
      (fun t => (t.vregs.get 2).val == 0xF0) = true := by decide +kernel

/-- V26, V27 -/
theorem test_vredmin :
    gives (exec (.vredmin 2 0 .e32 .signed) (vecs 32 [1, 2, 3, 0xFFFFFFFF] []))
      (fun t => (t.vregs.get 2).val == 0xFFFFFFFF) = true ∧
    gives (exec (.vredmin 2 0 .e32 .unsigned) (vecs 32 [1, 2, 3, 0xFFFFFFFF] []))
      (fun t => (t.vregs.get 2).val == 1) = true := by decide +kernel

/-- V28, V29 -/
theorem test_vredmax :
    gives (exec (.vredmax 2 0 .e32 .signed) (vecs 32 [1, 2, 3, 0xFFFFFFFF] []))
      (fun t => (t.vregs.get 2).val == 3) = true ∧
    gives (exec (.vredmax 2 0 .e32 .unsigned) (vecs 32 [1, 2, 3, 0xFFFFFFFF] []))
      (fun t => (t.vregs.get 2).val == 0xFFFFFFFF) = true := by decide +kernel

/-- V30 -/
theorem test_vpopcnt :
    gives (exec (.vpopcnt 2 0 .e64 .unsigned) (vecs 64 [0xFFFFFFFFFFFFFFFF, 1] []))
      (fun t => lanesOf t 2 64 2 == [64, 1]) = true := by decide +kernel

/-- V31, V33 -/
theorem test_vcompress :
    gives (exec (.vcompress 2 0 1 .e32 .unsigned) (vecs 32 [10, 20, 30, 40] [0, 0xFFFFFFFF, 0, 0xFFFFFFFF]))
      (fun t => lanesOf t 2 32 4 == [20, 40, 0, 0] && t.csr.vcnt == 2) = true ∧
    gives (exec (.vcompress 2 0 1 .e32 .unsigned) (vecs 32 [10, 20, 30, 40] [1, 2, 3, 4]))
      (fun t => lanesOf t 2 32 4 == [10, 20, 30, 40] && t.csr.vcnt == 4) = true := by decide +kernel

/-- The lanes of the VHPAR table at 16 bits. -/
def hparLanes : List Nat := [0x0000, 0xFFFF, 0x1234, 0x0001, 0x8000, 0xAD5B, 0x00FF, 0x7FFF]

/-- VHPAR.u16 with K = 3 and with the overall parity. -/
theorem test_vhpar :
    gives (exec (.vhpar 2 1 .e16 .unsigned 3) (vecs 16 [] hparLanes)) (fun t => (t.vregs.get 2).val == 0x86) = true ∧
    gives (exec (.vhpar 2 1 .e16 .unsigned 7) (vecs 16 [] hparLanes)) (fun t => (t.vregs.get 2).val == 0x28) = true := by
  decide +kernel

/-! ### Witnesses: states that meet all hypotheses of each statement together -/

theorem exists_next {o : Host.Outcome State Fault Refusal} {p : State → Bool} (h : gives o p = true) :
    ∃ t, o = .next t ∧ p t = true := by
  cases o with
  | next t => exact ⟨t, rfl, h⟩
  | fault _ => cases h
  | refused _ => cases h

def readsReadyB (s : State) (ss : Nat) : Bool :=
  decide s.mem.wf && s.raced.isEmpty
    && (List.range s.csr.count.toNat).all fun i => s.admits (elemAddr s.csr.src.toNat i ss) ss

theorem readsReady_of {s : State} {ss : Nat} (h : readsReadyB s ss = true) : ReadsReady s ss := by
  simp only [readsReadyB, Bool.and_eq_true, decide_eq_true_eq, List.isEmpty_iff, List.all_eq_true, List.mem_range] at h
  exact ⟨h.1.1, h.1.2, h.2⟩

/-- s with A_IN = v. -/
def withAIn (s : State) (v : Word) : State := { s with csr := { s.csr with aIn := v } }

/-- s with OPERAND = v. -/
def withOp (s : State) (v : Word) : State := { s with csr := { s.csr with operand := v } }

/-- Four raw elements, the destination apart. -/
def rawBuf (iter : Word) : State := an 1 0x1000 0x2000 4 iter (memOf 0x1000 2 [0, 1, 65535, 12345])

/-- Four valid codewords at 0x1000. -/
def codeBuf (dst iter : Word) : State :=
  an 1 0x1000 dst 4 iter (memOf 0x1000 4 [0x0, 0xF985, 0xF984067B, 0x2F007E9D])

/-- The same with an invalid element 2. -/
def badBuf (dst : Word) : State := an 1 0x1000 dst 4 1 (memOf 0x1000 4 [0x0, 0xF985, 0xF984067C, 0x2F007E9D])

/-- Three records at w = 16, the second of them wrong, in a window that admits n bytes from 0x1000. -/
def recBuf (n : Nat) : State :=
  { an 1 0x1000 0x2000 3 2 (memOf 0x1000 4 [0x00321234, 0x00331234, 0x003CFFFF]) with
    params := { Config.params with memMap := [⟨0x1000, 0x1000 + n, Config.accessSizes⟩] } }

theorem witness_DecodeOfEncodeIsIdentity :
    (Instr.vhpar 7 7 .e16 .signed 4).wellFormed = true ∧ (Instr.vhpar 0 0 .e32 .unsigned 5).wellFormed = true ∧
    (Instr.vhpar 0 1 .e32 .unsigned 7).wellFormed = true ∧ (Instr.vst 7 0xFFFF).wellFormed = true := by decide

theorem witness_LegalWordsAreEncodings : ∃ (w : CmdWord) (i : Instr), decode w = .ok i :=
  ⟨0x41E0FFFF, .vst 7 0xFFFF, by decide +kernel⟩

theorem witness_IllegalWordsRaiseIllegalCommand :
    ((State.reset.accept 0).csr.busy = true ∧ IllegalByRule (State.reset.accept 0).csr.cmd ∧
      (State.reset.accept 0).schedule = []) ∧
    ((State.reset.issue 0x60444C00).csr.busy = true ∧ IllegalByRule (State.reset.issue 0x60444C00).csr.cmd ∧
      (State.reset.issue 0x60444C00).schedule = .core :: []) ∧
    IllegalByRule 0x00000000 ∧ IllegalByRule 0xFFFFFFFF ∧ IllegalByRule 0x20000001 ∧ IllegalByRule 0x40210000 ∧
    IllegalByRule 0x4840C200 ∧ IllegalByRule 0x4840C001 ∧ IllegalByRule 0x5840C000 ∧ IllegalByRule 0x5040CC00 ∧
    IllegalByRule 0x5040CE00 ∧ IllegalByRule 0x60442A00 ∧ IllegalByRule 0x60444C00 ∧ IllegalByRule 0x60440000 ∧
    IllegalByRule 0x60446000 ∧ IllegalByRule 0x6044A000 := by
  refine ⟨⟨rfl, ?_, rfl⟩, ⟨rfl, ?_, rfl⟩, ?_, ?_, ?_, ?_, ?_, ?_, ?_, ?_, ?_, ?_, ?_, ?_, ?_, ?_⟩ <;>
    unfold IllegalByRule <;> dsimp only <;> decide +kernel

theorem witness_StepRunsTheAcceptedCommand :
    (∃ (s : State) (i : Instr), s.csr.busy = true ∧ decode s.csr.cmd = .ok i ∧ s.schedule = []) ∧
    (∃ (s : State) (i : Instr) (rest : List Turn), s.csr.busy = true ∧ decode s.csr.cmd = .ok i ∧ s.schedule = .core :: rest) ∧
    (∃ s : State, s.csr.busy = false ∧ s.schedule = []) ∧
    (∃ (s : State) (rest : List Turn), s.csr.busy = false ∧ s.schedule = .core :: rest) ∧
    (∃ (w : Nat) (i : Instr), w < 2 ^ 32 ∧ decodeTableWord 32 w = some i) :=
  ⟨⟨rawBuf 1, .enc, by decide +kernel⟩,
    ⟨{ rawBuf 1 with schedule := [.core] }, .enc, [], by decide +kernel⟩,
    ⟨State.reset, by decide +kernel⟩,
    ⟨{ State.reset with schedule := [.core, .host .reset] }, [.host .reset], by decide +kernel⟩,
    ⟨0x6044EA00 - 0xA000, .vhpar 2 1 .e32 .unsigned 5, by decide +kernel⟩⟩

theorem witness_CmdWriteIsAcceptance : State.reset.csr.busy = false := rfl

theorem witness_WritesWhileBusyAreIgnored :
    (rawBuf 1).csr.busy = true ∧ CsrName.cfg ∈ gatedCsrs ∧ CsrName.vbase ∈ gatedCsrs ∧
    (CsrName.id ≠ .cmd ∧ CsrName.id ≠ .status ∧ CsrName.id ∉ gatedCsrs) ∧
    (CsrName.vcnt ≠ .cmd ∧ CsrName.vcnt ≠ .status ∧ CsrName.vcnt ∉ gatedCsrs) ∧
    (∃ (s t : State) (x : HostTxn) (rest : List Turn), s.csr.busy = true ∧ s.schedule = .host x :: rest ∧ x ≠ .reset ∧
      step s = .next t) := by
  refine ⟨rfl, by decide, by decide, by decide, by decide, ?_⟩
  obtain ⟨t, h, -⟩ := exists_next (p := fun _ => true)
    (o := step { rawBuf 1 with schedule := [.host (.mmioWrite 0x48 8 1)] }) (by decide +kernel)
  exact ⟨_, t, .mmioWrite 0x48 8 1, [], rfl, rfl, by decide, h⟩

theorem witness_CsrWritesReadBack :
    State.reset.csr.busy = false ∧ CsrName.cfg ∈ gatedCsrs ∧ CsrName.solvK ∈ gatedCsrs := by decide +kernel

theorem witness_CsrReadsHaveNoSideEffect :
    (State.reset.csr.busy = false) ∧
    (CsrName.status ∉ [CsrName.failIndex, .failIter, .hmcount, .a, .ainv, .aw, .solvA, .vcnt]) ∧
    ((rawBuf 1).csr.busy = true ∧ CsrName.vcnt ∈ [CsrName.failIndex, .failIter, .hmcount, .a, .ainv, .aw, .solvA, .vcnt]) ∧
    (∀ on ∈ [(0, 4), (0x0B0, 8), (4095, 8), (4088, 8), (0x0A9, 8)],
      on.1 < 4096 ∧ (on.2 ≠ 8 ∨ on.1 % 8 ≠ 0 ∨ 0x0B0 ≤ on.1)) ∧
    (∃ (s : State) (rest : List Turn), s.schedule = .host (.mmioRead (s.params.mmioBase + 0x0B0) 8) :: rest) ∧
    (∃ (s : State) (rest : List Turn), s.schedule = .host (.mmioWrite (s.params.mmioBase + 0x0B0) 8 0x1234) :: rest) ∧
    (CsrName.vcnt, (rawBuf 1).csr.vcnt) ∈ heldValue (rawBuf 1) ∧
    ∀ c : CsrName, c = .id ∨ c = .param ∨ c = .status ∨ c ∈ (heldValue (rawBuf 1)).map Prod.fst :=
  ⟨rfl, by decide, by decide +kernel, by decide,
    ⟨{ State.reset with schedule := [.host (.mmioRead 0x0B0 8)] }, [], rfl⟩,
    ⟨{ State.reset with schedule := [.host (.mmioWrite 0x0B0 8 0x1234)] }, [], rfl⟩, by simp [heldValue],
    fun c => by cases c <;> decide⟩

theorem witness_ResetInputRestoresTheBlock :
    (∃ (s : State) (rest : List Turn), s.csr.busy = false ∧ s.schedule = .host .reset :: rest) ∧
    (∃ (s : State) (e : Illegal) (rest : List Turn), s.csr.busy = true ∧ decode s.csr.cmd = .error e ∧
      s.schedule = .host .reset :: rest) ∧
    (∃ (s : State) (i : Instr) (rest : List Turn), s.mem.wf ∧ s.csr.busy = true ∧ decode s.csr.cmd = .ok i ∧
      s.schedule = .host .reset :: rest ∧ inRange (dstRange s i) 0x1FFF = false ∧ inRange (dstRange s i) 0x2000 = true
      ∧ inRange (dstRange s i) 0x200F = true ∧ inRange (dstRange s i) 0x2010 = false) :=
  ⟨⟨{ State.reset with schedule := [.host .reset] }, [], by decide +kernel⟩,
    ⟨{ State.reset.accept 0 with schedule := [.host .reset] }, .unknownOpcode, [], by decide +kernel⟩,
    ⟨{ rawBuf 1 with schedule := [.host .reset] }, .enc, [], by decide +kernel⟩⟩

/-- A host write over the end of the source range, raced and unraced bytes of one block read, and host reads over the end of
the destination range and over 2^64. -/
theorem witness_RacedBytesAreFree :
    (∃ (s : State) (rest : List Turn), s.schedule = .host (.memWrite 0x1006 4 7) :: rest ∧ s.csr.busy = true ∧
      inRange s.runningSrc 0x1007 = true ∧ inRange s.runningSrc 0x1008 = false ∧ inRange s.runningDst 0x1008 = false) ∧
    (∃ s : State, s.mem.wf ∧ 0x1000 + 1 ∈ s.raced ∧ 0x1000 + 2 ∉ s.raced) ∧
    (∃ (s : State) (rest : List Turn), s.mem.wf ∧ s.schedule = .host (.memRead 0x200F 2) :: rest ∧ s.csr.busy = true ∧
      inRange s.runningDst (0x200F + 0) = true ∧ inRange s.runningDst (0x200F + 1) = false) ∧
    (∃ (s : State) (rest : List Turn), s.mem.wf ∧ s.schedule = .host (.memRead 0xFFFFFFFFFFFFFFFF 2) :: rest ∧
      2 ^ 64 ≤ (0xFFFFFFFFFFFFFFFF#64).toNat + 1 ∧ s.csr.busy = true ∧
      ∀ j < 2, inRange s.runningDst ((0xFFFFFFFFFFFFFFFF#64).toNat + j) = false) :=
  ⟨⟨{ rawBuf 1 with schedule := [.host (.memWrite 0x1006 4 7)] }, [], by decide +kernel⟩,
    ⟨{ rawBuf 1 with raced := [0x1001] }, by decide +kernel⟩,
    ⟨{ rawBuf 1 with schedule := [.host (.memRead 0x200F 2)] }, [], by decide +kernel⟩,
    ⟨{ rawBuf 1 with schedule := [.host (.memRead 0xFFFFFFFFFFFFFFFF 2)] }, [], by decide +kernel⟩⟩

theorem witness_ResetHoldsTheStatedValues :
    Config.params.vlen = .v128 ∧ ({ Config.params with vlen := .v256 } : Params).vlen = .v256 ∧
    ({ Config.params with vlen := .v512 } : Params).vlen = .v512 ∧ CsrName.vcnt ≠ .id ∧ CsrName.vcnt ≠ .param := by
  decide

/-- A state with a running ENC and the invariant. -/
theorem rawBuf_inv : (rawBuf 1).Inv where
  mem_wf := by decide +kernel
  cfg_reserved := by decide +kernel
  pair := by unfold Csrs.pairInv; decide +kernel
  vregs_fit := by decide +kernel
  vcnt_le := by decide +kernel
  no_error_no_location := by decide +kernel
  busy_unreported := by decide +kernel
  seq_idle := by decide +kernel
  fault_setting := by decide +kernel
  raced_busy := by decide +kernel

theorem witness_StepKeepsTheInvariant : ∃ s t : State, s.Inv ∧ step s = .next t ∧ t.csr.done = true := by
  obtain ⟨t, h, hd⟩ := exists_next (o := step (rawBuf 1)) (p := fun t => t.csr.done) (by decide +kernel)
  exact ⟨rawBuf 1, t, rawBuf_inv, h, hd⟩

theorem witness_EveryAcceptedCommandEnds : (rawBuf 1).csr.busy = true := rfl

/-- A step that puts a read on record, and a reset that clears the record. -/
theorem witness_EveryStepGoesOn :
    (∃ s t : State, step s = .next t ∧ s.vregFault = none ∧ t.vregFault = some 1) ∧
    (∃ (s t : State) (rest : List Turn), step s = .next t ∧ s.schedule = .host .reset :: rest ∧ s.vregFault = some 1 ∧
      t.vregFault = none) := by
  obtain ⟨t, h, ht⟩ := exists_next (p := fun t => t.vregFault == some 1)
    (o := step { v1Unwritten .fault with csr := Csrs.reset.accept 0x4840C000, schedule := [.core] }) (by decide +kernel)
  exact ⟨⟨_, t, h, rfl, by simpa using ht⟩,
    ⟨{ State.reset with vregFault := some 1, schedule := [.host .reset] }, _, [], rfl, rfl, rfl, rfl⟩⟩

theorem witness_CommandsTouchOnlyTheirDestination :
    ∃ t, exec .enc (rawBuf 1) = .next t ∧ inRange (dstRange (rawBuf 1) .enc) 0x2010 = false := by
  obtain ⟨t, h, -⟩ := exists_next (o := exec .enc (rawBuf 1)) (p := fun _ => true) (by decide +kernel)
  exact ⟨t, h, by decide +kernel⟩

theorem witness_ResultRegistersHaveOneWriter :
    (∃ t, exec .modinv State.reset = .next t) ∧ (∃ t, exec .seta State.reset = .next t) ∧
    (∃ t, exec .reenc (withAIn (codeBuf 0x2000 1) 233) = .next t) ∧ (∃ t, exec .hchk (recBuf 0x100) = .next t) := by
  refine ⟨?_, ?_, ?_, ?_⟩
  · exact (exists_next (p := fun _ => true) (by decide +kernel)).imp fun _ h => h.1
  · exact (exists_next (p := fun _ => true) (by decide +kernel)).imp fun _ h => h.1
  · exact (exists_next (p := fun _ => true) (by decide +kernel)).imp fun _ h => h.1
  · exact (exists_next (p := fun _ => true) (by decide +kernel)).imp fun _ h => h.1

theorem witness_CommandsReportTheirFamilysErrors :
    (decode (State.reset.accept 0).csr.cmd = .error .unknownOpcode ∧ (∃ t, runCommand (State.reset.accept 0) = .next t)) ∧
    ∃ t, Instr.chk.wellFormed = true ∧ (badBuf 0x2000).csr.err = .none ∧ exec .chk (badBuf 0x2000) = .next t
      ∧ t.csr.err = .corruptionDetected := by
  obtain ⟨t, h, he⟩ := exists_next (o := exec .chk (badBuf 0x2000)) (p := fun t => t.csr.err == .corruptionDetected)
    (by decide +kernel)
  obtain ⟨u, hu, -⟩ := exists_next (o := runCommand (State.reset.accept 0)) (p := fun _ => true) (by decide +kernel)
  exact ⟨⟨by decide +kernel, u, hu⟩, t, rfl, rfl, h, by simpa using he⟩

theorem witness_SolveReturnsTheUniqueInverse :
    ∀ bk ∈ [(1, 1), (1, 64), (2 ^ 64 - 1, 64), (63877, 32)],
      bk.1 < 2 ^ 64 ∧ bk.1 % 2 = 1 ∧ 1 ≤ bk.2 ∧ bk.2 ≤ 64 := by decide +kernel

theorem witness_SolveFailsExactlyOnEven :
    ∀ bk ∈ [(0, 1), (4, 64), (2 ^ 64 - 1, 64)], bk.1 < 2 ^ 64 ∧ 1 ≤ bk.2 ∧ bk.2 ≤ 64 := by decide +kernel

theorem witness_SetaCommitsThePair :
    ∃ s : State, cfgEW s.csr.cfg ≠ .e64 ∧ s.csr.aIn.toNat < 2 ^ cfgW s ∧ s.csr.aIn.toNat % 2 = 1 :=
  ⟨withAIn (rawBuf 1) 0xFFFF, by decide +kernel⟩

/-- A state for MODINV. -/
def modinvState (b k : Word) : State := { State.reset with csr := { Csrs.reset with solvB := b, solvK := k } }

theorem witness_ModinvStoresTheInverse :
    (1 ≤ (modinvState 3 1).csr.solvK.toNat ∧ (modinvState 3 1).csr.solvK.toNat ≤ 64 ∧
      (modinvState 3 1).csr.solvB.toNat % 2 = 1) ∧
    (1 ≤ (modinvState 3 64).csr.solvK.toNat ∧ (modinvState 3 64).csr.solvK.toNat ≤ 64 ∧
      (modinvState 3 64).csr.solvB.toNat % 2 = 1) := by decide +kernel

theorem witness_SolverCommandsRefuseInOrder :
    (∃ s : State, cfgEW s.csr.cfg = .e64) ∧ (∃ s : State, 2 ^ cfgW s ≤ s.csr.aIn.toNat) ∧
    (∃ s : State, cfgEW s.csr.cfg ≠ .e64 ∧ s.csr.aIn.toNat < 2 ^ cfgW s ∧ s.csr.aIn.toNat % 2 = 0) ∧
    (∃ s : State, s.csr.solvK.toNat = 0) ∧ (∃ s : State, 64 < s.csr.solvK.toNat) ∧
    (∃ s : State, 1 ≤ s.csr.solvK.toNat ∧ s.csr.solvK.toNat ≤ 64 ∧ s.csr.solvB.toNat % 2 = 0) :=
  ⟨⟨an 3 0 0 0 0 [], by decide +kernel⟩, ⟨withAIn (rawBuf 1) 0x10000, by decide +kernel⟩,
    ⟨withAIn (rawBuf 1) 0xFFFE, by decide +kernel⟩, ⟨State.reset, by decide +kernel⟩,
    ⟨{ State.reset with csr := { Csrs.reset with solvK := 65 } }, by decide +kernel⟩,
    ⟨{ State.reset with csr := { Csrs.reset with solvK := 64, solvB := 4 } }, by decide +kernel⟩⟩

theorem witness_StartChecksRefuseFirst :
    (Instr.reenc ∈ anCommands ∧ ¬ AnReady State.reset ∧ ¬ AnReady (an 2 0 0 0 0 []) ∧ ¬ AnReady (an 3 0 0 0 0 [])) ∧
    (cfgEW State.reset.csr.cfg ≠ .e16 ∧ cfgEW State.reset.csr.cfg ≠ .e32) ∧
    (AnReady (withOp (rawBuf 1) 0x10000) ∧
      operandAt (withOp (rawBuf 1) 0x10000) (cfgW (withOp (rawBuf 1) 0x10000)) = 0) := by
  unfold AnReady
  decide +kernel

/-- A state ready for every stream command at w = 16: A_IN = 233 and OPERAND = 1. -/
def streamState (dst : Word) (m : Memory) : State := withOp (withAIn (an 1 0x1000 dst 4 1 m) 233) 1

/-- StreamReady of each shape of command, HENC's too. -/
theorem streamReady_shapes {s : State} (h1 : s.csr.cfg = 1) (h2 : s.csr.aw = 3) (h3 : s.csr.aIn = 233)
    (h4 : s.csr.operand = 1) :
    (StreamReady s .enc 2 4 ∧ StreamReady s .henc 2 4) ∧ (StreamReady s .dec 4 2 ∧ StreamReady s .decchk 4 2) ∧
      StreamReady s .arithAdd 4 4 ∧ StreamReady s .arithSub 4 4 ∧ StreamReady s .arithMul 4 4 ∧ StreamReady s .arithDiv 4 4 ∧
      StreamReady s .reenc 4 4 := by
  have hc : cfgEW s.csr.cfg = .e16 := by rw [h1]; decide
  have hw : cfgW s = 16 := by rw [cfgW, hc]; rfl
  have ho : operandAt s (cfgW s) ≠ 0#(cfgW s) := by rw [hw, operandAt, h4]; decide
  have ha : AnReady s := by rw [AnReady, hc, h2]; decide
  simp only [ne_eq] at ho
  simp [StreamReady, ha, hw, h3, HamReady, hc, ho]

/-- The bounds where the ranges begin to overlap: one common byte at each end, in both shapes and in place with different
sizes; and the three ways to pass, side by side, in place and empty. -/
theorem witness_OverlapIsRefusedBeforeAnyAccess :
    (∃ s : State, StreamReady s .enc 2 4 ∧ ¬ (s.csr.src = s.csr.dst ∧ 2 = 4) ∧
      inRange (s.csr.src.toNat, s.csr.count.toNat * 2) 0x1007 = true ∧
      inRange (s.csr.dst.toNat, s.csr.count.toNat * 4) 0x1007 = true) ∧
    (∃ s : State, StreamReady s .dec 4 2 ∧ s.csr.src = s.csr.dst ∧ ¬ (s.csr.src = s.csr.dst ∧ 4 = 2) ∧
      inRange (s.csr.src.toNat, s.csr.count.toNat * 4) 0x1000 = true ∧
      inRange (s.csr.dst.toNat, s.csr.count.toNat * 2) 0x1000 = true) ∧
    (∃ s : State, StreamReady s .arithDiv 4 4 ∧ StreamReady s .reenc 4 4 ∧ ¬ (s.csr.src = s.csr.dst ∧ 4 = 4) ∧
      inRange (s.csr.src.toNat, s.csr.count.toNat * 4) 0x100F = true ∧
      inRange (s.csr.dst.toNat, s.csr.count.toNat * 4) 0x100F = true) ∧
    (∃ s : State, StreamReady s .enc 2 4 ∧ StreamReady s .henc 2 4 ∧ s.csr.err = .none ∧
      ∀ a, inRange (s.csr.src.toNat, s.csr.count.toNat * 2) a = false ∨
        inRange (s.csr.dst.toNat, s.csr.count.toNat * 4) a = false) ∧
    (∃ s : State, StreamReady s .reenc 4 4 ∧ s.csr.err = .none ∧ s.csr.src = s.csr.dst ∧ 4 = 4) ∧
    (∃ s : State, StreamReady s .enc 2 4 ∧ s.csr.err = .none ∧ s.csr.src = s.csr.dst ∧
      ∀ a, inRange (s.csr.src.toNat, s.csr.count.toNat * 2) a = false) := by
  have h := fun dst => streamReady_shapes (s := streamState dst []) rfl rfl rfl rfl
  refine ⟨⟨_, (h 0x1007).1.1, by decide +kernel⟩, ⟨_, (h 0x1000).2.1.1, by decide +kernel⟩,
    ⟨_, (h 0x100F).2.2.2.2.2.1, (h 0x100F).2.2.2.2.2.2, by decide +kernel⟩,
    ⟨_, (h 0x1008).1.1, (h 0x1008).1.2, rfl, fun a => ?_⟩, ⟨_, (h 0x1000).2.2.2.2.2.2, rfl, rfl, rfl⟩,
    ⟨{ streamState 0x1000 [] with csr := { (streamState 0x1000 []).csr with count := 0 } },
      (streamReady_shapes rfl rfl rfl rfl).1.1, rfl, rfl, fun a => ?_⟩⟩
  · simp only [inRange_eq_false]
    exact Nat.lt_or_ge a 0x1008 |>.elim (fun h => .inr (.inl h)) fun h => .inl (.inr h)
  · simp only [inRange_eq_false]
    exact Nat.lt_or_ge a 0x1000 |>.imp id id

/-- Four codewords at 0x1000, ready for every stream command, in a window that admits n bytes from 0x1000 and m from 0x2000. -/
def refusing (dst : Word) (n m : Nat) : State :=
  { streamState dst (memOf 0x1000 4 [0x0, 0xF985, 0xF984067B, 0x2F007E9D]) with
    params := { Config.params with
      memMap := [⟨0x1000, 0x1000 + n, Config.accessSizes⟩, ⟨0x2000, 0x2000 + m, Config.accessSizes⟩] } }

/-- Element 2 of iteration 0: its read refused, out of place and in place, and its write refused, both after elements that
pass and are admitted; and a first read refused, with disjoint buffers and in place. -/
theorem witness_RefusedReadRaisesBusError :
    (let s := refusing 0x2000 8 16;
      StreamReady s .reenc 4 4 ∧ s.mem.wf ∧ s.raced = [] ∧ BuffersDisjoint s 4 4 ∧ 0 < s.csr.iter.toNat ∧
      2 < s.csr.count.toNat ∧
      (∀ j < 2, s.admits (elemAddr s.csr.src.toNat j 4) 4 = true ∧ s.admits (elemAddr s.csr.dst.toNat j 4) 4 = true ∧
        elemPasses s .reenc (srcElem s 4 j) = true) ∧ s.admits (elemAddr s.csr.src.toNat 2 4) 4 = false) ∧
    (let s := refusing 0x1000 8 0;
      StreamReady s .arithDiv 4 4 ∧ s.csr.src = s.csr.dst ∧
      (∀ j < 2, s.admits (elemAddr s.csr.src.toNat j 4) 4 = true ∧ s.admits (elemAddr s.csr.dst.toNat j 4) 4 = true ∧
        elemPasses s .arithDiv (srcElem s 4 j) = true) ∧ s.admits (elemAddr s.csr.src.toNat 2 4) 4 = false) ∧
    (let s := refusing 0x2000 16 8;
      StreamReady s .enc 2 4 ∧ StreamReady s .henc 2 4 ∧ BuffersDisjoint s 2 4 ∧
      (∀ j < 2, s.admits (elemAddr s.csr.src.toNat j 2) 2 = true ∧ s.admits (elemAddr s.csr.dst.toNat j 4) 4 = true ∧
        elemPasses s .enc (srcElem s 2 j) = true ∧ elemPasses s .henc (srcElem s 2 j) = true) ∧
      s.admits (elemAddr s.csr.src.toNat 2 2) 2 = true ∧ elemPasses s .enc (srcElem s 2 2) = true ∧
      s.admits (elemAddr s.csr.dst.toNat 2 4) 4 = false) ∧
    (let s := refusing 0x2000 16 4;
      StreamReady s .decchk 4 2 ∧ BuffersDisjoint s 4 2 ∧
      (∀ j < 2, s.admits (elemAddr s.csr.src.toNat j 4) 4 = true ∧ s.admits (elemAddr s.csr.dst.toNat j 2) 2 = true ∧
        elemPasses s .decchk (srcElem s 4 j) = true) ∧
      s.admits (elemAddr s.csr.src.toNat 2 4) 4 = true ∧ elemPasses s .decchk (srcElem s 4 2) = true ∧
      s.admits (elemAddr s.csr.dst.toNat 2 2) 2 = false) ∧
    (let s := refusing 0x2000 8 0;
      AnReady s ∧ (∀ j < 2, elemPasses s .chk (srcElem s (2 * cfgW s / 8) j) = true) ∧
      ∀ j ≤ 2, s.admits (elemAddr s.csr.src.toNat j (2 * cfgW s / 8)) (2 * cfgW s / 8) = decide (j < 2)) ∧
    (let s := refusing 0x2000 0 0;
      BuffersDisjoint s 2 4 ∧ s.admits s.csr.src.toNat 2 = false ∧ s.admits s.csr.src.toNat (2 * cfgW s / 8) = false ∧
      HamReady s 16 ∧ s.admits s.csr.src.toNat (2 * (16 / 8)) = false ∧ 0 < s.csr.count.toNat) := by
  have h := fun dst n m => streamReady_shapes (s := refusing dst n m) rfl rfl rfl rfl
  unfold BuffersDisjoint AnReady HamReady
  exact ⟨⟨(h _ _ _).2.2.2.2.2.2, by decide +kernel⟩, ⟨(h _ _ _).2.2.2.2.2.1, by decide +kernel⟩,
    ⟨(h _ _ _).1.1, (h _ _ _).1.2, by decide +kernel⟩, ⟨(h _ _ _).2.1.2, by decide +kernel⟩, by decide +kernel,
    by decide +kernel⟩

/-- For DecodeInvertsEncode, EncodedValuesAreValid, InverseCheckAcceptsExactlyCodewords, SingleBitFlipsAreDetected and
ArithIsAHomomorphism: the committed pair of AN16 and the smallest one; A > 1 for the single-bit law. -/
theorem witness_AnValueLaws :
    (63877 * 0xD142174D % 2 ^ (2 * 16) = 1 ∧ 63877 * 0xD142174D % 2 ^ (2 * 16) = 1 % 2 ^ (2 * 16) ∧ 0 < 16 ∧ 1 < 63877 ∧
      63877 < 2 ^ 16 ∧ 63877 % 2 = 1 ∧ 31 < 2 * 16) ∧
    (1 * 1 % 2 ^ (2 * 1) = 1 ∧ 0 < 1 ∧ 1 < 2 ^ 1) ∧
    validCode .inverse .signed (w := 16) 0x833D8000 63877 0xD142174D = true ∧
    validCode .divmod .unsigned (w := 16) 0xF9850000 63877 0xD142174D = true := by decide +kernel

theorem witness_EncWritesEveryCodeword :
    AnReady (rawBuf 2) ∧ ReadsReady (rawBuf 2) (cfgW (rawBuf 2) / 8) ∧ WritesReady (rawBuf 2) (2 * cfgW (rawBuf 2) / 8) ∧
    BuffersDisjoint (rawBuf 2) (cfgW (rawBuf 2) / 8) (2 * cfgW (rawBuf 2) / 8) :=
  ⟨by unfold AnReady; decide +kernel, readsReady_of (by decide +kernel), by unfold WritesReady; decide +kernel,
    by unfold BuffersDisjoint; decide +kernel⟩

/-- DEC's hypotheses, and those of DecchkWritesValidBuffers. -/
theorem witness_DecWritesEveryRawValue :
    let s := codeBuf 0x1010 2
    AnReady s ∧ ReadsReady s (2 * cfgW s / 8) ∧ WritesReady s (cfgW s / 8) ∧
    BuffersDisjoint s (2 * cfgW s / 8) (cfgW s / 8) ∧
    (∀ i < s.csr.count.toNat, validCode (cfgLayout s.csr.cfg) (cfgSgn s.csr.cfg)
      (BitVec.ofNat (2 * cfgW s) (srcElem s (2 * cfgW s / 8) i)) s.csr.a.toNat s.csr.ainv.toNat = true) :=
  ⟨by unfold AnReady; decide +kernel, readsReady_of (by decide +kernel), by unfold WritesReady; decide +kernel,
    by unfold BuffersDisjoint; decide +kernel, by decide +kernel⟩

theorem witness_ChkPassesValidBuffers :
    let s := codeBuf 0x1010 2
    AnReady s ∧ ReadsReady s (2 * cfgW s / 8) ∧
    (∀ i < s.csr.count.toNat, validCode (cfgLayout s.csr.cfg) (cfgSgn s.csr.cfg)
      (BitVec.ofNat (2 * cfgW s) (srcElem s (2 * cfgW s / 8) i)) s.csr.a.toNat s.csr.ainv.toNat = true) :=
  ⟨witness_DecWritesEveryRawValue.1, witness_DecWritesEveryRawValue.2.1, witness_DecWritesEveryRawValue.2.2.2.2⟩

theorem witness_ChkStopsAtTheFirstInvalid :
    let s := badBuf 0x2000
    AnReady s ∧ s.mem.wf ∧ s.raced = [] ∧ 2 < s.csr.count.toNat ∧ 0 < s.csr.iter.toNat ∧
    (∀ j ≤ 2, s.admits (elemAddr s.csr.src.toNat j (2 * cfgW s / 8)) (2 * cfgW s / 8) = true) ∧
    (∀ j ≤ 2, validCode (cfgLayout s.csr.cfg) (cfgSgn s.csr.cfg)
      (BitVec.ofNat (2 * cfgW s) (srcElem s (2 * cfgW s / 8) j)) s.csr.a.toNat s.csr.ainv.toNat = decide (j < 2)) := by
  unfold AnReady
  decide +kernel

/-- DECCHK at an invalid element 2, whose own write and the accesses after it are refused. -/
theorem witness_DecchkKeepsThePartialOutput :
    let s := badBuf 0xFFFC;
    AnReady s ∧ s.mem.wf ∧ s.raced = [] ∧
    (∀ j ≤ 2, s.admits (elemAddr s.csr.src.toNat j (2 * cfgW s / 8)) (2 * cfgW s / 8) = true) ∧
    (∀ j < 2, s.admits (elemAddr s.csr.dst.toNat j (cfgW s / 8)) (cfgW s / 8) = true) ∧
    s.admits (elemAddr s.csr.dst.toNat 2 (cfgW s / 8)) (cfgW s / 8) = false ∧
    BuffersDisjoint s (2 * cfgW s / 8) (cfgW s / 8) ∧ 2 < s.csr.count.toNat ∧ 0 < s.csr.iter.toNat ∧
    (∀ j ≤ 2, validCode (cfgLayout s.csr.cfg) (cfgSgn s.csr.cfg)
      (BitVec.ofNat (2 * cfgW s) (srcElem s (2 * cfgW s / 8) j)) s.csr.a.toNat s.csr.ainv.toNat = decide (j < 2)) := by
  unfold AnReady BuffersDisjoint
  decide +kernel

theorem witness_ReencRewritesAndCommits :
    (let s := withAIn (codeBuf 0x2000 2) 233;
      AnReady s ∧ ReadsReady s (2 * cfgW s / 8) ∧ WritesReady s (2 * cfgW s / 8) ∧
      BuffersDisjoint s (2 * cfgW s / 8) (2 * cfgW s / 8) ∧ s.csr.aIn.toNat < 2 ^ cfgW s ∧ s.csr.aIn.toNat % 2 = 1 ∧
      (∀ i < s.csr.count.toNat, validCode (cfgLayout s.csr.cfg) (cfgSgn s.csr.cfg)
        (BitVec.ofNat (2 * cfgW s) (srcElem s (2 * cfgW s / 8) i)) s.csr.a.toNat s.csr.ainv.toNat = true)) ∧
    (let s := withAIn (codeBuf 0x1000 1) 233;
      AnReady s ∧ ReadsReady s (2 * cfgW s / 8) ∧ WritesReady s (2 * cfgW s / 8) ∧ s.csr.src = s.csr.dst ∧
      s.csr.iter.toNat ≤ 1) :=
  ⟨⟨by unfold AnReady; decide +kernel, readsReady_of (by decide +kernel), by unfold WritesReady; decide +kernel,
    by unfold BuffersDisjoint; decide +kernel, by decide +kernel, by decide +kernel, by decide +kernel⟩,
    by unfold AnReady; decide +kernel, readsReady_of (by decide +kernel), by unfold WritesReady; decide +kernel,
    by decide +kernel, by decide +kernel⟩

/-- The bounds of A_IN that REENC refuses at, and a run in place that fails in iteration 1 (vector A18). -/
theorem witness_ReencFailureKeepsTheCode :
    (AnReady (withAIn (rawBuf 1) 0x10000) ∧
      2 ^ cfgW (withAIn (rawBuf 1) 0x10000) ≤ (withAIn (rawBuf 1) 0x10000).csr.aIn.toNat) ∧
    (AnReady (withAIn (rawBuf 1) 0xFFFE) ∧
      (withAIn (rawBuf 1) 0xFFFE).csr.aIn.toNat < 2 ^ cfgW (withAIn (rawBuf 1) 0xFFFE) ∧
      (withAIn (rawBuf 1) 0xFFFE).csr.aIn.toNat % 2 = 0) := by
  unfold AnReady
  decide +kernel

/-- ReencFailureKeepsTheCode's clause about A, AINV and AW, on a run in place that fails in iteration 1 (vector A18). -/
theorem witness_ReencFailureKeepsTheCode_later_iteration :
    ∃ t, (withAIn (codeBuf 0x1000 2) 233).csr.err = .none ∧ exec .reenc (withAIn (codeBuf 0x1000 2) 233) = .next t ∧
      t.csr.err ≠ .none := by
  obtain ⟨t, h, ht⟩ := exists_next (o := exec .reenc (withAIn (codeBuf 0x1000 2) 233))
    (p := fun t => t.csr.err == .corruptionDetected && t.csr.failIter == 1) (by decide +kernel)
  exact ⟨t, rfl, h, fun he => by simp [he] at ht⟩

/-- What ReencFailureKeepsTheCode asks of a buffer whose element b is invalid. -/
def reencInvalidAt (s : State) (b : Nat) : Prop :=
  AnReady s ∧ s.mem.wf ∧ s.raced = [] ∧
  (∀ j ≤ b, s.admits (elemAddr s.csr.src.toNat j (2 * cfgW s / 8)) (2 * cfgW s / 8) = true) ∧
  (∀ j < b, s.admits (elemAddr s.csr.dst.toNat j (2 * cfgW s / 8)) (2 * cfgW s / 8) = true) ∧
  (BuffersDisjoint s (2 * cfgW s / 8) (2 * cfgW s / 8) ∨ s.csr.src = s.csr.dst) ∧
  s.csr.aIn.toNat < 2 ^ cfgW s ∧ s.csr.aIn.toNat % 2 = 1 ∧ b < s.csr.count.toNat ∧ 0 < s.csr.iter.toNat ∧
  (∀ j ≤ b, validCode (cfgLayout s.csr.cfg) (cfgSgn s.csr.cfg)
    (BitVec.ofNat (2 * cfgW s) (srcElem s (2 * cfgW s / 8) j)) s.csr.a.toNat s.csr.ainv.toNat = decide (j < b))

/-- ReencFailureKeepsTheCode's last clause, out of place and in place. -/
theorem witness_ReencFailureKeepsTheCode_invalid :
    reencInvalidAt (withAIn (badBuf 0x2000) 233) 2 ∧ reencInvalidAt (withAIn (badBuf 0x1000) 233) 2 := by
  unfold reencInvalidAt AnReady BuffersDisjoint
  exact ⟨by decide +kernel, by decide +kernel⟩

/-- ArithWritesItsFunction out of place and ArithInPlaceRepeats in place, ARITH.DIV's operand included. -/
theorem witness_ArithWritesItsFunction :
    (let s := withOp (codeBuf 0x2000 3) 3;
      Instr.arithDiv ∈ arithCommands ∧ AnReady s ∧ operandAt s (cfgW s) ≠ 0 ∧ ReadsReady s (2 * cfgW s / 8) ∧
      WritesReady s (2 * cfgW s / 8) ∧ BuffersDisjoint s (2 * cfgW s / 8) (2 * cfgW s / 8)) ∧
    (let s := withOp (codeBuf 0x1000 3) 3;
      AnReady s ∧ operandAt s (cfgW s) ≠ 0 ∧ ReadsReady s (2 * cfgW s / 8) ∧ s.csr.src = s.csr.dst) :=
  ⟨⟨by decide, by unfold AnReady; decide +kernel, by decide +kernel, readsReady_of (by decide +kernel),
    by unfold WritesReady; decide +kernel, by unfold BuffersDisjoint; decide +kernel⟩,
    by unfold AnReady; decide +kernel, by decide +kernel, readsReady_of (by decide +kernel), by decide +kernel⟩

theorem witness_ExactDivisionEncodesTheQuotient :
    num .signed (0xFFF6#16) = num .signed (0xFFFB#16) * num .signed (2#16) ∧ (2#16) ≠ 0 ∧
    num .unsigned (100#16) = num .unsigned (25#16) * num .unsigned (4#16) ∧ 1 < 16 := by decide +kernel

theorem witness_HencWritesEveryRecord :
    HamReady (rawBuf 2) 16 ∧ ReadsReady (rawBuf 2) (16 / 8) ∧ WritesReady (rawBuf 2) (2 * (16 / 8)) ∧
    BuffersDisjoint (rawBuf 2) (16 / 8) (2 * (16 / 8)) ∧ HamReady (an 2 0 0 0 0 []) 32 :=
  ⟨by unfold HamReady; decide +kernel, readsReady_of (by decide +kernel), by unfold WritesReady; decide +kernel,
    by unfold BuffersDisjoint; decide +kernel, by unfold HamReady; decide +kernel⟩

theorem witness_HchkCountsEveryMismatch :
    HamReady (recBuf 12) 16 ∧ ReadsReady (recBuf 12) (2 * (16 / 8)) ∧
    (List.range (passCount (recBuf 12))).find? (recordMismatch (recBuf 12) 16) = some 1 :=
  ⟨by unfold HamReady; decide +kernel, readsReady_of (by decide +kernel), by decide +kernel⟩

/-- The window ends after the second record, which mismatches; the third is refused. -/
theorem witness_HchkBusErrorKeepsTheCount :
    HamReady (recBuf 8) 16 ∧ (recBuf 8).raced = [] ∧ 2 < (recBuf 8).csr.count.toNat ∧ 0 < (recBuf 8).csr.iter.toNat ∧
    (∀ j ≤ 2, (recBuf 8).admits (elemAddr (recBuf 8).csr.src.toNat j (2 * (16 / 8))) (2 * (16 / 8)) = decide (j < 2)) := by
  unfold HamReady
  decide +kernel

theorem witness_CodeBitsAreMaskParities :
    (hamMasks Config.params 16)[4]? = some 0xF800 ∧ (hamMasks Config.params 32)[5]? = some 0xFC000000 := by decide +kernel

/-- VS1 never written, and VS1 written beside a VS2 that is and one that is not. -/
theorem witness_UnwrittenSourcesAreRecorded :
    let s := v1Unwritten .fault
    s.vregFault = none ∧ s.params.vregUninit = .fault ∧ (s.vregs.get 1).written = false ∧ (s.vregs.get 0).written = true ∧
      hparLegal .e16 7 = true := by decide +kernel

/-- v0 written, VBASE as given. -/
def vbaseState (vb : Word) : State := { vecs 32 [1, 2] [] with csr := { Csrs.reset with vbase := vb } }

/-- A VLEN access at VBASE + 0 is admitted or not. -/
def vAdmits (vb : Word) : Bool :=
  (vbaseState vb).admits ((vbaseState vb).csr.vbase.toNat + (0#16).toNat) ((vbaseState vb).params.vlen.bits / 8)

/-- For VldLoadsTheBytes and VstStoresTheBytes: no race, canonical memory; the first and the last admitted access of the
window, one before it, one over its end, and one past 2^64. -/
theorem witness_VldVstAccesses :
    ((vbaseState 0x1000).raced = [] ∧ (vbaseState 0x1000).mem.wf) ∧
    vAdmits 0x1000 = true ∧ vAdmits 0xFFF0 = true ∧ vAdmits 0xFFF = false ∧ vAdmits 0xFFF1 = false ∧
    vAdmits 0xFFFFFFFFFFFFFFF8 = false := by decide +kernel

/-- For VectorArithmeticLanes and VectorCompareLanes: the first row of each table, whatever the rest of it is. -/
theorem witness_VectorTables (r : List (Instr × (BitVec EW.e8.bits → BitVec EW.e8.bits → BitVec EW.e8.bits)))
    (r' : List (Instr × (Int → Int → Bool))) :
    (Instr.vadd 2 0 1 .e8 .signed, fun a b => BitVec.ofNat EW.e8.bits (a.toNat + b.toNat)) ∈
      (Instr.vadd 2 0 1 .e8 .signed, fun a b => BitVec.ofNat EW.e8.bits (a.toNat + b.toNat)) :: r ∧
    (Instr.vcmpLt 2 0 1 .e8 .signed, fun a b => decide (a < b)) ∈
      (Instr.vcmpLt 2 0 1 .e8 .signed, fun a b => decide (a < b)) :: r' :=
  ⟨List.mem_cons_self, List.mem_cons_self⟩

/-- For VdivLanesOrDivideByZero, with and without a zero divisor lane, and VhparBitsAreTheScalarCode: a legal K. -/
theorem witness_VectorStatements :
    (1 < laneCount Config.params .e32 ∧ lane (vval (vecs 32 [1, 2, 3, 4] [1, 0, 1, 0]) 1) 32 1 = 0 ∧
      ∀ k < 1, lane (vval (vecs 32 [1, 2, 3, 4] [1, 0, 1, 0]) 1) 32 k ≠ 0) ∧
    (∀ j < laneCount Config.params .e32, lane (vval (vecs 32 [1, 2, 3, 4] [1, 2, 1, 2]) 1) 32 j ≠ 0) ∧
    hparLegal .e16 4 = true ∧ hparLegal .e32 5 = true ∧ hparLegal .e32 7 = true := by decide +kernel

end Sys2Proof.Tests
end

section
/-! PROOFS (00_scope.md). Every command ends by completion (10_state.md R34), what each turn of the schedule does, and from
the two: an accepted command ends (O15) and a step runs the accepted command (O5). -/

namespace Sys2Proof.Machine

/-! ### Every command ends by completion (10_state.md R34) -/

/-- The state is one that completion leaves: BUSY = 0, DONE = 1, the progress gone. -/
def State.Completed (t : State) : Prop := ∃ u : State, t = u.complete

/-- The outcome is a next state, and a completed one. -/
def Completes (o : Host.Outcome State Fault Refusal) : Prop := ∃ u : State, o = .next u.complete

@[simp] theorem completed_complete (s : State) : s.complete.Completed := ⟨s, rfl⟩

@[simp] theorem completed_raise (s : State) (e : ErrCode) (i it : Nat) : (s.raise e i it).Completed := ⟨_, rfl⟩

@[simp] theorem completed_raiseHere (s : State) (e : ErrCode) : (s.raiseHere e).Completed := ⟨_, rfl⟩

theorem completes_next_iff {t : State} : Completes (.next t) ↔ t.Completed := by
  simp [Completes, State.Completed]

@[simp] theorem completes_complete (s : State) : Completes (.next s.complete) := ⟨s, rfl⟩

@[simp] theorem completes_raise (s : State) (e : ErrCode) (i it : Nat) : Completes (.next (s.raise e i it)) := ⟨_, rfl⟩

/-! ### The start checks of a command raise an error or go on -/

theorem startAN_completes {s : State} {k : AnSetup → Host.Outcome State Fault Refusal} (hk : ∀ c, Completes (k c)) :
    Completes (s.startAN k) := by
  obtain ⟨c, -, h⟩ | ⟨-, h⟩ := startAN_cases s k
  · rw [h]; exact hk c
  · rw [h]; exact completes_raise ..

theorem startHam_completes {s : State} {k : Nat → Host.Outcome State Fault Refusal} (hk : ∀ w, Completes (k w)) :
    Completes (s.startHam k) := by
  obtain ⟨-, h⟩ | ⟨-, h⟩ | ⟨-, -, h⟩ := startHam_cases s k
  · rw [h]; exact hk 16
  · rw [h]; exact hk 32
  · rw [h]; exact completes_raise ..

theorem overlapCheck_completes {s : State} {ss ds : Nat} {k : Host.Outcome State Fault Refusal} (hk : Completes k) :
    Completes (s.overlapCheck ss ds k) := by
  obtain ⟨-, h⟩ | ⟨-, h⟩ := overlapCheck_cases s ss ds k
  · rw [h]; exact hk
  · rw [h]; exact completes_raise ..

/-! ### An error in the body of a stream command completes it (60_exceptions.md R316 (f)) -/

/-- The body of a stream command goes on, or an error has completed the command. -/
def EndsOnlyCompleted (body : State → Flow) : Prop := ∀ u, (body u).Holds (fun _ => True) State.Completed

theorem copyBody_endsOnlyCompleted (ss ds : Nat) (ok : Nat → Bool) (f : Params → Nat → Nat) :
    EndsOnlyCompleted (copyBody ss ds ok f) := by
  refine fun u => loadElem_holds (fun _ => ?_) fun _ => completed_raiseHere ..
  split
  · exact storeElem_holds (fun _ => trivial) fun _ => completed_raiseHere ..
  · exact completed_raiseHere ..

theorem encBody_endsOnlyCompleted (c : AnSetup) : EndsOnlyCompleted (encBody c) := by
  rw [encBody_eq_copyBody]
  exact copyBody_endsOnlyCompleted _ _ _ _

theorem decBody_endsOnlyCompleted (c : AnSetup) : EndsOnlyCompleted (decBody c) := by
  rw [decBody_eq_copyBody]
  exact copyBody_endsOnlyCompleted _ _ _ _

theorem decchkBody_endsOnlyCompleted (c : AnSetup) : EndsOnlyCompleted (decchkBody c) := by
  rw [decchkBody_eq_copyBody]
  exact copyBody_endsOnlyCompleted _ _ _ _

theorem reencBody_endsOnlyCompleted (c : AnSetup) (anew : Nat) : EndsOnlyCompleted (reencBody c anew) := by
  rw [reencBody_eq_copyBody]
  exact copyBody_endsOnlyCompleted _ _ _ _

theorem arithBody_endsOnlyCompleted (c : AnSetup) (f : BitVec (2 * c.w) → BitVec (2 * c.w)) :
    EndsOnlyCompleted (arithBody c f) := by
  rw [arithBody_eq_copyBody]
  exact copyBody_endsOnlyCompleted _ _ _ _

theorem hencBody_endsOnlyCompleted (w : Nat) : EndsOnlyCompleted (hencBody w) := by
  rw [hencBody_eq_copyBody]
  exact copyBody_endsOnlyCompleted _ _ _ _

theorem chkBody_endsOnlyCompleted (c : AnSetup) : EndsOnlyCompleted (chkBody c) := by
  refine fun u => loadElem_holds (fun _ => ?_) fun _ => completed_raiseHere ..
  split
  · trivial
  · exact completed_raiseHere ..

theorem hchkBody_endsOnlyCompleted (w : Nat) : EndsOnlyCompleted (hchkBody w) := by
  refine fun u => loadElem_holds (fun _ => ?_) fun _ => completed_raiseHere ..
  split <;> trivial

theorem stream_completes {s : State} {body : State → Flow} {done : State → State} (hbody : EndsOnlyCompleted body)
    (hdone : ∀ t, (done t).Completed) : Completes ((s.stream body).outcome done) := by
  have h : (s.stream body).Holds (fun _ => True) State.Completed :=
    stream_keeps (fun _ => True) trivial (fun u _ => hbody u) (fun _ _ => trivial) fun _ _ => trivial
  obtain ⟨t, ht, -⟩ | ⟨t, ht, hc⟩ := Flow_outcome_next h done
  · rw [ht]; exact completes_next_iff.mpr (hdone t)
  · rw [ht]; exact completes_next_iff.mpr hc

/-! ### The commands, by family -/

theorem execSeta_completes (s : State) : Completes (execSeta s) := by
  unfold execSeta
  split
  · simp
  · split <;> simp

theorem execModinv_completes (s : State) : Completes (execModinv s) := by
  unfold execModinv
  split
  · simp
  · split
    · simp
    · split <;> simp

theorem execEnc_completes (s : State) : Completes (execEnc s) :=
  startAN_completes fun c => overlapCheck_completes (stream_completes (encBody_endsOnlyCompleted c) completed_complete)

theorem execChk_completes (s : State) : Completes (execChk s) :=
  startAN_completes fun c => stream_completes (chkBody_endsOnlyCompleted c) completed_complete

theorem execDec_completes (s : State) : Completes (execDec s) :=
  startAN_completes fun c => overlapCheck_completes (stream_completes (decBody_endsOnlyCompleted c) completed_complete)

theorem execDecchk_completes (s : State) : Completes (execDecchk s) :=
  startAN_completes fun c => overlapCheck_completes (stream_completes (decchkBody_endsOnlyCompleted c) completed_complete)

theorem execReenc_completes (s : State) : Completes (execReenc s) := by
  refine startAN_completes fun c => ?_
  split
  · exact completes_raise ..
  · exact overlapCheck_completes (stream_completes (reencBody_endsOnlyCompleted c _) fun _ => completed_complete _)

theorem execHenc_completes (s : State) : Completes (execHenc s) :=
  startHam_completes fun w => overlapCheck_completes (stream_completes (hencBody_endsOnlyCompleted w) completed_complete)

theorem execHchk_completes (s : State) : Completes (execHchk s) :=
  startHam_completes fun w => stream_completes (hchkBody_endsOnlyCompleted w) fun _ => completed_complete _

theorem arithRun_completes (s : State) (c : AnSetup) (f : BitVec (2 * c.w) → BitVec (2 * c.w)) :
    Completes (s.arithRun c f) :=
  overlapCheck_completes (stream_completes (arithBody_endsOnlyCompleted c f) completed_complete)

theorem execArithDiv_completes (s : State) : Completes (execArithDiv s) := by
  refine startAN_completes fun c => ?_
  split
  · simp
  · exact arithRun_completes ..

theorem execVld_completes (vr : VNum) (imm : BitVec 16) (s : State) : Completes (execVld vr imm s) := by
  unfold execVld
  split <;> simp

theorem execVst_completes (vr : VNum) (imm : BitVec 16) (s : State) : Completes (execVst vr imm s) := by
  unfold execVst
  rw [withV_eq]
  split <;> simp

theorem lanewise2_completes (f : (n : Nat) → BitVec n → BitVec n → BitVec n) (vd vs1 vs2 : VNum) (ew : EW) (s : State) :
    Completes (lanewise2 f vd vs1 vs2 ew s) := completes_complete _

theorem fromLanes_completes (f : (n : Nat) → List (BitVec n) → VWord) (vd vs1 : VNum) (ew : EW) (s : State) :
    Completes (fromLanes f vd vs1 ew s) := completes_complete _

theorem execVdiv_completes (vd vs1 vs2 : VNum) (ew : EW) (sg : Sgn) (s : State) :
    Completes (execVdiv vd vs1 vs2 ew sg s) := by
  unfold execVdiv
  rw [withV_eq, withV_eq]
  split <;> simp

theorem execVhpar_completes (vd vs1 : VNum) (ew : EW) (sg : Sgn) (k : Fin 8) (s : State) :
    Completes (execVhpar vd vs1 ew sg k s) := by
  unfold execVhpar
  split
  · exact fromLanes_completes ..
  · simp

/-- Every instruction, from every state, ends by completion, with an error or without (10_state.md R34). -/
theorem exec_completes (i : Instr) (s : State) : Completes (exec i s) := by
  cases i with
  | nop => exact completes_complete s
  | seta => exact execSeta_completes s
  | modinv => exact execModinv_completes s
  | enc => exact execEnc_completes s
  | chk => exact execChk_completes s
  | dec => exact execDec_completes s
  | decchk => exact execDecchk_completes s
  | reenc => exact execReenc_completes s
  | arithAdd | arithSub | arithMul => exact startAN_completes fun c => arithRun_completes s c _
  | arithDiv => exact execArithDiv_completes s
  | henc => exact execHenc_completes s
  | hchk => exact execHchk_completes s
  | vld vr imm => exact execVld_completes vr imm s
  | vst vr imm => exact execVst_completes vr imm s
  | vadd | vsub | vmullo | vmin | vmax | vcmpLt | vcmpLe | vcmpEq | vcmpNe | vcmpGe | vcmpGt =>
    simp only [exec, execVadd, execVsub, execVmullo, execVmin, execVmax, execVcmpLt, execVcmpLe, execVcmpEq, execVcmpNe,
      execVcmpGe, execVcmpGt, lanewise2_completes]
  | vdiv vd vs1 vs2 ew sg => exact execVdiv_completes vd vs1 vs2 ew sg s
  | vredsum | vredmin | vredmax | vpopcnt =>
    simp only [exec, execVredsum, execVredmin, execVredmax, execVpopcnt, fromLanes_completes]
  | vcompress => exact completes_complete _
  | vhpar vd vs1 ew sg k => exact execVhpar_completes vd vs1 ew sg k s

/-! ### What each turn of the schedule does -/

theorem coreTurn_busy {s : State} (h : s.csr.busy = true) : coreTurn s = runCommand s := by simp [coreTurn, h]

theorem coreTurn_idle {s : State} (h : s.csr.busy = false) : coreTurn s = .next s := by simp [coreTurn, h]

/-- The sequencer's turn on an accepted word that decodes. -/
theorem coreTurn_of_decode {s : State} {i : Instr} (hb : s.csr.busy = true) (hd : decode s.csr.cmd = .ok i) :
    coreTurn s = exec i s := by
  rw [coreTurn_busy hb, runCommand_of_decode hd]

theorem step_unscheduled {s : State} (h : s.schedule = []) : step s = coreTurn s := by simp [step, h]

theorem step_core {s : State} {rest : List Turn} (h : s.schedule = .core :: rest) :
    step s = coreTurn { s with schedule := rest } := by simp [step, h]

theorem step_host {s : State} {t : HostTxn} {rest : List Turn} (h : s.schedule = .host t :: rest) :
    step s = .next (State.hostAct { s with schedule := rest } t) := by simp [step, h]

/-- The sequencer's turn ends the accepted command, an illegal word included (30_encoding.md R122). -/
theorem coreTurn_completes {s : State} (h : s.csr.busy = true) : Completes (coreTurn s) := by
  rw [coreTurn_busy h]
  unfold runCommand
  split
  · exact exec_completes ..
  · exact completes_raise ..

/-! ### The host leaves the schedule alone -/

theorem csrWrite_schedule {s s' : State} {c : CsrName} {v : Word} (h : s.csrWrite c v = some s') :
    s'.schedule = s.schedule := by
  cases c <;> simp only [State.csrWrite, Option.some.injEq, reduceCtorEq] at h <;> subst h <;> rfl

@[simp] theorem mmioRead_schedule (s : State) (off n : Nat) : (s.mmioRead off n).schedule = s.schedule := by
  unfold State.mmioRead
  split
  · split <;> rfl
  · rfl

@[simp] theorem mmioWrite_schedule (s : State) (off n : Nat) (v : Word) : (s.mmioWrite off n v).schedule = s.schedule := by
  unfold State.mmioWrite
  split
  · rfl
  · split
    · rename_i s' hw
      split
      · rfl
      · exact csrWrite_schedule hw
    · rfl
  · rfl

@[simp] theorem hostAct_schedule (s : State) (t : HostTxn) : (s.hostAct t).schedule = s.schedule := by
  cases t with
  | mmioRead addr n => simp only [State.hostAct]; split <;> simp
  | mmioWrite addr n v => simp only [State.hostAct]; split <;> simp
  | memRead a n => rfl
  | memWrite a n v => rfl
  | reset => rfl

/-! ### An accepted command ends (00_scope.md R20) -/

/-- Within n steps more, and then one, the command has ended. -/
def EndsWithin (n : Nat) (s : State) : Prop :=
  ∃ k u t, k ≤ n ∧ Reaches k s u ∧ step u = .next t ∧ t.csr.busy = false

theorem endsWithin_of_step {s t : State} (n : Nat) (hs : step s = .next t) (hb : t.csr.busy = false) : EndsWithin n s :=
  ⟨0, s, t, Nat.zero_le n, rfl, hs, hb⟩

theorem endsWithin_of_completes {s : State} (n : Nat) (h : Completes (step s)) : EndsWithin n s := by
  obtain ⟨u, hu⟩ := h
  exact endsWithin_of_step n hu (by simp)

theorem endsWithin_succ {s t : State} {n : Nat} (hs : step s = .next t) (h : EndsWithin n t) : EndsWithin (n + 1) s := by
  obtain ⟨k, u, v, hk, hr, hu, hv⟩ := h
  exact ⟨k + 1, u, v, Nat.succ_le_succ hk, ⟨t, hs, hr⟩, hu, hv⟩

/-- By induction on the schedule: a turn of the sequencer ends the command; a turn of the host ends it (a reset) or leaves
it running with one turn fewer scheduled. -/
theorem running_endsWithin {s : State} {turns : List Turn} (hs : s.schedule = turns) (hb : s.csr.busy = true) :
    EndsWithin turns.length s := by
  induction turns generalizing s with
  | nil => exact endsWithin_of_completes _ (step_unscheduled hs ▸ coreTurn_completes hb)
  | cons turn rest ih =>
    cases turn with
    | core => exact endsWithin_of_completes _ (step_core hs ▸ coreTurn_completes hb)
    | host t =>
      cases hb' : (State.hostAct { s with schedule := rest } t).csr.busy with
      | false => exact endsWithin_of_step _ (step_host hs) hb'
      | true => exact endsWithin_succ (step_host hs) (ih (by simp) hb')

/-- Settles O15: the schedule runs down to the sequencer's turn, and every command it runs completes. -/
theorem everyAcceptedCommandEnds : Obligations.EveryAcceptedCommandEnds :=
  fun _ hb => running_endsWithin rfl hb

/-! ### A step runs the accepted command (00_scope.md R18) -/

theorem decode_of_decodeTableWord {nbits w : Nat} {i : Instr} (h : decodeTableWord nbits w = some i) :
    decode (BitVec.ofNat 32 (w % 2 ^ nbits)) = .ok i := by
  unfold decodeTableWord at h
  split at h
  · rename_i hd
    rw [hd, Option.some.inj h]
  · cases h

/-- The step after a word is issued is the sequencer's turn right after its acceptance. -/
theorem step_issue (s : State) (w : CmdWord) : step (s.issue w) = coreTurn (s.accept w) :=
  step_core (State_issue_schedule s w)

/-- Settles O5: each case of the schedule by the lemma of its turn, and an issued word by `step_issue`. -/
theorem stepRunsTheAcceptedCommand : Obligations.StepRunsTheAcceptedCommand := by
  refine ⟨fun s i hb hd hs => ?_, fun s i rest hb hd hs => ?_, fun s hb hs => ?_, fun s rest hb hs => ?_,
    fun s w i hw hd => ?_⟩
  · rw [step_unscheduled hs, coreTurn_of_decode hb hd]
  · rw [step_core hs]
    exact coreTurn_of_decode hb hd
  · rw [step_unscheduled hs, coreTurn_idle hb]
  · rw [step_core hs]
    exact coreTurn_idle hb
  · have hdec := decode_of_decodeTableWord hd
    rw [Nat.mod_eq_of_lt hw] at hdec
    rw [State.withFetchWord, Nat.mod_eq_of_lt hw, step_issue]
    exact coreTurn_of_decode rfl hdec

end Sys2Proof.Machine
end

section
/-! PROOFS (10_state.md R34, R38 to R55). What a command may change: `Effect`, a preorder on states that every operation of
the block keeps within. -/

namespace Sys2Proof.Machine

/-! ### Outcomes -/

/-- The outcome is a next state, of which P holds. -/
def Yields (o : Host.Outcome State Fault Refusal) (P : State → Prop) : Prop := ∃ t, o = .next t ∧ P t

@[simp] theorem yields_next {t : State} {P : State → Prop} : Yields (.next t) P ↔ P t := by simp [Yields]

theorem yields_of_next {o : Host.Outcome State Fault Refusal} {P : State → Prop} {t : State} (h : Yields o P)
    (ho : o = .next t) : P t := by
  rwa [ho, yields_next] at h

theorem startAN_yields {s : State} {k : AnSetup → Host.Outcome State Fault Refusal} {P : State → Prop}
    (hk : ∀ c, s.anSetup = some c → Yields (k c) P) (hr : P (s.raise .configError 0 0)) : Yields (s.startAN k) P := by
  obtain ⟨c, hc, h⟩ | ⟨-, h⟩ := startAN_cases s k
  · rw [h]; exact hk c hc
  · rw [h]; exact yields_next.2 hr

theorem startHam_yields {s : State} {k : Nat → Host.Outcome State Fault Refusal} {P : State → Prop}
    (hk : Yields (k (cfgEW s.csr.cfg).bits) P) (hr : P (s.raise .configError 0 0)) : Yields (s.startHam k) P := by
  obtain ⟨hw, h⟩ | ⟨hw, h⟩ | ⟨-, -, h⟩ := startHam_cases s k
  · rw [h]; rwa [hw] at hk
  · rw [h]; rwa [hw] at hk
  · rw [h]; exact yields_next.2 hr

theorem overlapCheck_yields {s : State} {ss ds : Nat} {k : Host.Outcome State Fault Refusal} {P : State → Prop}
    (hk : Yields k P) (hr : P (s.raise .bufferOverlap 0 0)) : Yields (s.overlapCheck ss ds k) P := by
  obtain ⟨-, h⟩ | ⟨-, h⟩ := overlapCheck_cases s ss ds k
  · rw [h]; exact hk
  · rw [h]; exact yields_next.2 hr

theorem outcome_yields {f : Flow} {R P : State → Prop} {done : State → State} (hf : f.Holds R P)
    (hd : ∀ u, R u → P (done u)) : Yields (f.outcome done) P := by
  cases f with
  | running u => exact yields_next.2 (hd u hf)
  | ended u => exact yields_next.2 hf

/-- `StartAN()` gives the width of CFG.EW, at which A and AINV were committed (41_an_codec.md R170). -/
theorem anSetup_ready {s : State} {c : AnSetup} (h : s.anSetup = some c) :
    c.w = (cfgEW s.csr.cfg).bits ∧ cfgEW s.csr.cfg ≠ .e64 ∧ awValid s.csr.aw = true ∧ awEW s.csr.aw = cfgEW s.csr.cfg := by
  unfold State.anSetup at h
  split at h
  · cases h
  · split at h
    · cases h
    · cases h
      simp_all

/-! ### What a command may change -/

/-- The results a command may change besides memory, completion's flags and the error report. -/
inductive Result where
  | pair | aw | hmcount | solvA | vcnt | vregs

/-- The results each command may change, by the "Registers written" of the family rules. -/
def Instr.results : Instr → List Result
  | .seta => [.pair, .aw]
  | .reenc => [.pair]
  | .modinv => [.solvA]
  | .hchk => [.hmcount]
  | .nop | .enc | .chk | .dec | .decchk | .arithAdd | .arithSub | .arithMul | .arithDiv | .henc => []
  | .vcompress .. => [.vregs, .vcnt]
  | .vld .. | .vst .. | .vadd .. | .vsub .. | .vmullo .. | .vdiv .. | .vmin .. | .vmax .. => [.vregs]
  | .vcmpLt .. | .vcmpLe .. | .vcmpEq .. | .vcmpNe .. | .vcmpGe .. | .vcmpGt .. => [.vregs]
  | .vredsum .. | .vredmin .. | .vredmax .. | .vpopcnt .. | .vhpar .. => [.vregs]

/-- The part of `State.Inv` that holds inside a command too. -/
structure State.Sound (s : State) : Prop where
  mem_wf : s.mem.wf
  pair : s.csr.pairInv
  vregs_fit : ∀ r : VNum, truncVLen s.params (s.vregs.get r).val = (s.vregs.get r).val
  vcnt_le : s.csr.vcnt.toNat ≤ s.params.vlen.bits / 8
  no_error_no_location : s.csr.err = .none → s.csr.failIndex = 0 ∧ s.csr.failIter = 0
  fault_setting : s.vregFault ≠ none → s.params.vregUninit = .fault

/-- From s to t nothing has changed but the results in rs, the bytes of the range R, the flags and report of a command, and
the sequencer's own fields; and what is sound stays sound. -/
structure Effect (rs : List Result) (R : Nat × Nat) (s t : State) : Prop where
  params : t.params = s.params
  schedule : t.schedule = s.schedule
  rdata : t.rdata = s.rdata
  operands : s.csr.keeps t.csr
  pair : .pair ∉ rs → t.csr.a = s.csr.a ∧ t.csr.ainv = s.csr.ainv
  aw : .aw ∉ rs → t.csr.aw = s.csr.aw
  hmcount : .hmcount ∉ rs → t.csr.hmcount = s.csr.hmcount
  solvA : .solvA ∉ rs → t.csr.solvA = s.csr.solvA
  vcnt : .vcnt ∉ rs → t.csr.vcnt = s.csr.vcnt
  vregs : .vregs ∉ rs → t.vregs = s.vregs ∧ t.vregFault = s.vregFault
  bytes : ∀ a, inRange R a = false → t.mem.readByte a = s.mem.readByte a
  sound : s.Sound → t.Sound

theorem keeps_refl (c : Csrs) : c.keeps c := by simp [Csrs.keeps]

theorem keeps_trans {c d e : Csrs} (h1 : c.keeps d) (h2 : d.keeps e) : c.keeps e := by
  unfold Csrs.keeps at *
  simp only [h1, h2, and_self]

section
variable {rs : List Result} {R : Nat × Nat} {s t u : State}

theorem Effect.refl (rs : List Result) (R : Nat × Nat) (s : State) : Effect rs R s s :=
  ⟨rfl, rfl, rfl, keeps_refl _, fun _ => ⟨rfl, rfl⟩, fun _ => rfl, fun _ => rfl, fun _ => rfl, fun _ => rfl,
    fun _ => ⟨rfl, rfl⟩, fun _ _ => rfl, id⟩

theorem Effect.trans (h1 : Effect rs R s t) (h2 : Effect rs R t u) : Effect rs R s u where
  params := h2.params.trans h1.params
  schedule := h2.schedule.trans h1.schedule
  rdata := h2.rdata.trans h1.rdata
  operands := keeps_trans h1.operands h2.operands
  pair h := ⟨(h2.pair h).1.trans (h1.pair h).1, (h2.pair h).2.trans (h1.pair h).2⟩
  aw h := (h2.aw h).trans (h1.aw h)
  hmcount h := (h2.hmcount h).trans (h1.hmcount h)
  solvA h := (h2.solvA h).trans (h1.solvA h)
  vcnt h := (h2.vcnt h).trans (h1.vcnt h)
  vregs h := ⟨(h2.vregs h).1.trans (h1.vregs h).1, (h2.vregs h).2.trans (h1.vregs h).2⟩
  bytes a h := (h2.bytes a h).trans (h1.bytes a h)
  sound h := h2.sound (h1.sound h)

/-! ### The operations of the block -/

theorem Effect.complete (h : Effect rs R s u) : Effect rs R s u.complete :=
  h.trans { Effect.refl rs R u with sound := fun hu => { hu with } }

theorem Effect.raise (h : Effect rs R s u) {e : ErrCode} (he : e ≠ .none) (i it : Nat) :
    Effect rs R s (u.raise e i it) :=
  h.trans { Effect.refl rs R u with
    sound := fun hu => { hu with no_error_no_location := fun hn => absurd hn he } }

theorem Effect.seq (h : Effect rs R s u) (q : Seq) : Effect rs R s { u with seq := q } :=
  h.trans { Effect.refl rs R u with sound := fun hu => { hu with } }

theorem Effect.memRead (h : Effect rs R s u) (a n : Nat) : Effect rs R s (u.memRead a n).2 :=
  h.trans { Effect.refl rs R u with sound := fun hu => { hu with } }

theorem Effect.memWrite (h : Effect rs R s u) {a n : Nat} (v : Nat) (ha : u.admits a n = true)
    (hin : ∀ b, inRange R b = false → b < a ∨ a + n ≤ b) : Effect rs R s (u.memWrite a n v) :=
  h.trans { Effect.refl rs R u with
    bytes := fun b hb => State_memWrite_readByte_outside u v (hin b hb)
    sound := fun hu => { hu with mem_wf := State_memWrite_wf hu.mem_wf v ha } }

theorem Effect.noteRead (h : Effect rs R s u) (hv : .vregs ∈ rs) (r : VNum) : Effect rs R s (u.noteRead r) :=
  h.trans { Effect.refl rs R u with
    vregs := absurd hv
    sound := fun hu => { hu with
      fault_setting := fun hf => by
        simp only [State.noteRead] at hf
        split at hf
        · rename_i hc
          exact hc.2.1
        · exact hu.fault_setting hf } }

theorem Effect.writeV (h : Effect rs R s u) (hv : .vregs ∈ rs) (r : VNum) (x : VWord) : Effect rs R s (u.writeV r x) :=
  h.trans { Effect.refl rs R u with
    vregs := absurd hv
    sound := fun hu => { hu with
      vregs_fit := fun q => by
        by_cases hq : q = r
        · rw [hq, writeV_get_same]
          exact truncVLen_truncVLen _ _
        · rw [writeV_get_ne u x hq]
          exact hu.vregs_fit q } }

theorem Effect.setVcnt (h : Effect rs R s u) (hv : .vcnt ∈ rs) {n : Word} (hn : n.toNat ≤ u.params.vlen.bits / 8) :
    Effect rs R s { u with csr := { u.csr with vcnt := n } } :=
  h.trans { Effect.refl rs R u with vcnt := absurd hv, sound := fun hu => { hu with vcnt_le := hn } }

theorem Effect.setSolvA (h : Effect rs R s u) (hv : .solvA ∈ rs) (v : Word) :
    Effect rs R s { u with csr := { u.csr with solvA := v } } :=
  h.trans { Effect.refl rs R u with solvA := absurd hv, sound := fun hu => { hu with } }

end

end Sys2Proof.Machine
end

section
/-! PROOFS (10_state.md R34, R38 to R55, 20_memory.md R89). The effect of every instruction, from those of the operations it
is made of. From it: a command touches only its destination (O17), and each result register has one writer (O18). -/

namespace Sys2Proof.Machine

/-! ### The committed pair (10_state.md R38 to R40) -/

theorem awValid_awOf (ew : EW) : awValid (awOf ew) = true := by cases ew <;> decide

theorem awEW_awOf (ew : EW) : awEW (awOf ew) = ew := by cases ew <;> decide

theorem bits_le_of_ne_e64 {ew : EW} (h : ew ≠ .e64) : ew.bits ≤ 32 := by
  cases ew <;> simp_all [EW.bits]

/-- A constant that passes its check, committed with its inverse for a width below 64, is a sound pair. -/
theorem pairInv_of_commit {c : Csrs} {ew : EW} {ainv : Nat} (hew : ew ≠ .e64) (haw : c.aw = awOf ew)
    (hck : checkConstant c.a.toNat ew.bits = .ok ainv) (hinv : c.ainv = BitVec.ofNat 64 ainv) : c.pairInv := by
  obtain ⟨hlt, hodd, hilt, hmul⟩ := checkConstant_ok hck
  have hpow : 2 ^ (2 * ew.bits) ≤ 2 ^ 64 := Nat.pow_le_pow_right (by decide) (by have := bits_le_of_ne_e64 hew; omega)
  have hnat : c.ainv.toNat = ainv := by rw [hinv, BitVec.toNat_ofNat, Nat.mod_eq_of_lt (by omega)]
  simp only [Csrs.pairInv, haw, awValid_awOf, awEW_awOf, hnat, if_true, true_and]
  exact ⟨hew, hlt, hodd, hilt, hmul⟩

theorem aw_of_pairInv {c : Csrs} (h : c.pairInv) (hv : awValid c.aw = true) : c.aw = awOf (awEW c.aw) := by
  simp only [Csrs.pairInv, hv, if_true] at h
  exact h.2.1

/-! ### The loop of the stream commands -/

section
variable {rs : List Result} {R : Nat × Nat} {s u : State}

/-- One turn of the copying body at an element of the buffers: only that element of the destination is written. -/
theorem copyBody_effect {ss ds : Nat} (ok : Nat → Bool) (f : Params → Nat → Nat)
    (h : Effect rs (s.csr.dst.toNat, s.csr.count.toNat * ds) s u) (hi : u.seq.i < s.csr.count.toNat) :
    (copyBody ss ds ok f u).Holds
      (fun u' => Effect rs (s.csr.dst.toNat, s.csr.count.toNat * ds) s u' ∧ u'.seq.i = u.seq.i)
      (Effect rs (s.csr.dst.toNat, s.csr.count.toNat * ds) s) := by
  have hread := h.memRead (elemAddr u.csr.src.toNat u.seq.i ss) ss
  refine loadElem_holds (fun _ => ?_) fun _ => h.raise (by simp) _ _
  split
  · refine storeElem_holds (fun ha => ⟨hread.memWrite _ ha fun b hb => ?_, rfl⟩) fun _ => hread.raise (by simp) _ _
    have hle := Nat.mul_le_mul_right ds hi
    obtain ⟨-, -, -, -, -, hdst, -⟩ := h.operands
    rw [inRange_eq_false] at hb
    simp only [elemAddr, State_memRead_state_csr, State_memRead_state_seq, hdst]
    rw [Nat.succ_mul] at hle
    omega
  · exact hread.raise (by simp) _ _

theorem copyStream_effect (ss ds : Nat) (ok : Nat → Bool) (f : Params → Nat → Nat) :
    (s.stream (copyBody ss ds ok f)).Holds (Effect rs (s.csr.dst.toNat, s.csr.count.toNat * ds) s)
      (Effect rs (s.csr.dst.toNat, s.csr.count.toNat * ds) s) := by
  refine Flow_holds_mono (stream_holds
    (fun _ i u => Effect rs (s.csr.dst.toNat, s.csr.count.toNat * ds) s u ∧ u.seq.i = i)
    ⟨(Effect.refl ..).seq _, rfl⟩ (fun it _ i hi u hu => ?_) fun it _ u hu => ⟨hu.1.seq _, rfl⟩)
    (fun _ hu => hu.1) fun _ hu => hu
  obtain ⟨hu, rfl⟩ := hu
  exact Flow_holds_mono (copyBody_effect ok f hu hi) (fun v hv => ⟨hv.1.seq _, congrArg (· + 1) hv.2⟩) fun _ hv => hv

theorem chkStream_effect (c : AnSetup) : (s.stream (chkBody c)).Holds (Effect rs R s) (Effect rs R s) := by
  refine stream_keeps _ ((Effect.refl ..).seq _) (fun u hu => ?_) (fun u hu => hu.seq _) fun u hu => hu.seq _
  refine loadElem_holds (fun _ => ?_) fun _ => hu.raise (by simp) _ _
  split
  · exact hu.memRead _ _
  · exact (hu.memRead _ _).raise (by simp) _ _

/-! HCHK writes a location before it reports its error: inside the loop the effect is that of the state with the location
of s put back. -/

/-- u with the error location of s. -/
def State.withLocationOf (u s : State) : State :=
  { u with csr := { u.csr with failIndex := s.csr.failIndex, failIter := s.csr.failIter } }

/-- Where HCHK's loop stands: only HMCOUNT and, after a mismatch, the error location differ. -/
def HchkAt (R : Nat × Nat) (s u : State) : Prop :=
  Effect [.hmcount] R s (u.withLocationOf s) ∧ (u.seq.found = false → u.withLocationOf s = u)

theorem HchkAt.raise (h : HchkAt R s u) {e : ErrCode} (he : e ≠ .none) (i it : Nat) :
    Effect [.hmcount] R s (u.raise e i it) := h.1.raise he i it

theorem HchkAt.noteMismatch (h : HchkAt R s u) : HchkAt R s u.noteMismatch :=
  ⟨h.1.trans { Effect.refl [.hmcount] R (u.withLocationOf s) with
      hmcount := by simp
      sound := fun hu => { hu with } },
    by simp⟩

theorem HchkAt.finish (h : HchkAt R s u) : Effect [.hmcount] R s u.finishHchk := by
  cases hf : u.seq.found with
  | true =>
    have ht := h.raise (e := .checksumMismatch) (by simp) u.csr.failIndex.toNat u.csr.failIter.toNat
    simpa [State.finishHchk, hf, State.raise, Csrs.report] using ht
  | false =>
    have hu := h.1
    rw [h.2 hf] at hu
    simpa [State.finishHchk, hf] using hu.complete

theorem hchkStream_effect (w : Nat) : (s.stream (hchkBody w)).Holds (HchkAt R s) (Effect [.hmcount] R s) := by
  refine stream_keeps _ ⟨(Effect.refl ..).seq _, fun _ => rfl⟩ (fun u hu => ?_) (fun u hu => ⟨hu.1.seq _, fun hf => ?_⟩)
    fun u hu => ⟨hu.1.seq _, fun hf => ?_⟩
  · have hread : HchkAt R s (u.memRead (elemAddr u.csr.src.toNat u.seq.i (2 * (w / 8))) (2 * (w / 8))).2 :=
      ⟨hu.1.memRead _ _, fun hf => congrArg (fun v => (State.memRead v _ _).2) (hu.2 hf)⟩
    refine loadElem_holds (fun _ => ?_) fun _ => hu.raise (by simp) _ _
    split
    · exact hread
    · exact hread.noteMismatch
  · exact congrArg State.nextElem (hu.2 hf)
  · exact congrArg State.nextIter (hu.2 hf)

end

/-! ### The commands -/

/-- A command that copies a buffer, after its start checks. -/
theorem copyCommand_effect {rs : List Result} {s : State} {ss ds n : Nat} {ok : Nat → Bool} {f : Params → Nat → Nat}
    (hn : ds = n) :
    Yields (s.overlapCheck ss ds ((s.stream (copyBody ss ds ok f)).outcome State.complete))
      (Effect rs (s.csr.dst.toNat, s.csr.count.toNat * n) s) :=
  hn ▸ overlapCheck_yields (outcome_yields (copyStream_effect ss ds ok f) fun _ hu => hu.complete)
    ((Effect.refl ..).raise (by simp) _ _)

/-- A refusal of a command's start checks. -/
theorem raise_effect (rs : List Result) (R : Nat × Nat) (s : State) {e : ErrCode} (he : e ≠ .none) (i it : Nat) :
    Effect rs R s (s.raise e i it) := (Effect.refl rs R s).raise he i it

theorem checkConstant_error_ne_none {c w : Nat} {e : ErrCode} (h : checkConstant c w = .error e) : e ≠ .none := by
  obtain ⟨rfl, -⟩ | ⟨rfl, -⟩ := checkConstant_error h <;> simp

theorem execSeta_effect (R : Nat × Nat) (s : State) : Yields (execSeta s) (Effect [.pair, .aw] R s) := by
  unfold execSeta
  split
  · exact yields_next.2 (raise_effect _ _ _ (by simp) _ _)
  · rename_i hew
    split
    · rename_i e hck
      exact yields_next.2 (raise_effect _ _ _ (checkConstant_error_ne_none hck) _ _)
    · rename_i ainv hck
      refine yields_next.2 (Effect.complete { Effect.refl _ R s with pair := by simp, aw := by simp, sound := fun hs => ?_ })
      exact { hs with pair := pairInv_of_commit hew rfl hck rfl }

theorem execModinv_effect (R : Nat × Nat) (s : State) : Yields (execModinv s) (Effect [.solvA] R s) := by
  unfold execModinv
  split
  · exact yields_next.2 (raise_effect _ _ _ (by simp) _ _)
  · split
    · exact yields_next.2 (raise_effect _ _ _ (by simp) _ _)
    · split
      · exact yields_next.2 ((Effect.refl ..).setSolvA (by simp) _).complete
      · exact yields_next.2 (raise_effect _ _ _ (by simp) _ _)

/-- REENC's commit, in a state that its loop ended in (41_an_codec.md R190). -/
theorem commitPair_effect {R : Nat × Nat} {s u : State} {c : AnSetup} {ainv : Nat} (hc : s.anSetup = some c)
    (hck : checkConstant s.csr.aIn.toNat c.w = .ok ainv) (h : Effect [.pair] R s u) :
    Effect [.pair] R s (u.commitPair ainv) := by
  obtain ⟨hw, hew, hv, haw⟩ := anSetup_ready hc
  obtain ⟨-, -, -, haIn, -⟩ := h.operands
  have hu := h.aw (by simp)
  refine h.trans { Effect.refl _ R u with pair := by simp, sound := fun hs => { hs with pair := ?_ } }
  have hawu := aw_of_pairInv hs.pair (hu ▸ hv)
  rw [hu, haw] at hawu
  exact pairInv_of_commit hew (hu.trans hawu |>.symm ▸ rfl) (by simpa [haIn, hw] using hck) rfl

theorem rawBytes_of_anSetup {s : State} {c : AnSetup} (h : s.anSetup = some c) :
    c.rawBytes = (cfgEW s.csr.cfg).bits / 8 := by rw [AnSetup.rawBytes, (anSetup_ready h).1]

theorem encBytes_of_anSetup {s : State} {c : AnSetup} (h : s.anSetup = some c) :
    c.encBytes = 2 * (cfgEW s.csr.cfg).bits / 8 := by rw [AnSetup.encBytes, (anSetup_ready h).1]

theorem execEnc_effect (s : State) : Yields (execEnc s) (Effect [] (dstRange s .enc) s) := by
  refine startAN_yields (fun c hc => ?_) (raise_effect _ _ _ (by simp) _ _)
  rw [encBody_eq_copyBody]
  exact copyCommand_effect (encBytes_of_anSetup hc)

theorem execChk_effect (R : Nat × Nat) (s : State) : Yields (execChk s) (Effect [] R s) :=
  startAN_yields (fun c _ => outcome_yields (chkStream_effect c) fun _ hu => hu.complete)
    (raise_effect _ _ _ (by simp) _ _)

theorem execDec_effect (s : State) : Yields (execDec s) (Effect [] (dstRange s .dec) s) := by
  refine startAN_yields (fun c hc => ?_) (raise_effect _ _ _ (by simp) _ _)
  rw [decBody_eq_copyBody]
  exact copyCommand_effect (rawBytes_of_anSetup hc)

theorem execDecchk_effect (s : State) : Yields (execDecchk s) (Effect [] (dstRange s .decchk) s) := by
  refine startAN_yields (fun c hc => ?_) (raise_effect _ _ _ (by simp) _ _)
  rw [decchkBody_eq_copyBody]
  exact copyCommand_effect (rawBytes_of_anSetup hc)

theorem execReenc_effect (s : State) : Yields (execReenc s) (Effect [.pair] (dstRange s .reenc) s) := by
  refine startAN_yields (fun c hc => ?_) (raise_effect _ _ _ (by simp) _ _)
  have hR : dstRange s .reenc = (s.csr.dst.toNat, s.csr.count.toNat * c.encBytes) := by
    rw [encBytes_of_anSetup hc]
    rfl
  rw [hR]
  split
  · rename_i e hck
    exact yields_next.2 (raise_effect _ _ _ (checkConstant_error_ne_none hck) _ _)
  · rename_i ainv hck
    rw [reencBody_eq_copyBody]
    exact overlapCheck_yields
      (outcome_yields (copyStream_effect _ _ _ _) fun u hu => (commitPair_effect hc hck hu).complete)
      (raise_effect _ _ _ (by simp) _ _)

/-- The range is the destination of each of the four ARITH commands. -/
theorem arithRun_effect {s : State} {c : AnSetup} (hc : s.anSetup = some c) (f : BitVec (2 * c.w) → BitVec (2 * c.w)) :
    Yields (s.arithRun c f) (Effect [] (s.csr.dst.toNat, s.csr.count.toNat * (2 * (cfgEW s.csr.cfg).bits / 8)) s) := by
  rw [State.arithRun, arithBody_eq_copyBody]
  exact copyCommand_effect (encBytes_of_anSetup hc)

theorem execArithDiv_effect (s : State) : Yields (execArithDiv s) (Effect [] (dstRange s .arithDiv) s) := by
  refine startAN_yields (fun c hc => ?_) (raise_effect _ _ _ (by simp) _ _)
  split
  · exact yields_next.2 (raise_effect _ _ _ (by simp) _ _)
  · exact arithRun_effect hc _

theorem execHenc_effect (s : State) : Yields (execHenc s) (Effect [] (dstRange s .henc) s) := by
  refine startHam_yields ?_ (raise_effect _ _ _ (by simp) _ _)
  rw [hencBody_eq_copyBody]
  exact copyCommand_effect rfl

theorem execHchk_effect (R : Nat × Nat) (s : State) : Yields (execHchk s) (Effect [.hmcount] R s) :=
  startHam_yields (outcome_yields (hchkStream_effect _) fun _ hu => hu.finish) (raise_effect _ _ _ (by simp) _ _)

theorem execVld_effect (R : Nat × Nat) (vr : VNum) (imm : BitVec 16) (s : State) :
    Yields (execVld vr imm s) (Effect [.vregs] R s) := by
  unfold execVld
  split
  · exact yields_next.2 (((Effect.refl ..).memRead _ _).writeV (by simp) _ _).complete
  · exact yields_next.2 (raise_effect _ _ _ (by simp) _ _)

theorem execVst_effect (vr : VNum) (imm : BitVec 16) (s : State) :
    Yields (execVst vr imm s) (Effect [.vregs] (dstRange s (.vst vr imm)) s) := by
  have hnote := (Effect.refl [.vregs] (dstRange s (.vst vr imm)) s).noteRead (by simp) vr
  rw [execVst, withV_eq]
  split
  · rename_i ha
    exact yields_next.2 (hnote.memWrite _ ha fun b hb => inRange_eq_false.1 hb).complete
  · exact yields_next.2 (hnote.raise (by simp) _ _)

theorem lanewise2_effect (R : Nat × Nat) (f : (n : Nat) → BitVec n → BitVec n → BitVec n) (vd vs1 vs2 : VNum) (ew : EW)
    (s : State) : Yields (lanewise2 f vd vs1 vs2 ew s) (Effect [.vregs] R s) :=
  yields_next.2 ((((Effect.refl ..).noteRead (by simp) _).noteRead (by simp) _).writeV (by simp) _ _).complete

theorem fromLanes_effect (R : Nat × Nat) (f : (n : Nat) → List (BitVec n) → VWord) (vd vs1 : VNum) (ew : EW)
    (s : State) : Yields (fromLanes f vd vs1 ew s) (Effect [.vregs] R s) :=
  yields_next.2 (((Effect.refl ..).noteRead (by simp) _).writeV (by simp) _ _).complete

theorem execVdiv_effect (R : Nat × Nat) (vd vs1 vs2 : VNum) (ew : EW) (sg : Sgn) (s : State) :
    Yields (execVdiv vd vs1 vs2 ew sg s) (Effect [.vregs] R s) := by
  have hnote := ((Effect.refl [.vregs] R s).noteRead (by simp) vs1).noteRead (by simp) vs2
  rw [execVdiv, withV_eq, withV_eq]
  split
  · exact yields_next.2 (hnote.raise (by simp) _ _)
  · exact yields_next.2 (hnote.writeV (by simp) _ _).complete

theorem laneCount_le (p : Params) (ew : EW) : laneCount p ew ≤ p.vlen.bits / 8 :=
  Nat.div_le_div_left (by cases ew <;> decide) (by decide)

theorem execVcompress_effect (R : Nat × Nat) (vd vs1 vs2 : VNum) (ew : EW) (sg : Sgn) (s : State) :
    Yields (execVcompress vd vs1 vs2 ew sg s) (Effect [.vregs, .vcnt] R s) := by
  have hnote := ((Effect.refl [.vregs, .vcnt] R s).noteRead (by simp) vs1).noteRead (by simp) vs2
  refine yields_next.2 ((hnote.writeV (by simp) vd _).setVcnt (by simp) ?_).complete
  have hlen := selectLanes_length_le (s.lanes ew (s.vregs.get vs1).val) (s.lanes ew (s.vregs.get vs2).val)
  rw [State_lanes_length] at hlen
  exact (BitVec.toNat_ofNat _ _).trans_le ((Nat.mod_le _ _).trans (hlen.trans (laneCount_le _ _)))

theorem execVhpar_effect (R : Nat × Nat) (vd vs1 : VNum) (ew : EW) (sg : Sgn) (k : Fin 8) (s : State) :
    Yields (execVhpar vd vs1 ew sg k s) (Effect [.vregs] R s) := by
  unfold execVhpar
  split
  · exact fromLanes_effect ..
  · exact yields_next.2 (raise_effect _ _ _ (by simp) _ _)

/-- Every instruction, from every state, changes its results and its destination range alone, and keeps what is sound. -/
theorem exec_effect (i : Instr) (s : State) : Yields (exec i s) (Effect (Instr.results i) (dstRange s i) s) := by
  cases i with
  | nop => exact yields_next.2 (Effect.refl ..).complete
  | seta => exact execSeta_effect _ s
  | modinv => exact execModinv_effect _ s
  | enc => exact execEnc_effect s
  | chk => exact execChk_effect _ s
  | dec => exact execDec_effect s
  | decchk => exact execDecchk_effect s
  | reenc => exact execReenc_effect s
  | arithAdd | arithSub | arithMul =>
    exact startAN_yields (fun c hc => arithRun_effect hc _) (raise_effect _ _ _ (by simp) _ _)
  | arithDiv => exact execArithDiv_effect s
  | henc => exact execHenc_effect s
  | hchk => exact execHchk_effect _ s
  | vld vr imm => exact execVld_effect _ vr imm s
  | vst vr imm => exact execVst_effect vr imm s
  | vadd | vsub | vmullo | vmin | vmax | vcmpLt | vcmpLe | vcmpEq | vcmpNe | vcmpGe | vcmpGt =>
    simp only [exec, execVadd, execVsub, execVmullo, execVmin, execVmax, execVcmpLt, execVcmpLe, execVcmpEq, execVcmpNe,
      execVcmpGe, execVcmpGt, Instr.results, lanewise2_effect]
  | vdiv vd vs1 vs2 ew sg => exact execVdiv_effect _ vd vs1 vs2 ew sg s
  | vredsum | vredmin | vredmax | vpopcnt =>
    simp only [exec, execVredsum, execVredmin, execVredmax, execVpopcnt, Instr.results, fromLanes_effect]
  | vcompress vd vs1 vs2 ew sg => exact execVcompress_effect _ vd vs1 vs2 ew sg s
  | vhpar vd vs1 ew sg k => exact execVhpar_effect _ vd vs1 ew sg k s

/-- Settles O17: the frame is the effect of the instruction, the flags are those of completion. -/
theorem commandsTouchOnlyTheirDestination : Obligations.CommandsTouchOnlyTheirDestination := by
  intro i s t h
  obtain ⟨u, hu⟩ := exec_completes i s
  obtain rfl : t = u.complete := by simpa [h] using hu
  have he := yields_of_next (exec_effect i s) h
  exact ⟨rfl, rfl, he.operands, he.params, he.schedule, he.rdata, he.bytes⟩

/-- Settles O18: a result that is not among an instruction's own is as it was. -/
theorem resultRegistersHaveOneWriter : Obligations.ResultRegistersHaveOneWriter := by
  intro i s t h
  have he := yields_of_next (exec_effect i s) h
  refine ⟨fun h1 h2 => he.pair ?_, fun h1 => he.aw ?_, fun h1 => he.hmcount ?_, fun h1 => he.solvA ?_,
    fun h1 => he.vcnt ?_, fun h1 => he.vregs ?_⟩
  · cases i <;> simp_all [Instr.results]
  · cases i <;> simp_all [Instr.results]
  · cases i <;> simp_all [Instr.results]
  · cases i <;> simp_all [Instr.results]
  · cases i with
    | vcompress => exact (h1 _ _ _ _ _ rfl).elim
    | _ => simp [Instr.results]
  · cases i <;> simp_all [Instr.results]

end Sys2Proof.Machine
end

section
/-! PROOFS (10_state.md R36, R38 to R40, R52, R54, R59). The invariant of the machine's state: it holds at reset (O13) and
every step keeps it (O14), a command by its effect, a turn of the host by what it writes. -/

namespace Sys2Proof.Machine

/-! ### Through a command -/

theorem State.Inv.sound {s : State} (h : s.Inv) : s.Sound := { h with }

/-- The invariant is what is sound inside a command and four facts about the moments between two steps. -/
theorem inv_of_sound {s : State} (h : s.Sound) (hcfg : s.csr.cfg &&& cfgMask = s.csr.cfg)
    (hbusy : s.csr.busy = true → s.csr.done = false ∧ s.csr.err = .none ∧ s.csr.hmcount = 0) (hseq : s.seq = Seq.idle)
    (hraced : s.csr.busy = false → s.raced = []) : s.Inv :=
  { h with cfg_reserved := hcfg, busy_unreported := hbusy, seq_idle := hseq, raced_busy := hraced }

/-- A command that ends with an effect of its own leaves the invariant. -/
theorem inv_of_effect {rs : List Result} {R : Nat × Nat} {s t : State} (hs : s.Inv) (he : Effect rs R s t)
    (ht : t.Completed) : t.Inv := by
  obtain ⟨u, rfl⟩ := ht
  obtain ⟨-, -, hcfg, -⟩ := he.operands
  refine inv_of_sound (he.sound hs.sound) ?_ (by simp) rfl fun _ => rfl
  rw [hcfg]
  exact hs.cfg_reserved

theorem exec_inv {i : Instr} {s t : State} (hs : s.Inv) (h : exec i s = .next t) : t.Inv := by
  refine inv_of_effect hs (yields_of_next (exec_effect i s) h) ?_
  have hc := exec_completes i s
  rwa [h, completes_next_iff] at hc

theorem coreTurn_inv {s t : State} (hs : s.Inv) (h : coreTurn s = .next t) : t.Inv := by
  cases hb : s.csr.busy with
  | false =>
    rw [coreTurn_idle hb] at h
    cases h
    exact hs
  | true =>
    rw [coreTurn_busy hb] at h
    cases hd : decode s.csr.cmd with
    | ok i => exact exec_inv hs (runCommand_of_decode hd ▸ h)
    | error e =>
      simp only [runCommand, hd, Host.Outcome.next.injEq] at h
      subst h
      exact inv_of_effect hs (raise_effect [] (0, 0) s (by simp) 0 0) (completed_raise ..)

/-! ### At reset -/

theorem Memory_wf_nil : Memory.wf [] := ⟨List.Pairwise.nil, by simp⟩

theorem resetWith_vregs_get (p : Params) (r : VNum) : (State.resetWith p).vregs.get r = VReg.reset := by
  simp [Vector.get_eq_getElem]

theorem resetWith_inv (p : Params) : (State.resetWith p).Inv where
  mem_wf := Memory_wf_nil
  cfg_reserved := by simp [Csrs.reset]
  pair := by simp [Csrs.pairInv, Csrs.reset, awValid]
  vregs_fit r := by
    rw [resetWith_vregs_get]
    simp [truncVLen, VReg.reset]
  vcnt_le := Nat.zero_le _
  no_error_no_location _ := ⟨rfl, rfl⟩
  busy_unreported h := by cases h
  seq_idle := rfl
  fault_setting h := absurd rfl h
  raced_busy _ := rfl

/-- Settles O13, field by field, on every implementation. -/
theorem invariantHoldsAtReset : Obligations.InvariantHoldsAtReset := resetWith_inv

/-! ### Through a turn of the host -/

theorem resetInput_inv {s : State} (h : s.Inv) : s.resetInput.Inv :=
  { resetWith_inv s.params with
    mem_wf := Memory_wf_scramble h.mem_wf _ fun a ha => by
      unfold State.resetDraws at ha
      split at ha
      · exact bytesAt_lt ha
      · cases ha }

theorem mmioRead_inv {s : State} (h : s.Inv) (off n : Nat) : (s.mmioRead off n).Inv := by
  unfold State.mmioRead
  split
  · split <;> exact { h with }
  · exact { h with }

theorem accept_inv {s : State} (h : s.Inv) (w : CmdWord) : (s.accept w).Inv :=
  { h with
    no_error_no_location := fun _ => ⟨rfl, rfl⟩
    busy_unreported := fun _ => ⟨rfl, rfl, rfl⟩
    seq_idle := rfl
    raced_busy := fun _ => rfl }

theorem csrWrite_inv {s t : State} {c : CsrName} {v : Word} (h : s.Inv) (hw : s.csrWrite c v = some t) : t.Inv := by
  cases c <;> simp only [State.csrWrite, Option.some.injEq, reduceCtorEq] at hw <;> subst hw
  case cmd => exact accept_inv h _
  case cfg => exact { h with cfg_reserved := by simp [BitVec.and_assoc] }
  all_goals exact { h with }

theorem mmioWrite_inv {s : State} (h : s.Inv) (off n : Nat) (v : Word) : (s.mmioWrite off n v).Inv := by
  unfold State.mmioWrite
  split
  · exact { h with
      busy_unreported := fun hb => ⟨by simp [h.busy_unreported hb], (h.busy_unreported hb).2⟩ }
  · split
    · rename_i t hw
      split
      · exact { h with }
      · exact csrWrite_inv h hw
    · exact h
  · exact h

theorem hostMemWrite_inv {s : State} (h : s.Inv) (a n v : Nat) : (s.hostMemWrite a n v).Inv :=
  { h with
    mem_wf := Memory_wf_writeBytes h.mem_wf v fun _ => bytesAt_lt
    raced_busy := fun hb => by
      have hidle : s.csr.busy = false := hb
      simp [State.hostMemWrite, State.owned, hidle, h.raced_busy hidle] }

theorem hostAct_inv {s : State} (h : s.Inv) (x : HostTxn) : (s.hostAct x).Inv := by
  cases x with
  | mmioRead addr n =>
    simp only [State.hostAct]
    split
    · exact mmioRead_inv h _ _
    · exact h
  | mmioWrite addr n v =>
    simp only [State.hostAct]
    split
    · exact mmioWrite_inv h _ _ _
    · exact h
  | memRead a n => exact { h with }
  | memWrite a n v => exact hostMemWrite_inv h _ _ _
  | reset => exact resetInput_inv h

/-! ### Through a step -/

theorem State.Inv.withSchedule {s : State} (h : s.Inv) (turns : List Turn) : State.Inv { s with schedule := turns } :=
  { h with }

/-- Settles O14: each turn of the schedule keeps the invariant, the sequencer's by the effect of the command it runs. -/
theorem stepKeepsTheInvariant : Obligations.StepKeepsTheInvariant := by
  intro s t hs h
  cases hsch : s.schedule with
  | nil => exact coreTurn_inv hs (step_unscheduled hsch ▸ h)
  | cons turn rest =>
    cases turn with
    | core => exact coreTurn_inv (hs.withSchedule rest) (step_core hsch ▸ h)
    | host x =>
      rw [step_host hsch] at h
      cases h
      exact hostAct_inv (hs.withSchedule rest) x

end Sys2Proof.Machine
end

section
/-! PROOFS (10_state.md R37). The hint fields of CFG have no effect (O20): every operation of the block commutes with a
change of them. -/

namespace Sys2Proof.Machine

/-! ### No field of CFG that a command reads is a hint -/

/-- The hints stand above CFG's four low bits. -/
theorem withHints_cfg_low (s : State) (h : Word) : (withHints s h).csr.cfg.toNat % 2 ^ 4 = s.csr.cfg.toNat % 2 ^ 4 := by
  have hlow : (withHints s h).csr.cfg.setWidth 4 = s.csr.cfg.setWidth 4 := by
    have hkeep : (~~~(0xFF70 : Word)).setWidth 4 = BitVec.allOnes 4 := rfl
    have hdrop : (0xFF70 : Word).setWidth 4 = 0#4 := rfl
    simp only [withHints, BitVec.setWidth_or, BitVec.setWidth_and, hkeep, hdrop, BitVec.and_allOnes, BitVec.and_zero,
      BitVec.or_zero]
  simpa using congrArg BitVec.toNat hlow

@[simp] theorem cfgEW_withHints (s : State) (h : Word) : cfgEW (withHints s h).csr.cfg = cfgEW s.csr.cfg := by
  have hlow := withHints_cfg_low s h
  have hew : (withHints s h).csr.cfg.toNat % 4 = s.csr.cfg.toNat % 4 := by omega
  simp only [cfgEW, EW.ofCode, hew]

@[simp] theorem cfgSgn_withHints (s : State) (h : Word) : cfgSgn (withHints s h).csr.cfg = cfgSgn s.csr.cfg := by
  have hlow := withHints_cfg_low s h
  have hsgn : (withHints s h).csr.cfg.toNat / 2 ^ 2 % 2 = s.csr.cfg.toNat / 2 ^ 2 % 2 := by omega
  simp only [cfgSgn, Sgn.ofCode, hsgn]

@[simp] theorem cfgLayout_withHints (s : State) (h : Word) : cfgLayout (withHints s h).csr.cfg = cfgLayout s.csr.cfg := by
  have hlow := withHints_cfg_low s h
  have hlayout : (withHints s h).csr.cfg.toNat / 2 ^ 3 % 2 = s.csr.cfg.toNat / 2 ^ 3 % 2 := by omega
  simp only [cfgLayout, hlayout]

@[simp] theorem anSetup_withHints (s : State) (h : Word) : (withHints s h).anSetup = s.anSetup := by
  simp only [State.anSetup, cfgEW_withHints, cfgSgn_withHints, cfgLayout_withHints]
  rfl

@[simp] theorem withHints_aIn (s : State) (h : Word) : (withHints s h).csr.aIn = s.csr.aIn := rfl

@[simp] theorem withHints_solvB (s : State) (h : Word) : (withHints s h).csr.solvB = s.csr.solvB := rfl

@[simp] theorem withHints_solvK (s : State) (h : Word) : (withHints s h).csr.solvK = s.csr.solvK := rfl

@[simp] theorem withHints_vregs (s : State) (h : Word) : (withHints s h).vregs = s.vregs := rfl

@[simp] theorem withHints_noteRead (s : State) (h : Word) (r : VNum) :
    (withHints s h).noteRead r = withHints (s.noteRead r) h := rfl

@[simp] theorem withHints_lanes (s : State) (h : Word) (ew : EW) (x : VWord) :
    (withHints s h).lanes ew x = s.lanes ew x := rfl

/-! ### The operations of the block commute with a change of the hints -/

/-- A map of the state a flow stands in. -/
def Flow.map (f : State → State) : Flow → Flow
  | .running s => .running (f s)
  | .ended s => .ended (f s)

/-- The body of a stream command takes no notice of the hints. -/
def HintFree (body : State → Flow) : Prop := ∀ u h, body (withHints u h) = (body u).map (withHints · h)

section
variable {s : State} {h : Word}

theorem startAN_withHints {k k' : AnSetup → Host.Outcome State Fault Refusal}
    (hk : ∀ c, k' c = mapNext (withHints · h) (k c)) :
    (withHints s h).startAN k' = mapNext (withHints · h) (s.startAN k) := by
  obtain ⟨c, hc, he⟩ | ⟨hc, he⟩ := startAN_cases s k
  · rw [he, ← hk]
    simp [State.startAN, hc]
  · rw [he]
    simp only [State.startAN, anSetup_withHints, hc]
    rfl

theorem startHam_withHints {k k' : Nat → Host.Outcome State Fault Refusal}
    (hk : ∀ w, k' w = mapNext (withHints · h) (k w)) :
    (withHints s h).startHam k' = mapNext (withHints · h) (s.startHam k) := by
  simp only [State.startHam, cfgEW_withHints, hk]
  cases cfgEW s.csr.cfg <;> rfl

theorem overlapCheck_withHints {ss ds : Nat} {k k' : Host.Outcome State Fault Refusal}
    (hk : k' = mapNext (withHints · h) k) :
    (withHints s h).overlapCheck ss ds k' = mapNext (withHints · h) (s.overlapCheck ss ds k) := by
  rw [State.overlapCheck, State.overlapCheck, apply_ite (mapNext (withHints · h)), hk]
  rfl

theorem outcome_map {f : Flow} {done : State → State} (hd : ∀ u, done (withHints u h) = withHints (done u) h) :
    (f.map (withHints · h)).outcome done = mapNext (withHints · h) (f.outcome done) := by
  cases f with
  | running u => exact congrArg Host.Outcome.next (hd u)
  | ended u => rfl

theorem andThen_map {f : Flow} {k : State → Flow} (hk : HintFree k) :
    (f.map (withHints · h)).andThen k = (f.andThen k).map (withHints · h) := by
  cases f with
  | running u => exact hk u h
  | ended u => rfl

theorem loadElem_withHints {base size : Nat} {k : Nat → State → Flow} (hk : ∀ v, HintFree (k v)) :
    (withHints s h).loadElem base size k = (s.loadElem base size k).map (withHints · h) := by
  rw [State.loadElem, State.loadElem, apply_ite (Flow.map (withHints · h)), ← hk]
  rfl

theorem storeElem_withHints {base size v : Nat} :
    (withHints s h).storeElem base size v = (s.storeElem base size v).map (withHints · h) := by
  rw [State.storeElem, State.storeElem, apply_ite (Flow.map (withHints · h))]
  rfl

end

theorem forElems_hintFree {body : State → Flow} (hb : HintFree body) (n : Nat) : HintFree (forElems body n) := by
  induction n with
  | zero => exact fun _ _ => rfl
  | succ n ih =>
    intro u h
    rw [forElems, hb, andThen_map fun v g => ih v.nextElem g]
    rfl

theorem forIters_hintFree {body : State → Flow} (hb : HintFree body) (n m : Nat) : HintFree (forIters body n m) := by
  induction m with
  | zero => exact fun _ _ => rfl
  | succ m ih =>
    intro u h
    rw [forIters, forElems_hintFree hb, andThen_map fun v g => ih v.nextIter g]
    rfl

/-- A stream command's loop and its end. -/
theorem stream_withHints {s : State} {h : Word} {body : State → Flow} {done : State → State} (hb : HintFree body)
    (hd : ∀ u, done (withHints u h) = withHints (done u) h) :
    ((withHints s h).stream body).outcome done = mapNext (withHints · h) ((s.stream body).outcome done) := by
  have hs : (withHints s h).stream body = (s.stream body).map (withHints · h) :=
    forIters_hintFree hb s.csr.count.toNat s.csr.iter.toNat { s with seq := Seq.idle } h
  rw [hs, outcome_map hd]

/-! ### The bodies -/

theorem copyBody_hintFree (ss ds : Nat) (ok : Nat → Bool) (f : Params → Nat → Nat) : HintFree (copyBody ss ds ok f) := by
  refine fun u h => loadElem_withHints fun e v g => ?_
  cases ok e with
  | true => exact storeElem_withHints
  | false => rfl

theorem chkBody_hintFree (c : AnSetup) : HintFree (chkBody c) := by
  refine fun u h => loadElem_withHints fun e v g => ?_
  cases c.valid (BitVec.ofNat (2 * c.w) e) <;> rfl

theorem hchkBody_hintFree (w : Nat) : HintFree (hchkBody w) := by
  refine fun u h => loadElem_withHints fun rec v g => ?_
  rw [apply_ite (Flow.map (withHints · g))]
  rfl

/-! ### The commands -/

section
variable (s : State) (h : Word)

/-- A command that copies a buffer, after its start checks. -/
theorem copyCommand_withHints (ss ds : Nat) (ok : Nat → Bool) (f : Params → Nat → Nat) :
    (withHints s h).overlapCheck ss ds (((withHints s h).stream (copyBody ss ds ok f)).outcome State.complete)
      = mapNext (withHints · h) (s.overlapCheck ss ds ((s.stream (copyBody ss ds ok f)).outcome State.complete)) :=
  overlapCheck_withHints (stream_withHints (copyBody_hintFree ss ds ok f) fun _ => rfl)

theorem execSeta_withHints : execSeta (withHints s h) = mapNext (withHints · h) (execSeta s) := by
  unfold execSeta
  rw [cfgEW_withHints, withHints_aIn]
  split
  · rfl
  · cases checkConstant s.csr.aIn.toNat (cfgEW s.csr.cfg).bits <;> rfl

theorem execModinv_withHints : execModinv (withHints s h) = mapNext (withHints · h) (execModinv s) := by
  unfold execModinv
  rw [withHints_solvB, withHints_solvK]
  split
  · rfl
  · split
    · rfl
    · cases solve s.csr.solvB.toNat s.csr.solvK.toNat <;> rfl

theorem execReenc_withHints : execReenc (withHints s h) = mapNext (withHints · h) (execReenc s) := by
  refine startAN_withHints fun c => ?_
  rw [withHints_aIn]
  cases checkConstant s.csr.aIn.toNat c.w with
  | error e => rfl
  | ok ainv =>
    refine overlapCheck_withHints (stream_withHints ?_ fun _ => rfl)
    rw [reencBody_eq_copyBody]
    exact copyBody_hintFree _ _ _ _

theorem arithRun_withHints (c : AnSetup) (f : BitVec (2 * c.w) → BitVec (2 * c.w)) :
    (withHints s h).arithRun c f = mapNext (withHints · h) (s.arithRun c f) := by
  rw [State.arithRun, State.arithRun, arithBody_eq_copyBody]
  exact copyCommand_withHints s h _ _ _ _

theorem execArithDiv_withHints : execArithDiv (withHints s h) = mapNext (withHints · h) (execArithDiv s) := by
  refine startAN_withHints fun c => ?_
  rw [apply_ite (mapNext (withHints · h)), ← arithRun_withHints]
  rfl

theorem execVdiv_withHints (vd vs1 vs2 : VNum) (ew : EW) (sg : Sgn) :
    execVdiv vd vs1 vs2 ew sg (withHints s h) = mapNext (withHints · h) (execVdiv vd vs1 vs2 ew sg s) := by
  simp only [execVdiv, withV_eq, withHints_vregs, withHints_noteRead, withHints_lanes, State_noteRead_vregs]
  cases firstZeroLane _ <;> rfl

end

/-- Settles O20: by cases on the instruction; what a command does to the state commutes with a change of the hints. -/
theorem hintsHaveNoEffect : Obligations.HintsHaveNoEffect := by
  intro i s h
  cases i with
  | seta => exact execSeta_withHints s h
  | modinv => exact execModinv_withHints s h
  | enc => exact startAN_withHints fun c => encBody_eq_copyBody c ▸ copyCommand_withHints s h _ _ _ _
  | chk => exact startAN_withHints fun c => stream_withHints (chkBody_hintFree c) fun _ => rfl
  | dec => exact startAN_withHints fun c => decBody_eq_copyBody c ▸ copyCommand_withHints s h _ _ _ _
  | decchk => exact startAN_withHints fun c => decchkBody_eq_copyBody c ▸ copyCommand_withHints s h _ _ _ _
  | reenc => exact execReenc_withHints s h
  | arithAdd | arithSub | arithMul => exact startAN_withHints fun c => arithRun_withHints s h c _
  | arithDiv => exact execArithDiv_withHints s h
  | henc => exact startHam_withHints fun w => hencBody_eq_copyBody w ▸ copyCommand_withHints s h _ _ _ _
  | hchk => exact startHam_withHints fun w => stream_withHints (hchkBody_hintFree w) fun _ => rfl
  | vld vr imm =>
    simp only [exec, execVld, apply_ite (mapNext (withHints · h))]
    rfl
  | vst vr imm =>
    simp only [exec, execVst, withV_eq, apply_ite (mapNext (withHints · h))]
    rfl
  | vdiv vd vs1 vs2 ew sg => exact execVdiv_withHints s h vd vs1 vs2 ew sg
  | vhpar vd vs1 ew sg k =>
    simp only [exec, execVhpar, apply_ite (mapNext (withHints · h))]
    rfl
  | nop => rfl
  | vadd | vsub | vmullo | vmin | vmax | vcmpLt | vcmpLe | vcmpEq | vcmpNe | vcmpGe | vcmpGt => rfl
  | vredsum | vredmin | vredmax | vpopcnt | vcompress => rfl

end Sys2Proof.Machine
end

section
/-! PROOFS (10_state.md R32 to R36, R53, R59). The CSR window: what a write and a read of each CSR do (O6 to O9), and what the
window holds after reset (O12). -/

namespace Sys2Proof.Machine

/-! ### Conforming accesses of the window (10_state.md R32) -/

@[simp] theorem ofOffset_offsetOf (c : CsrName) : CsrName.ofOffset (offsetOf c) = some c := by cases c <;> rfl

@[simp] theorem conforming_offsetOf (c : CsrName) : conforming (offsetOf c) 8 = true := by cases c <;> rfl

theorem offsetOf_lt (c : CsrName) : offsetOf c < 4096 := by
  have := (ofOffset_some (ofOffset_offsetOf c)).2
  omega

theorem step_mmioRead {s : State} {off n : Nat} {rest : List Turn} (ho : off < 4096)
    (hs : s.schedule = .host (.mmioRead (s.params.mmioBase + off) n) :: rest) :
    step s = .next (State.mmioRead { s with schedule := rest } off n) := by
  simp [step_host hs, State.hostAct, windowOffset_inside _ ho]

theorem step_mmioWrite {s : State} {off n : Nat} {v : Word} {rest : List Turn} (ho : off < 4096)
    (hs : s.schedule = .host (.mmioWrite (s.params.mmioBase + off) n v) :: rest) :
    step s = .next (State.mmioWrite { s with schedule := rest } off n v) := by
  simp [step_host hs, State.hostAct, windowOffset_inside _ ho]

theorem step_writing (s : State) (c : CsrName) (v : Word) : step (writing s c v) = .next (s.mmioWrite (offsetOf c) 8 v) :=
  step_mmioWrite (offsetOf_lt c) rfl

theorem step_reading (s : State) (c : CsrName) : step (reading s c) = .next (s.mmioRead (offsetOf c) 8) :=
  step_mmioRead (offsetOf_lt c) rfl

/-! ### What a write of a CSR does -/

theorem mmioWrite_status (s : State) (v : Word) :
    s.mmioWrite (offsetOf .status) 8 v = { s with csr := s.csr.writeStatus v } := rfl

/-- A write to a read-write CSR is performed while IDLE, and ignored with OVR while BUSY (10_state.md R53). -/
theorem mmioWrite_readWrite {s s' : State} {c : CsrName} {v : Word} (h : s.csrWrite c v = some s') :
    s.mmioWrite (offsetOf c) 8 v = if s.csr.busy then { s with csr := { s.csr with ovr := true } } else s' := by
  have hc : c ≠ .status := by rintro rfl; cases h
  simp [State.mmioWrite, h]

/-- A write to a read-only CSR is ignored. -/
theorem mmioWrite_readOnly {s : State} {c : CsrName} {v : Word} (hc : c ≠ .status) (h : s.csrWrite c v = none) :
    s.mmioWrite (offsetOf c) 8 v = s := by
  simp [State.mmioWrite, h]

/-- CMD and the gated CSRs are the read-write ones, STATUS aside. -/
theorem csrWrite_eq_none_iff {s : State} {c : CsrName} {v : Word} :
    s.csrWrite c v = none ↔ c ≠ .cmd ∧ c ∉ gatedCsrs := by
  cases c <;> simp [State.csrWrite, gatedCsrs]

/-- A gated CSR takes the value written, CFG without its reserved bits, and no other CSR changes. -/
theorem csrWrite_gated (s : State) {c : CsrName} (v : Word) (hc : c ∈ gatedCsrs) :
    ∃ r : Csrs, s.csrWrite c v = some { s with csr := r } ∧ r.busy = s.csr.busy ∧
      (∀ d, d ≠ c → State.csrValue { s with csr := r } d = s.csrValue d) ∧
      State.csrValue { s with csr := r } c = if c = .cfg then v &&& cfgMask else v := by
  cases c with
  | cfg | aIn | src | dst | count | iter | operand | solvB | solvK | vbase =>
    exact ⟨_, rfl, rfl, fun d hd => by cases d <;> simp_all [State.csrValue, Csrs.statusWord], rfl⟩
  | _ => simp [gatedCsrs] at hc

/-- Settles O6: the write is performed, and writing CMD is acceptance. -/
theorem cmdWriteIsAcceptance : Obligations.CmdWriteIsAcceptance := by
  intro s x hb
  rw [step_writing, mmioWrite_readWrite (s' := s.accept (x.setWidth 32)) rfl, hb, ← BitVec.setWidth_eq_extractLsb' (by decide)]
  rfl

/-- While a command runs, no transaction of the host but reset changes a CSR other than DONE and OVR. -/
theorem hostAct_busy_csr {s : State} {x : HostTxn} (hb : s.csr.busy = true) (hx : x ≠ .reset) :
    { (s.hostAct x).csr with done := s.csr.done, ovr := s.csr.ovr } = s.csr := by
  cases x with
  | mmioRead addr n =>
    simp only [State.hostAct, State.mmioRead]
    split
    · split
      · split <;> rfl
      · rfl
    · rfl
  | mmioWrite addr n v =>
    simp only [State.hostAct, State.mmioWrite]
    split
    · split
      · rfl
      · split
        · rw [if_pos hb]
        · rfl
      · rfl
    · rfl
  | memRead a n => rfl
  | memWrite a n v => rfl
  | reset => exact absurd rfl hx

/-- Settles O7: a write is ignored with OVR, performed, or ignored by the kind of its CSR; the last clause by
`hostAct_busy_csr`. -/
theorem writesWhileBusyAreIgnored : Obligations.WritesWhileBusyAreIgnored := by
  refine ⟨fun s c v hb hc => ?_, fun s v => ?_, fun s c v hcmd hstatus hc => ?_, fun s t x rest hb hs hx h => ?_⟩
  · have hw : s.csrWrite c v ≠ none := by
      rw [Ne, csrWrite_eq_none_iff]
      tauto
    obtain ⟨s', hw⟩ := Option.ne_none_iff_exists'.1 hw
    rw [step_writing, mmioWrite_readWrite hw, if_pos hb]
  · rw [step_writing, mmioWrite_status]
    rfl
  · rw [step_writing, mmioWrite_readOnly hstatus (csrWrite_eq_none_iff.2 ⟨hcmd, hc⟩)]
  · rw [step_host hs] at h
    cases h
    have hkeep := hostAct_busy_csr (s := { s with schedule := rest }) hb hx
    exact ⟨(congrArg Csrs.busy hkeep).trans hb, hkeep⟩

/-! ### What a read of a CSR does -/

theorem mmioRead_defined {s : State} {c : CsrName} (h : s.csr.busy = false ∨ c.isResult = false) :
    s.mmioRead (offsetOf c) 8 = { s with rdata := (s.csrValue c).toNat } := by
  have : (s.csr.busy && c.isResult) = false := by rcases h with h | h <;> simp [h]
  simp [State.mmioRead, this]

theorem mmioRead_free {s : State} {c : CsrName} (hb : s.csr.busy = true) (hc : c.isResult = true) :
    s.mmioRead (offsetOf c) 8 = { s with rdata := (Config.freeWord s.freeIdx).toNat, freeIdx := s.freeIdx + 1 } := by
  simp [State.mmioRead, hb, hc]

theorem isResult_iff {c : CsrName} :
    c.isResult = true ↔ c ∈ [.failIndex, .failIter, .hmcount, .a, .ainv, .aw, .solvA, .vcnt] := by
  cases c <;> simp [CsrName.isResult]

/-- Settles O8: the write is performed, and no gated CSR is a result, so that a read gives its value. -/
theorem csrWritesReadBack : Obligations.CsrWritesReadBack := by
  intro s c v hb hc
  obtain ⟨r, hw, hbusy, hothers, hsame⟩ := csrWrite_gated s v hc
  refine ⟨{ s with csr := r }, ?_, rfl, hothers, ?_⟩
  · rw [step_writing, mmioWrite_readWrite hw, hb]
    rfl
  · rw [step_reading, mmioRead_defined (.inl (hbusy.trans hb)), hsame]
    rfl

/-! ### The values of the CSRs -/

theorem code_eq_errNumber (e : ErrCode) : e.code = errNumber e := by cases e <;> rfl

theorem errNumber_lt (e : ErrCode) : errNumber e < 9 := by cases e <;> decide

/-- STATUS as a number (10_state.md R35). -/
theorem statusWord_toNat (c : Csrs) :
    c.statusWord.toNat = c.busy.toNat + 2 * c.done.toNat + 4 * c.ovr.toNat + 256 * errNumber c.err := by
  have h1 := c.busy.toNat_le
  have h2 := c.done.toNat_le
  have h3 := c.ovr.toNat_le
  have h4 := errNumber_lt c.err
  rw [Csrs.statusWord, code_eq_errNumber, BitVec.toNat_ofNat]
  omega

theorem getLsbD_eq_of_toNat {n : Nat} {x : BitVec n} {i : Nat} {b : Bool} (h : x.toNat / 2 ^ i % 2 = b.toNat) :
    x.getLsbD i = b := by
  rw [BitVec.getLsbD, Nat.testBit_eq_decide_div_mod_eq, h]
  cases b <;> rfl

theorem statusWord_fields (c : Csrs) :
    c.statusWord.getLsbD 0 = c.busy ∧ c.statusWord.getLsbD 1 = c.done ∧ c.statusWord.getLsbD 2 = c.ovr ∧
      (c.statusWord.extractLsb' 8 8).toNat = errNumber c.err ∧ c.statusWord.extractLsb' 3 5 = 0#5 ∧
      c.statusWord.extractLsb' 16 48 = 0#48 := by
  have h1 := c.busy.toNat_le
  have h2 := c.done.toNat_le
  have h3 := c.ovr.toNat_le
  have h4 := errNumber_lt c.err
  refine ⟨getLsbD_eq_of_toNat ?_, getLsbD_eq_of_toNat ?_, getLsbD_eq_of_toNat ?_, ?_, BitVec.eq_of_toNat_eq ?_,
    BitVec.eq_of_toNat_eq ?_⟩ <;>
  · simp only [BitVec.extractLsb'_toNat, Nat.shiftRight_eq_div_pow, statusWord_toNat, BitVec.toNat_ofNat]
    omega

theorem csrValue_of_held (s : State) : ∀ p ∈ heldValue s, s.csrValue p.1 = p.2 := by
  simp [heldValue, State.csrValue]

/-- Settles O9: reads by the kind of the CSR and of the access, values field by field. -/
theorem csrReadsHaveNoSideEffect : Obligations.CsrReadsHaveNoSideEffect := by
  refine ⟨fun s c h => ?_, fun s c hb hc => ?_, fun s off n v rest ho h => ⟨fun hs => ?_, fun hs => ?_⟩,
    fun s => statusWord_fields s.csr, fun s => ?_, fun s c v h => ?_⟩
  · rw [step_reading, mmioRead_defined]
    rwa [← isResult_iff, Bool.not_eq_true] at h
  · rw [step_reading, mmioRead_free hb (isResult_iff.2 hc)]
  · rw [step_mmioRead ho hs, mmioRead_hole _ h]
  · rw [step_mmioWrite ho hs, mmioWrite_hole _ _ h]
  · simp only [State.csrValue, paramWord]
    cases s.params.vlen <;> decide
  · exact csrValue_of_held s (c, v) h

/-! ### The window after reset (10_state.md R59) -/

/-- Settles O12: ID and PARAM by the implementation's VLEN, the other CSRs and the marks by name. -/
theorem resetHoldsTheStatedValues : Obligations.ResetHoldsTheStatedValues := by
  intro p
  refine ⟨rfl, fun h => ?_, fun h => ?_, fun h => ?_, fun c hid hparam => ?_, fun r => ?_⟩
  · simp [State.csrValue, paramWord, h, VLen.code]
  · simp [State.csrValue, paramWord, h, VLen.code]
  · simp [State.csrValue, paramWord, h, VLen.code]
  · cases c with
    | id => exact absurd rfl hid
    | param => exact absurd rfl hparam
    | status => simp [State.csrValue, Csrs.statusWord, Csrs.reset, ErrCode.code]
    | _ => rfl
  · rw [resetWith_vregs_get]
    rfl

end Sys2Proof.Machine
end

section
/-! PROOFS (10_state.md R56). What every instruction puts on record of its reads of vector registers (O52). -/

namespace Sys2Proof.Machine

/-- The vector registers each instruction reads, in the order it looks at them (44_simd.md R260). -/
def Instr.reads : Instr → List VNum
  | .vst vr _ => [vr]
  | .vadd _ vs1 vs2 _ _ | .vsub _ vs1 vs2 _ _ | .vmullo _ vs1 vs2 _ _ | .vdiv _ vs1 vs2 _ _ => [vs1, vs2]
  | .vmin _ vs1 vs2 _ _ | .vmax _ vs1 vs2 _ _ | .vcompress _ vs1 vs2 _ _ => [vs1, vs2]
  | .vcmpLt _ vs1 vs2 _ _ | .vcmpLe _ vs1 vs2 _ _ | .vcmpEq _ vs1 vs2 _ _ => [vs1, vs2]
  | .vcmpNe _ vs1 vs2 _ _ | .vcmpGe _ vs1 vs2 _ _ | .vcmpGt _ vs1 vs2 _ _ => [vs1, vs2]
  | .vredsum _ vs1 _ _ | .vredmin _ vs1 _ _ | .vredmax _ vs1 _ _ | .vpopcnt _ vs1 _ _ => [vs1]
  | .vhpar _ vs1 ew _ k => if hparLegal ew k then [vs1] else []
  | .nop | .seta | .modinv | .enc | .chk | .dec | .decchk | .reenc => []
  | .arithAdd | .arithSub | .arithMul | .arithDiv | .henc | .hchk | .vld .. => []

/-! ### What is on record after reads -/

section
variable (s : State) (r q : VNum)

/-- Nothing on record, under VREG_UNINIT = fault: the first register read that has not been written is recorded. -/
theorem faultAfter_eq_find? {s : State} (hf : s.vregFault = none) (hu : s.params.vregUninit = .fault) (reads : List VNum) :
    faultAfter s reads = reads.find? fun r => !(s.vregs.get r).written := by
  simp [faultAfter, hf, hu]

@[simp] theorem faultAfter_nil : faultAfter s [] = s.vregFault := by
  unfold faultAfter
  split
  · rfl
  · simp_all

/-- A read looks at the record before the reads that follow it. -/
theorem faultAfter_noteRead (reads : List VNum) : faultAfter (s.noteRead r) reads = faultAfter s (r :: reads) := by
  by_cases h : s.vregFault ≠ none ∨ s.params.vregUninit = .value
  · rw [noteRead_eq_self (h.imp_right .inl), faultAfter, faultAfter, if_pos h, if_pos h]
  · obtain ⟨hf, hu⟩ : s.vregFault = none ∧ s.params.vregUninit = .fault := by
      cases hu : s.params.vregUninit <;> simp_all
    rw [faultAfter_eq_find? hf hu]
    cases hw : (s.vregs.get r).written with
    | true =>
      rw [noteRead_eq_self (.inr (.inr hw)), faultAfter_eq_find? hf hu]
      simp [hw]
    | false =>
      have hrec := noteRead_records hf hu hw
      simp [faultAfter, hrec, hw]

theorem noteRead_vregFault : (s.noteRead r).vregFault = faultAfter s [r] := by
  rw [← faultAfter_noteRead, faultAfter_nil]

theorem noteRead_noteRead_vregFault : ((s.noteRead r).noteRead q).vregFault = faultAfter s [r, q] := by
  rw [← faultAfter_noteRead, noteRead_vregFault]

end

/-! ### The instructions -/

/-- The outcome of an instruction that reads the given registers, as far as the record goes. -/
def Records (s : State) (reads : List VNum) (o : Host.Outcome State Fault Refusal) : Prop :=
  Yields o fun t => t.vregFault = faultAfter s reads

theorem records_of_effect {rs : List Result} {R : Nat × Nat} {s : State} {o : Host.Outcome State Fault Refusal}
    (h : Yields o (Effect rs R s)) (hv : .vregs ∉ rs) : Records s [] o := by
  obtain ⟨t, ht, he⟩ := h
  exact ⟨t, ht, (he.vregs hv).2.trans (faultAfter_nil s).symm⟩

theorem lanewise2_records (f : (n : Nat) → BitVec n → BitVec n → BitVec n) (vd vs1 vs2 : VNum) (ew : EW) (s : State) :
    Records s [vs1, vs2] (lanewise2 f vd vs1 vs2 ew s) := yields_next.2 (noteRead_noteRead_vregFault s vs1 vs2)

theorem fromLanes_records (f : (n : Nat) → List (BitVec n) → VWord) (vd vs1 : VNum) (ew : EW) (s : State) :
    Records s [vs1] (fromLanes f vd vs1 ew s) := yields_next.2 (noteRead_vregFault s vs1)

theorem execVdiv_records (vd vs1 vs2 : VNum) (ew : EW) (sg : Sgn) (s : State) :
    Records s [vs1, vs2] (execVdiv vd vs1 vs2 ew sg s) := by
  rw [execVdiv, withV_eq, withV_eq]
  split
  · exact yields_next.2 (noteRead_noteRead_vregFault s vs1 vs2)
  · exact yields_next.2 (noteRead_noteRead_vregFault s vs1 vs2)

theorem execVld_records (vr : VNum) (imm : BitVec 16) (s : State) : Records s [] (execVld vr imm s) := by
  unfold execVld
  split
  · exact yields_next.2 (faultAfter_nil s).symm
  · exact yields_next.2 (faultAfter_nil s).symm

theorem execVst_records (vr : VNum) (imm : BitVec 16) (s : State) : Records s [vr] (execVst vr imm s) := by
  rw [execVst, withV_eq]
  split
  · exact yields_next.2 (noteRead_vregFault s vr)
  · exact yields_next.2 (noteRead_vregFault s vr)

theorem execVhpar_records (vd vs1 : VNum) (ew : EW) (sg : Sgn) (k : Fin 8) (s : State) :
    Records s (if hparLegal ew k then [vs1] else []) (execVhpar vd vs1 ew sg k s) := by
  unfold execVhpar
  split
  · exact fromLanes_records ..
  · exact yields_next.2 (faultAfter_nil s).symm

/-- Every instruction goes on, and has put on record what its reads put there. -/
theorem exec_records (i : Instr) (s : State) : Records s (Instr.reads i) (exec i s) := by
  cases i with
  | vld vr imm => exact execVld_records vr imm s
  | vst vr imm => exact execVst_records vr imm s
  | vadd | vsub | vmullo | vmin | vmax | vcmpLt | vcmpLe | vcmpEq | vcmpNe | vcmpGe | vcmpGt =>
    simp only [exec, execVadd, execVsub, execVmullo, execVmin, execVmax, execVcmpLt, execVcmpLe, execVcmpEq, execVcmpNe,
      execVcmpGe, execVcmpGt, Instr.reads, lanewise2_records]
  | vdiv vd vs1 vs2 ew sg => exact execVdiv_records vd vs1 vs2 ew sg s
  | vredsum | vredmin | vredmax | vpopcnt =>
    simp only [exec, execVredsum, execVredmin, execVredmax, execVpopcnt, Instr.reads, fromLanes_records]
  | vcompress vd vs1 vs2 ew sg => exact yields_next.2 (noteRead_noteRead_vregFault s vs1 vs2)
  | vhpar vd vs1 ew sg k => exact execVhpar_records vd vs1 ew sg k s
  | _ => exact records_of_effect (exec_effect _ s) (by simp [Instr.results])

/-- Settles O52: the record of each instruction's reads, found by `faultAfter_eq_find?`. -/
theorem unwrittenSourcesAreRecorded : Obligations.UnwrittenSourcesAreRecorded := by
  intro s vd vs1 vs2 ew sg k imm hf hu twoSources oneSource
  have htwo : ∀ i ∈ twoSources, Instr.reads i = [vs1, vs2] := by simp [twoSources, Instr.reads]
  have hone : ∀ i ∈ oneSource, Instr.reads i = [vs1] := by simp [oneSource, Instr.reads]
  have hrec : ∀ i reads, Instr.reads i = reads → ∃ t, exec i s = .next t ∧
      t.vregFault = reads.find? fun r => !(s.vregs.get r).written := by
    rintro i _ rfl
    rw [← faultAfter_eq_find? hf hu]
    exact exec_records i s
  have hhpar : hparLegal ew k = true → Instr.reads (.vhpar vd vs1 ew sg k) = [vs1] := fun hk => if_pos hk
  refine ⟨fun h1 => ⟨fun i hi => ?_, fun hk => ?_⟩, fun h1 => ⟨fun i hi => ?_, fun hk => ?_, fun i hi => ?_⟩⟩
  · rcases List.mem_append.1 hi with hi | hi
    · simpa [h1] using hrec i _ (htwo i hi)
    · simpa [h1] using hrec i _ (hone i hi)
  · simpa [h1] using hrec _ _ (hhpar hk)
  · simpa [h1] using hrec i _ (hone i hi)
  · simpa [h1] using hrec _ _ (hhpar hk)
  · cases h2 : (s.vregs.get vs2).written <;> simpa [h1, h2] using hrec i _ (htwo i hi)

end Sys2Proof.Machine
end

section
/-! PROOFS (20_memory.md R96). The bytes of a value read, the bytes of a host access, and which of them are free while a
command runs (O11). -/

namespace Sys2Proof.Machine

/-! ### The bytes of an access (20_memory.md R85) -/

/-- Byte j of the value read is the byte at a + j. -/
theorem Memory_readLE_byte (m : Memory) {a n j : Nat} (hj : j < n) :
    BitVec.ofNat 8 (m.readLE a n / 2 ^ (8 * j)) = m.readByte (a + j) := by
  induction n generalizing a j with
  | zero => omega
  | succ n ih =>
    have hbyte := (m.readByte a).isLt
    rw [Memory.readLE]
    cases j with
    | zero => simp [BitVec.ofNat_add, BitVec.ofNat_mul]
    | succ j =>
      rw [show 8 * (j + 1) = 8 + 8 * j from by ring, Nat.pow_add, ← Nat.div_div_eq_div_mul,
        Nat.add_mul_div_left _ _ (by decide), Nat.div_eq_of_lt hbyte, Nat.zero_add, ih (by omega)]
      congr 1
      omega

theorem inRange_iff {r : Nat × Nat} {x : Nat} : inRange r x = true ↔ r.1 ≤ x ∧ x < r.1 + r.2 := by simp [inRange]

theorem mem_bytesAt {a n x : Nat} : x ∈ bytesAt a n ↔ x < 2 ^ 64 ∧ inRange (a, n) x = true := by
  simp only [bytesAt, List.mem_filter, List.mem_map, List.mem_range, decide_eq_true_eq, inRange_iff]
  constructor
  · rintro ⟨⟨j, hj, rfl⟩, hx⟩
    omega
  · rintro ⟨hx, hlo, hhi⟩
    exact ⟨⟨x - a, by omega, by omega⟩, hx⟩

theorem bytesAt_length_le (a n : Nat) : (bytesAt a n).length ≤ n :=
  (List.length_filter_le ..).trans (by simp)

theorem bytesAt_succ {a : Nat} (n : Nat) (ha : a < 2 ^ 64) : bytesAt a (n + 1) = a :: bytesAt (a + 1) n := by
  rw [bytesAt, List.range_succ_eq_map, List.map_cons, List.filter_cons_of_pos (by simpa using ha), List.map_map]
  simp [bytesAt, Function.comp_def, Nat.add_comm 1, Nat.add_assoc]

/-- A host write below 2^64 is the little-endian write of the block (notes/assumptions/11.md). -/
theorem writeBytes_bytesAt (m : Memory) {a n : Nat} (v : Nat) (h : a + n ≤ 2 ^ 64) :
    m.writeBytes (bytesAt a n) v = m.writeLE a n v := by
  induction n generalizing m a v with
  | zero => rfl
  | succ n ih =>
    rw [bytesAt_succ n (by omega), Memory.writeBytes, Memory.writeLE, ih _ _ (by omega)]

/-- A value read of which the listed bytes are drawn: a drawn byte is a free value, every other its value in memory. -/
theorem readLE_scramble_byte {m : Memory} (hm : m.wf) (drawn : List Nat) (k : Nat) {a n j : Nat} (hj : j < n) :
    (a + j ∈ drawn → ∃ i, k ≤ i ∧ i < k + drawn.length ∧
      BitVec.ofNat 8 ((m.scramble drawn k).readLE a n / 2 ^ (8 * j)) = Config.freeByte i) ∧
    (a + j ∉ drawn → BitVec.ofNat 8 ((m.scramble drawn k).readLE a n / 2 ^ (8 * j)) = m.readByte (a + j)) := by
  rw [Memory_readLE_byte _ hj]
  exact ⟨Memory_readByte_scramble_of_mem hm.1 k, Memory_readByte_scramble_of_not_mem m k⟩

/-! ### The host's accesses while a command runs -/

theorem mem_racedIn {s : State} {a n x : Nat} : x ∈ s.racedIn a n ↔ x ∈ s.raced ∧ inRange (a, n) x = true :=
  List.mem_filter

theorem owned_iff {s : State} {x : Nat} : s.owned x = true ↔
    s.csr.busy = true ∧ (inRange s.runningSrc x = true ∨ inRange s.runningDst x = true) := by simp [State.owned]

/-- The bytes raced after a host write: those raced before, and those of the write that belong to the block. -/
theorem mem_hostMemWrite_raced {s : State} {a n v x : Nat} :
    x ∈ (s.hostMemWrite a n v).raced ↔ x ∈ s.raced ∨ (x ∈ bytesAt a n ∧ s.owned x = true) := by
  simp only [State.hostMemWrite, List.mem_append, List.mem_filter, Bool.and_eq_true, Bool.not_eq_true',
    List.contains_eq_mem, decide_eq_false_iff_not]
  tauto

/-- The bytes that a host read of n bytes at a draws: those of the running command's destination. -/
def State.hostDraws (s : State) (a n : Nat) : List Nat :=
  (bytesAt a n).filter fun x => s.csr.busy && inRange s.runningDst x

theorem hostMemRead_eq (s : State) (a n : Nat) : s.hostMemRead a n = { s with
    rdata := (s.mem.scramble (s.hostDraws a n) s.freeIdx).readLE a n
    freeIdx := s.freeIdx + (s.hostDraws a n).length } := rfl

theorem mem_hostDraws {s : State} {a n x : Nat} : x ∈ s.hostDraws a n ↔
    x < 2 ^ 64 ∧ inRange (a, n) x = true ∧ s.csr.busy = true ∧ inRange s.runningDst x = true := by
  simp [State.hostDraws, mem_bytesAt, and_assoc]

theorem hostDraws_length_le (s : State) (a n : Nat) : (s.hostDraws a n).length ≤ n :=
  (List.length_filter_le ..).trans (bytesAt_length_le a n)

theorem hostDraws_eq_nil {s : State} {a n : Nat}
    (h : s.csr.busy = false ∨ ∀ j < n, inRange s.runningDst (a + j) = false) : s.hostDraws a n = [] := by
  refine List.eq_nil_iff_forall_not_mem.2 fun x hx => ?_
  obtain ⟨-, hin, hb, hd⟩ := mem_hostDraws.1 hx
  rcases h with h | h
  · simp [h] at hb
  · obtain ⟨hlo, hhi⟩ := inRange_iff.1 hin
    have hfree := h (x - a) (by omega)
    rw [Nat.add_sub_cancel' hlo, hd] at hfree
    cases hfree

/-- Settles O11: a host write by the bytes it names, the two reads by `readLE_scramble_byte` on the bytes they draw. -/
theorem racedBytesAreFree : Obligations.RacedBytesAreFree := by
  refine ⟨fun s a n v rest hs => ?_, fun s a n j hm hj => ?_, fun s a n rest hm hs => ?_⟩
  · refine ⟨_, step_host hs, rfl, writeBytes_bytesAt s.mem v, fun x => ?_⟩
    exact mem_hostMemWrite_raced.trans (by rw [mem_bytesAt, owned_iff, and_assoc]; rfl)
  · have hin : inRange (a, n) (a + j) = true := inRange_iff.2 ⟨by simp, by simpa using hj⟩
    obtain ⟨hfree, hkept⟩ := readLE_scramble_byte hm (s.racedIn a n) s.freeIdx hj
    exact ⟨fun h => hfree (mem_racedIn.2 ⟨h, hin⟩), fun h => hkept fun hr => h (mem_racedIn.1 hr).1⟩
  · set u : State := { s with schedule := rest }
    refine ⟨_, step_host hs, rfl, Memory_readLE_lt _ _ _, ?_, fun h => ?_, fun j hj => ?_⟩
    · exact Nat.add_le_add_left (hostDraws_length_le u a.toNat n) _
    · exact congrArg (s.freeIdx + List.length ·) (hostDraws_eq_nil (s := u) h)
    · have hin : inRange (a.toNat, n) (a.toNat + j) = true := inRange_iff.2 ⟨by simp, by simpa using hj⟩
      obtain ⟨hfree, hkept⟩ := readLE_scramble_byte hm (u.hostDraws a.toNat n) s.freeIdx hj
      refine ⟨fun hb hx hd => hfree (mem_hostDraws.2 ⟨hx, hin, hb, hd⟩), fun h => hkept fun hr => ?_⟩
      obtain ⟨hx, -, hb, hd⟩ := mem_hostDraws.1 hr
      rcases h with h | h | h
      · exact absurd (hb.symm.trans h) (by decide)
      · omega
      · exact absurd (hd.symm.trans h) (by decide)

end Sys2Proof.Machine
end

section
/-! PROOFS (40_solver.md R141 to R144). The Euclid loop ends in a multiple of b congruent to the greatest common divisor, so
that Solve succeeds on every odd number. -/

namespace Sys2Proof.Machine

/-- The loop keeps r0 ≡ b · s0 and r1 ≡ b · s1 modulo N, so that it ends with gcd(r0, r1) ≡ b · s0. -/
theorem euclid_modEq {N : Int} {b fuel r0 r1 : Nat} {s0 s1 : Int} (hfuel : r1 < fuel) (h0 : (b : Int) * s0 ≡ r0 [ZMOD N])
    (h1 : (b : Int) * s1 ≡ r1 [ZMOD N]) : (b : Int) * euclid fuel r0 r1 s0 s1 ≡ r0.gcd r1 [ZMOD N] := by
  induction fuel generalizing r0 r1 s0 s1 with
  | zero => omega
  | succ fuel ih =>
    rw [euclid]
    split
    · rename_i hz
      rwa [hz, Nat.gcd_zero_right]
    · have hmod : r0 - r0 / r1 * r1 = r0 % r1 := by rw [Nat.mul_comm, Nat.mod_eq_sub_mul_div]
      have hlt := Nat.mod_lt r0 (Nat.pos_of_ne_zero ‹_›)
      have hrest : (b : Int) * (s0 - (r0 / r1 : Nat) * s1) ≡ (r0 % r1 : Nat) [ZMOD N] := by
        have hsub := h0.sub (h1.mul_left (r0 / r1 : Nat))
        have hdiv : (r0 : Int) - (r0 / r1 : Nat) * r1 = (r0 % r1 : Nat) := by
          rw [Int.natCast_mod, Int.emod_def, Int.natCast_div, mul_comm]
        rw [hdiv] at hsub
        convert hsub using 1
        ring
      rw [hmod, Nat.gcd_comm, Nat.gcd_rec, Nat.gcd_comm]
      exact ih (by omega) h1 hrest

/-- Solve does not fail on an odd number (40_solver.md R144). -/
theorem solve_of_odd {b k : Nat} (hb : b % 2 = 1) (hk : 1 ≤ k) : ∃ a, solve b k = some a := by
  have hone : 1 < 2 ^ k := Nat.one_lt_two_pow (by omega)
  have hgcd : (2 ^ k).gcd b = 1 := Nat.Coprime.pow_left k (Nat.coprime_two_left.2 (Nat.odd_iff.2 hb))
  have hend := euclid_modEq (N := 2 ^ k) (b := b) (r0 := 2 ^ k) (s0 := 0) (s1 := 1) (Nat.lt_succ_self b)
    (by simp [Int.ModEq]) (by simp [Int.ModEq])
  rw [hgcd] at hend
  refine ⟨_, if_pos ?_⟩
  have hpos : (0 : Int) < 2 ^ k := by positivity
  zify
  rw [Int.toNat_of_nonneg (Int.emod_nonneg _ hpos.ne')]
  exact (((Int.mod_modEq _ _).mul_left _).trans hend).eq.trans (Int.emod_eq_of_lt (by decide) (by exact_mod_cast hone))

/-- An odd constant below 2^w passes its check. -/
theorem checkConstant_of_odd {c w : Nat} (hlt : c < 2 ^ w) (hodd : c % 2 = 1) : ∃ ainv, checkConstant c w = .ok ainv := by
  have hw : w ≠ 0 := by rintro rfl; omega
  obtain ⟨ainv, hs⟩ := solve_of_odd (k := 2 * w) hodd (by omega)
  refine ⟨ainv, ?_⟩
  rw [checkConstant, if_neg (by omega), if_neg (by omega), hs]

end Sys2Proof.Machine
end

section
/-! PROOFS (41_an_codec.md R170 to R191, 42_an_arith.md R210 to R216, 43_hamming.md R230 to R237). Every writing stream command
whose start checks pass is one and the same copying loop, its check `elemPasses` and its value `elemValue`. -/

namespace Sys2Proof.Machine

/-- From s, the instruction i is the loop that copies elements of ss bytes to elements of ds bytes with the function f,
and ends without an error by `done`. -/
structure CopyCommand (s : State) (i : Instr) (ss ds : Nat) (f : Params → Nat → Nat) (done : State → State) : Prop where
  exec_eq : exec i s = s.overlapCheck ss ds ((s.stream (copyBody ss ds (elemPasses s i) f)).outcome done)
  value : ∀ e < 2 ^ (8 * ss), f s.params e % 2 ^ (8 * ds) = elemValue s i e
  done_eq : done = State.complete ∨ i = .reenc ∧
    ∃ ainv, checkConstant s.csr.aIn.toNat (cfgW s) = .ok ainv ∧ done = fun u => (u.commitPair ainv).complete

theorem CopyCommand.done_err {s : State} {i : Instr} {ss ds : Nat} {f : Params → Nat → Nat} {done : State → State}
    (h : CopyCommand s i ss ds f done) (u : State) : (done u).csr.err = u.csr.err := by
  obtain hd | ⟨-, ainv, -, hd⟩ := h.done_eq <;> rw [hd] <;> rfl

/-! ### What the start checks give -/

/-- What `StartAN()` reads in a state it accepts. -/
def readySetup (s : State) : AnSetup where
  w := cfgW s
  sg := cfgSgn s.csr.cfg
  layout := cfgLayout s.csr.cfg
  a := s.csr.a.toNat
  ainv := s.csr.ainv.toNat

theorem startAN_of_ready {s : State} (h : AnReady s) (k : AnSetup → Host.Outcome State Fault Refusal) :
    s.startAN k = k (readySetup s) := by
  obtain ⟨h64, hv, hw⟩ := h
  rw [State.startAN, anSetup_eq_some h64 hv hw]
  rfl

theorem startHam_of_ready {s : State} {w : Nat} (h : HamReady s w) (k : Nat → Host.Outcome State Fault Refusal) :
    s.startHam k = k w := by
  obtain ⟨hc, rfl⟩ | ⟨hc, rfl⟩ := h <;> rw [State.startHam, hc]

theorem cfgW_of_hamReady {s : State} {w : Nat} (h : HamReady s w) : cfgW s = w := by
  obtain ⟨hc, rfl⟩ | ⟨hc, rfl⟩ := h <;> rw [cfgW, hc] <;> rfl

/-- A raw element is w bits wide. -/
theorem eight_mul_rawSize (s : State) : 8 * (cfgW s / 8) = cfgW s := by
  unfold cfgW
  cases cfgEW s.csr.cfg <;> rfl

/-- An encoded element is m = 2w bits wide. -/
theorem eight_mul_encSize (s : State) : 8 * (2 * cfgW s / 8) = 2 * cfgW s := by
  unfold cfgW
  cases cfgEW s.csr.cfg <;> rfl

/-! ### The check and the values -/

theorem elemPasses_unchecked {s : State} {i : Instr} (h : i ∉ [.chk, .decchk, .reenc]) :
    elemPasses s i = fun _ => true := funext fun _ => if_neg h

theorem elemPasses_checked {s : State} {i : Instr} (h : i ∈ [.chk, .decchk, .reenc]) :
    elemPasses s i = fun e => (readySetup s).valid (BitVec.ofNat (2 * cfgW s) e) := funext fun _ => if_pos h

theorem encodeVal_toNat (sg : Sgn) {w : Nat} (r : BitVec w) (a : Nat) :
    (encodeVal sg r a).toNat = (ext sg (2 * w) r).toNat * a % 2 ^ (2 * w) := by
  simp [encodeVal, BitVec.toNat_mul]

theorem decodeVal_toNat (w e ainv : Nat) :
    (decodeVal (BitVec.ofNat (2 * w) e) ainv).toNat = e * ainv % 2 ^ (2 * w) % 2 ^ w := by
  simp [decodeVal, BitVec.toNat_mul, Nat.mul_mod]

section
variable (sg : Sgn) (a w : Nat) (o : BitVec w) (e : Nat)

theorem arithAddVal_toNat :
    (arithAddVal sg a o (BitVec.ofNat (2 * w) e)).toNat = arithSpec .arithAdd sg a w o e := by
  simp [arithAddVal, arithSpec]

theorem arithSubVal_toNat :
    (arithSubVal sg a o (BitVec.ofNat (2 * w) e)).toNat = arithSpec .arithSub sg a w o e := by
  have hint : arithSubVal sg a o (BitVec.ofNat (2 * w) e)
      = BitVec.ofInt (2 * w) ((e : Int) - ((ext sg (2 * w) o).toNat * a : Nat)) := by
    rw [Int.sub_eq_add_neg, BitVec.ofInt_add, BitVec.ofInt_neg, BitVec.ofInt_natCast, BitVec.ofInt_natCast, BitVec.ofNat_mul,
      BitVec.ofNat_toNat, BitVec.setWidth_eq, ← BitVec.sub_eq_add_neg]
    rfl
  rw [hint, BitVec.toNat_ofInt, Nat.cast_pow]
  rfl

theorem arithMulVal_toNat : (arithMulVal sg o (BitVec.ofNat (2 * w) e)).toNat = arithSpec .arithMul sg a w o e := by
  simp [arithMulVal, arithSpec]

theorem arithDivVal_toNat (he : e < 2 ^ (2 * w)) :
    (arithDivVal sg o (BitVec.ofNat (2 * w) e)).toNat = arithSpec .arithDiv sg a w o e := by
  cases sg with
  | signed => simp [arithDivVal, arithSpec, divPattern]
  | unsigned =>
    have hquot : e / o.toNat < 2 ^ (2 * w) := (Nat.div_le_self ..).trans_lt he
    simp [arithDivVal, arithSpec, divPattern, Nat.mod_eq_of_lt he, Nat.mod_eq_of_lt hquot]

end

/-! ### The Hamming record (43_hamming.md R232) -/

theorem maskParities_lt {w : Nat} (d : BitVec w) (masks : List (BitVec w)) : maskParities d masks < 2 ^ masks.length := by
  induction masks with
  | nil => simp [maskParities]
  | cons mk rest ih =>
    have hbit : parity (d &&& mk) < 2 := Nat.mod_lt _ (by decide)
    rw [maskParities, List.length_cons, Nat.pow_succ]
    omega

theorem hamMasks_length_le (p : Params) (w : Nat) : (hamMasks p w).length ≤ 6 := by
  unfold hamMasks
  split <;> simp

theorem hamCode_lt (p : Params) {w : Nat} (d : BitVec w) : hamCode p d < 2 ^ 7 := by
  have hmasks := maskParities_lt d (hamMasks p w)
  have hpow : 2 ^ (hamMasks p w).length ≤ 2 ^ 6 := Nat.pow_le_pow_right (by decide) (hamMasks_length_le p w)
  unfold hamCode
  dsimp only
  omega

/-- The record is the data with the code above it, and fits twice the data's width. -/
theorem hamRecord_eq (p : Params) {w : Nat} (hw : 7 ≤ w) (d : BitVec w) :
    hamRecord p d = d.toNat + 2 ^ w * hamCode p d ∧ hamRecord p d < 2 ^ (2 * w) := by
  have hd := d.isLt
  have heq : hamRecord p d = d.toNat + 2 ^ w * hamCode p d := by
    rw [hamRecord, Nat.or_comm, Nat.shiftLeft_eq, Nat.mul_comm, ← Nat.two_pow_add_eq_or_of_lt hd, Nat.add_comm]
  refine ⟨heq, heq ▸ ?_⟩
  have hcode : hamCode p d + 1 ≤ 2 ^ w := (hamCode_lt p d).trans_le (Nat.pow_le_pow_right (by decide) hw)
  calc d.toNat + 2 ^ w * hamCode p d < 2 ^ w * (hamCode p d + 1) := by rw [Nat.mul_succ]; omega
    _ ≤ 2 ^ w * 2 ^ w := Nat.mul_le_mul_left _ hcode
    _ = 2 ^ (2 * w) := by rw [← Nat.pow_add, Nat.two_mul]

/-! ### The commands -/

theorem encBytes_readySetup (s : State) : (readySetup s).encBytes = 2 * cfgW s / 8 := rfl

theorem rawBytes_readySetup (s : State) : (readySetup s).rawBytes = cfgW s / 8 := rfl

theorem enc_copyCommand {s : State} (h : AnReady s) : CopyCommand s .enc (cfgW s / 8) (2 * cfgW s / 8)
    (fun _ r => (encodeVal (cfgSgn s.csr.cfg) (BitVec.ofNat (cfgW s) r) s.csr.a.toNat).toNat) State.complete where
  exec_eq := by
    rw [elemPasses_unchecked (by decide), exec, execEnc, startAN_of_ready h, encBody_eq_copyBody]
    rfl
  value e _ := by
    rw [eight_mul_encSize, encodeVal_toNat, Nat.mod_mod]
    rfl
  done_eq := .inl rfl

theorem dec_copyCommand {s : State} (h : AnReady s) : CopyCommand s .dec (2 * cfgW s / 8) (cfgW s / 8)
    (fun _ e => (decodeVal (BitVec.ofNat (2 * cfgW s) e) s.csr.ainv.toNat).toNat) State.complete where
  exec_eq := by
    rw [elemPasses_unchecked (by decide), exec, execDec, startAN_of_ready h, decBody_eq_copyBody]
    rfl
  value e _ := by
    rw [eight_mul_rawSize, decodeVal_toNat, Nat.mod_mod]
    rfl
  done_eq := .inl rfl

theorem decchk_copyCommand {s : State} (h : AnReady s) : CopyCommand s .decchk (2 * cfgW s / 8) (cfgW s / 8)
    (fun _ e => (decodeVal (BitVec.ofNat (2 * cfgW s) e) s.csr.ainv.toNat).toNat) State.complete where
  exec_eq := by
    rw [elemPasses_checked (by decide), exec, execDecchk, startAN_of_ready h, decchkBody_eq_copyBody]
    rfl
  value e _ := by
    rw [eight_mul_rawSize, decodeVal_toNat, Nat.mod_mod]
    rfl
  done_eq := .inl rfl

theorem reenc_copyCommand {s : State} {ainv : Nat} (h : AnReady s)
    (hck : checkConstant s.csr.aIn.toNat (cfgW s) = .ok ainv) :
    CopyCommand s .reenc (2 * cfgW s / 8) (2 * cfgW s / 8)
      (fun _ e => (encodeVal (cfgSgn s.csr.cfg) (decodeVal (BitVec.ofNat (2 * cfgW s) e) s.csr.ainv.toNat)
        s.csr.aIn.toNat).toNat) fun u => (u.commitPair ainv).complete where
  exec_eq := by
    have hck' : checkConstant s.csr.aIn.toNat (readySetup s).w = .ok ainv := hck
    rw [elemPasses_checked (by decide), exec, execReenc, startAN_of_ready h, hck', reencBody_eq_copyBody]
    rfl
  value e _ := by
    rw [eight_mul_encSize, Nat.mod_eq_of_lt (BitVec.isLt _)]
    rfl
  done_eq := .inr ⟨rfl, ainv, hck, rfl⟩

theorem henc_copyCommand {s : State} {w : Nat} (h : HamReady s w) :
    CopyCommand s .henc (w / 8) (2 * (w / 8)) (fun p d => hamRecord p (BitVec.ofNat w d)) State.complete where
  exec_eq := by
    rw [elemPasses_unchecked (by decide), exec, execHenc, startHam_of_ready h, hencBody_eq_copyBody]
  value e he := by
    obtain rfl := cfgW_of_hamReady h
    have hw : 7 ≤ cfgW s := by obtain ⟨-, hw⟩ | ⟨-, hw⟩ := h <;> omega
    obtain ⟨heq, hlt⟩ := hamRecord_eq s.params hw (BitVec.ofNat (cfgW s) e)
    rw [eight_mul_rawSize] at he
    rw [show 8 * (2 * (cfgW s / 8)) = 2 * cfgW s by rw [Nat.mul_left_comm, eight_mul_rawSize], Nat.mod_eq_of_lt hlt, heq,
      BitVec.toNat_ofNat, Nat.mod_eq_of_lt he]
    rfl
  done_eq := .inl rfl

/-- The element function of an ARITH command on an m-bit pattern e (42_an_arith.md R213 to R216). -/
def arithFun (s : State) (i : Instr) (e : BitVec (2 * cfgW s)) : BitVec (2 * cfgW s) :=
  match i with
  | .arithAdd => arithAddVal (cfgSgn s.csr.cfg) s.csr.a.toNat (operandAt s (cfgW s)) e
  | .arithSub => arithSubVal (cfgSgn s.csr.cfg) s.csr.a.toNat (operandAt s (cfgW s)) e
  | .arithMul => arithMulVal (cfgSgn s.csr.cfg) (operandAt s (cfgW s)) e
  | _ => arithDivVal (cfgSgn s.csr.cfg) (operandAt s (cfgW s)) e

theorem mem_arithCommands {i : Instr} :
    i ∈ arithCommands ↔ i = .arithAdd ∨ i = .arithSub ∨ i = .arithMul ∨ i = .arithDiv := by simp [arithCommands]

theorem arith_unchecked {i : Instr} (hi : i ∈ arithCommands) : i ∉ [Instr.chk, .decchk, .reenc] := by
  obtain rfl | rfl | rfl | rfl := mem_arithCommands.1 hi <;> decide

theorem arithFun_toNat {s : State} {i : Instr} {e : Nat} (hi : i ∈ arithCommands) (he : e < 2 ^ (2 * cfgW s)) :
    (arithFun s i (BitVec.ofNat (2 * cfgW s) e)).toNat
      = arithSpec i (cfgSgn s.csr.cfg) s.csr.a.toNat (cfgW s) (operandAt s (cfgW s)) e := by
  obtain rfl | rfl | rfl | rfl := mem_arithCommands.1 hi
  · exact arithAddVal_toNat ..
  · exact arithSubVal_toNat ..
  · exact arithMulVal_toNat ..
  · exact arithDivVal_toNat _ _ _ _ _ he

theorem elemValue_arith {s : State} {i : Instr} (hi : i ∈ arithCommands) :
    elemValue s i = arithSpec i (cfgSgn s.csr.cfg) s.csr.a.toNat (cfgW s) (operandAt s (cfgW s)) := by
  obtain rfl | rfl | rfl | rfl := mem_arithCommands.1 hi <;> rfl

/-- `OPERAND[w−1:0]` is the operand the statements name. -/
theorem arithOperand_eq (s : State) (w : Nat) : s.arithOperand w = operandAt s w := (BitVec.ofNat_toNat ..).symm

theorem exec_arith {s : State} {i : Instr} (hi : i ∈ arithCommands) (h : AnReady s)
    (hdiv : i = .arithDiv → operandAt s (cfgW s) ≠ 0) : exec i s = s.arithRun (readySetup s) (arithFun s i) := by
  obtain rfl | rfl | rfl | rfl := mem_arithCommands.1 hi
  · rw [exec, execArithAdd, startAN_of_ready h, arithOperand_eq]
    rfl
  · rw [exec, execArithSub, startAN_of_ready h, arithOperand_eq]
    rfl
  · rw [exec, execArithMul, startAN_of_ready h, arithOperand_eq]
    rfl
  · rw [exec, execArithDiv, startAN_of_ready h, arithOperand_eq]
    exact if_neg (hdiv rfl)

theorem arith_copyCommand {s : State} {i : Instr} (hi : i ∈ arithCommands) (h : AnReady s)
    (hdiv : i = .arithDiv → operandAt s (cfgW s) ≠ 0) :
    CopyCommand s i (2 * cfgW s / 8) (2 * cfgW s / 8)
      (fun _ e => (arithFun s i (BitVec.ofNat (2 * cfgW s) e)).toNat) State.complete where
  exec_eq := by
    rw [elemPasses_unchecked (arith_unchecked hi), exec_arith hi h hdiv]
    rfl
  value e he := by
    rw [eight_mul_encSize] at he ⊢
    rw [elemValue_arith hi, ← arithFun_toNat hi he, Nat.mod_eq_of_lt (BitVec.isLt _)]
  done_eq := .inl rfl

/-- Every writing stream command whose start checks pass is a copying loop. -/
theorem copyCommand_of_streamReady {s : State} {i : Instr} {ss ds : Nat} (h : StreamReady s i ss ds) :
    ∃ f done, CopyCommand s i ss ds f done := by
  obtain ⟨hs, ⟨rfl, rfl, rfl⟩ | ⟨rfl | rfl, rfl, rfl⟩ | ⟨hi, rfl, rfl⟩⟩ | ⟨rfl, w, hw, rfl, rfl⟩ := h
  · exact ⟨_, _, enc_copyCommand hs⟩
  · exact ⟨_, _, dec_copyCommand hs⟩
  · exact ⟨_, _, decchk_copyCommand hs⟩
  · obtain rfl | rfl | rfl | ⟨rfl, ho⟩ | ⟨rfl, hlt, hodd⟩ := hi
    · exact ⟨_, _, arith_copyCommand (by decide) hs (by simp)⟩
    · exact ⟨_, _, arith_copyCommand (by decide) hs (by simp)⟩
    · exact ⟨_, _, arith_copyCommand (by decide) hs (by simp)⟩
    · exact ⟨_, _, arith_copyCommand (by decide) hs fun _ => ho⟩
    · obtain ⟨ainv, hck⟩ := checkConstant_of_odd hlt hodd
      exact ⟨_, _, reenc_copyCommand hs hck⟩
  · exact ⟨_, _, henc_copyCommand hw⟩

end Sys2Proof.Machine
end

section
/-! PROOFS (20_memory.md R84, R91 to R93). The stream commands as copying loops: what the overlap check refuses (O29), a
refused access (O30), and the ARITH commands in place (O44). -/

namespace Sys2Proof.Machine

/-! ### The overlap check (20_memory.md R91, R92) -/

theorem rangesMeet_iff {a la b lb : Nat} :
    rangesMeet a la b lb = true ↔ ∃ x, inRange (a, la) x = true ∧ inRange (b, lb) x = true := by
  simp only [rangesMeet, Bool.and_eq_true, bne_iff_ne, decide_eq_true_eq, inRange_iff]
  constructor
  · rintro ⟨⟨⟨ha, hb⟩, hab⟩, hba⟩
    exact ⟨max a b, by omega⟩
  · rintro ⟨x, hx⟩
    omega

theorem overlapCheck_refuses {s : State} {ss ds : Nat} {k : Host.Outcome State Fault Refusal}
    (hplace : ¬ (s.csr.src = s.csr.dst ∧ ss = ds))
    (hmeet : rangesMeet s.csr.src.toNat (s.csr.count.toNat * ss) s.csr.dst.toNat (s.csr.count.toNat * ds) = true) :
    s.overlapCheck ss ds k = .next (s.raise .bufferOverlap 0 0) := by
  rw [← BitVec.toNat_inj, not_and_or] at hplace
  rw [State.overlapCheck, if_pos]
  simpa [buffersOverlap, hmeet] using hplace

/-- Buffers that the overlap check lets pass. -/
def BuffersPass (s : State) (ss ds : Nat) : Prop := (s.csr.src = s.csr.dst ∧ ss = ds) ∨ BuffersDisjoint s ss ds

theorem CopyCommand.exec_passing {s : State} {i : Instr} {ss ds : Nat} {f : Params → Nat → Nat} {done : State → State}
    (h : CopyCommand s i ss ds f done) (hp : BuffersPass s ss ds) :
    exec i s = (s.stream (copyBody ss ds (elemPasses s i) f)).outcome done := by
  rw [h.exec_eq, overlapCheck_passes hp.symm]

/-- The copying loop reports no error but a refused access or a refused element. -/
theorem copyStream_err_ne_bufferOverlap {s : State} (hs : s.csr.err = .none) (ss ds : Nat) (ok : Nat → Bool)
    (f : Params → Nat → Nat) :
    (s.stream (copyBody ss ds ok f)).Holds (fun u => u.csr.err ≠ .bufferOverlap) (fun u => u.csr.err ≠ .bufferOverlap) := by
  refine stream_keeps _ (by simp [hs]) (fun u hu => ?_) (fun _ hu => hu) fun _ hu => hu
  refine loadElem_holds (fun _ => ?_) fun _ => by simp
  split
  · exact storeElem_holds (fun _ => hu) fun _ => by simp
  · simp

/-- Settles O29: a common byte fails the overlap check; without one the command is its loop, whose errors are others. -/
theorem overlapIsRefusedBeforeAnyAccess : Obligations.OverlapIsRefusedBeforeAnyAccess := by
  intro i s ss ds h
  obtain ⟨f, done, hcopy⟩ := copyCommand_of_streamReady h
  refine ⟨fun hplace hcommon => ?_, fun hpass herr => ?_⟩
  · rw [hcopy.exec_eq, overlapCheck_refuses hplace (rangesMeet_iff.2 hcommon)]
  · have hp : BuffersPass s ss ds := by
      refine hpass.imp_right fun hfree => ?_
      rw [BuffersDisjoint, ← Bool.not_eq_true, rangesMeet_iff]
      rintro ⟨x, hsrc, hdst⟩
      rcases hfree x with hx | hx <;> simp_all
    rw [hcopy.exec_passing hp]
    exact outcome_yields (copyStream_err_ne_bufferOverlap herr ..) fun u hu => (hcopy.done_err u).trans_ne hu

/-! ### A loop that ends before it changes anything -/

/-- A loop whose body leaves the state alone for the elements before b of iteration 0, and ends at b. -/
theorem stream_ends_at {s t : State} {body : State → Flow} {b : Nat} (hb : b < s.csr.count.toNat)
    (hit : 0 < s.csr.iter.toNat)
    (hgo : ∀ j < b, body { s with seq := ⟨0, j, false⟩ } = .running { s with seq := ⟨0, j, false⟩ })
    (hend : body { s with seq := ⟨0, b, false⟩ } = .ended t) : s.stream body = .ended t := by
  have key : (s.stream body).Holds (fun _ => False) (· = t) := by
    refine Flow_holds_mono (stream_holds (fun it i u => it = 0 ∧ i ≤ b ∧ u = { s with seq := ⟨it, i, false⟩ })
      ⟨rfl, Nat.zero_le _, rfl⟩ (fun it _ i _ u hu => ?_) fun it _ u hu => by omega) (fun u hu => by omega) fun _ hu => hu
    obtain ⟨rfl, hib, rfl⟩ := hu
    rcases Nat.lt_or_eq_of_le hib with hlt | rfl
    · rw [hgo i hlt]
      exact ⟨rfl, hlt, rfl⟩
    · rw [hend]
      rfl
  obtain ⟨u, hu, rfl⟩ := Flow_holds_ended_iff.1 key
  exact hu

/-- A stream command whose very first read is refused reports it and does nothing else. -/
theorem stream_first_read_refused {s : State} {size : Nat} {k : State → Nat → State → Flow} (done : State → State)
    (hc : 0 < s.csr.count.toNat) (hit : 0 < s.csr.iter.toNat) (hno : s.admits s.csr.src.toNat size = false) :
    (s.stream fun u => u.loadElem u.csr.src.toNat size (k u)).outcome done = .next (s.raise .busError 0 0) := by
  have hno' : s.admits (elemAddr s.csr.src.toNat 0 size) size = false := by simpa [elemAddr] using hno
  rw [stream_ends_at hc hit (by simp) (loadElem_refused hno')]
  rfl

/-! ### CHK and HCHK (41_an_codec.md R178, 43_hamming.md R240) -/

theorem exec_chk {s : State} (h : AnReady s) : exec .chk s = (s.stream (chkBody (readySetup s))).outcome State.complete := by
  rw [exec, execChk, startAN_of_ready h]

theorem exec_hchk {s : State} {w : Nat} (h : HamReady s w) :
    exec .hchk s = (s.stream (hchkBody w)).outcome State.finishHchk := by
  rw [exec, execHchk, startHam_of_ready h]

/-- CHK at an element that is admitted and valid leaves the state as it is. -/
theorem chkBody_passes {s u : State} (hr : u.raced = [])
    (ha : u.admits (elemAddr u.csr.src.toNat u.seq.i (2 * cfgW s / 8)) (2 * cfgW s / 8) = true)
    (hok : elemPasses s .chk (u.mem.readLE (elemAddr u.csr.src.toNat u.seq.i (2 * cfgW s / 8)) (2 * cfgW s / 8)) = true) :
    chkBody (readySetup s) u = .running u := by
  rw [elemPasses_checked (by decide)] at hok
  rw [chkBody, encBytes_readySetup, loadElem_admitted hr ha]
  exact if_pos hok

theorem chk_refused {s : State} {n : Nat} (h : AnReady s) (hr : s.raced = []) (hn : n < s.csr.count.toNat)
    (hit : 0 < s.csr.iter.toNat) (hok : ∀ j < n, elemPasses s .chk (srcElem s (2 * cfgW s / 8) j) = true)
    (ha : ∀ j ≤ n, s.admits (elemAddr s.csr.src.toNat j (2 * cfgW s / 8)) (2 * cfgW s / 8) = decide (j < n)) :
    exec .chk s = .next (s.raise .busError n 0) := by
  have hgo : ∀ j < n, chkBody (readySetup s) { s with seq := ⟨0, j, false⟩ } = .running { s with seq := ⟨0, j, false⟩ } :=
    fun j hj => chkBody_passes hr ((ha j hj.le).trans (decide_eq_true hj)) (hok j hj)
  have hend : chkBody (readySetup s) { s with seq := ⟨0, n, false⟩ } = .ended (s.raise .busError n 0) :=
    loadElem_refused ((ha n le_rfl).trans (decide_eq_false (Nat.lt_irrefl n)))
  rw [exec_chk h, stream_ends_at hn hit hgo hend]
  rfl

/-! ### What the source gives while a copying loop runs -/

section
variable {s u : State} {i : Instr} {ss ds n it j : Nat} {val : Nat → Nat → Nat} {f : Params → Nat → Nat}
  {done : State → State}

/-- In place the source is the destination. -/
theorem CopyAt_source_inPlace (h : CopyAt s ds n val it j u) (hj : j < n) (hsd : s.csr.src = s.csr.dst) :
    u.mem.readLE (elemAddr s.csr.src.toNat j ds) ds = val it j := by
  rw [hsd, h.elems j hj, if_neg (Nat.lt_irrefl j)]

/-- In the first pass the source reads as the loop found it. -/
theorem CopyAt_source_firstPass (h : CopyAt s ds n val 0 j u) (hn : n = s.csr.count.toNat) (hj : j < n)
    (hp : BuffersPass s ss ds) (hval : val 0 j = dstElem s ds j) :
    u.mem.readLE (elemAddr s.csr.src.toNat j ss) ss = srcElem s ss j := by
  subst hn
  obtain ⟨hsd, rfl⟩ | hd := hp
  · rw [CopyAt_source_inPlace h hj hsd, hval, srcElem, hsd]
    rfl
  · exact CopyAt_source h hj hd

/-- The value written for a source element of s. -/
theorem CopyCommand.value_srcElem (h : CopyCommand s i ss ds f done) (j : Nat) :
    f s.params (srcElem s ss j) % 2 ^ (8 * ds) = elemValue s i (srcElem s ss j) := h.value _ (Memory_readLE_lt _ _ _)

/-! ### A refused access of a copying command -/

/-- Element j of the destination after p passes of a command that writes the source's values once. -/
def valueAfter (s : State) (i : Instr) (ss ds p j : Nat) : Nat :=
  if p = 0 then dstElem s ds j else elemValue s i (srcElem s ss j)

theorem CopyCommand.refused (h : CopyCommand s i ss ds f done) (hm : s.mem.wf) (hr : s.raced = [])
    (hp : BuffersPass s ss ds) (hit : 0 < s.csr.iter.toNat) (hn : n < s.csr.count.toNat)
    (hbefore : ∀ j < n, s.admits (elemAddr s.csr.src.toNat j ss) ss = true ∧
      s.admits (elemAddr s.csr.dst.toNat j ds) ds = true ∧ elemPasses s i (srcElem s ss j) = true)
    (hno : s.admits (elemAddr s.csr.src.toNat n ss) ss = false ∨
      (s.admits (elemAddr s.csr.src.toNat n ss) ss = true ∧ elemPasses s i (srcElem s ss n) = true ∧
        s.admits (elemAddr s.csr.dst.toNat n ds) ds = false)) :
    ∃ t, exec i s = .next t ∧
      WritesElems s (s.raise .busError n 0) t ds n fun j => elemValue s i (srcElem s ss j) := by
  have hsrc : ∀ j u, j < s.csr.count.toNat → CopyAt s ds s.csr.count.toNat (valueAfter s i ss ds) 0 j u →
      u.mem.readLE (elemAddr s.csr.src.toNat j ss) ss = srcElem s ss j :=
    fun j u hj hu => CopyAt_source_firstPass hu rfl hj hp rfl
  obtain ⟨u, hu, hat⟩ := stream_copy_refused (ok := elemPasses s i) (f := f) (val := valueAfter s i ss ds) hm.1 hr
    (fun j hj => (hbefore j hj).1) (fun j hj => (hbefore j hj).2.1) (fun _ _ => rfl) hn hit
    (fun j u hj hu => by
      rw [hsrc j u (hj.trans hn) hu]
      exact ⟨(hbefore j hj).2.2, h.value_srcElem j⟩)
    (fun u hu => by
      rw [hsrc n u hn hu]
      exact hno.imp_right fun ⟨hread, hok, hwrite⟩ => ⟨hread, hwrite, hok⟩)
  refine ⟨u.raiseHere .busError, by rw [h.exec_passing hp, hu]; rfl, by rw [hat.frame]; rfl, fun j hj => ?_,
    fun a ha => hat.others a ha⟩
  have hcsr : u.csr = s.csr := (CopyAt_shared hat).2.1
  show u.mem.readLE (elemAddr u.csr.dst.toNat j ds) ds = _
  rw [hcsr, hat.elems j (hj.trans hn), if_pos hj]
  rfl

end

/-- Settles O30: a writing command by its copying loop, and every first read by `stream_first_read_refused`. -/
theorem refusedReadRaisesBusError : Obligations.RefusedReadRaisesBusError := by
  refine ⟨fun i s ss ds n h hm hr hp hit hn hbefore hno => ?_, fun i s ss ds h hp hc hit hno => ?_,
    fun s n h hr hn hit hok ha => chk_refused h hr hn hit hok ha, fun s h hc hit hno => ?_, fun s w h hc hit hno => ?_⟩
  · obtain ⟨f, done, hcopy⟩ := copyCommand_of_streamReady h
    exact hcopy.refused hm hr hp hit hn hbefore hno
  · obtain ⟨f, done, hcopy⟩ := copyCommand_of_streamReady h
    rw [hcopy.exec_passing hp]
    exact stream_first_read_refused done hc hit hno
  · rw [exec_chk h]
    exact stream_first_read_refused State.complete hc hit hno
  · rw [exec_hchk h]
    exact stream_first_read_refused State.finishHchk hc hit hno

/-! ### ARITH in place (20_memory.md R93, 70_reset_and_hazards.md R353) -/

/-- Element j of the buffer after p passes of a command in place. -/
def iteratedValue (s : State) (i : Instr) (size p j : Nat) : Nat := (elemValue s i)^[p] (srcElem s size j)

/-- A command without a check, in place: every pass applies its function to what the pass before has left. -/
theorem CopyCommand.inPlace {s : State} {i : Instr} {size : Nat} {f : Params → Nat → Nat}
    (h : CopyCommand s i size size f State.complete) (hfree : i ∉ [Instr.chk, .decchk, .reenc]) (hready : ReadsReady s size)
    (hsd : s.csr.src = s.csr.dst) :
    ∃ t, exec i s = .next t ∧ WritesElems s s.complete t size s.csr.count.toNat (iteratedValue s i size s.csr.iter.toNat) := by
  obtain ⟨hm, hr, hreads⟩ := hready
  have hwrites : ∀ j < s.csr.count.toNat, s.admits (elemAddr s.csr.dst.toNat j size) size = true := hsd ▸ hreads
  obtain ⟨u, hu, hat⟩ := stream_copy (ok := elemPasses s i) (f := f) (val := iteratedValue s i size) hm.1 hr hreads hwrites
    (fun j _ => by rw [← hsd]; rfl)
    (fun p j u hj hu => by
      have hsrc := CopyAt_source_inPlace hu hj hsd
      have hlt := Memory_readLE_lt u.mem (elemAddr s.csr.src.toNat j size) size
      rw [h.value _ hlt, hsrc, elemPasses_unchecked hfree]
      exact ⟨rfl, (Function.iterate_succ_apply' ..).symm⟩)
  have hcsr : u.csr = s.csr := (CopyAt_shared hat).2.1
  refine ⟨u.complete, by rw [h.exec_passing (.inl ⟨hsd, rfl⟩), hu]; rfl, by rw [hat.frame]; rfl, fun j hj => ?_,
    fun a ha => hat.others a ?_⟩
  · show u.mem.readLE (elemAddr u.csr.dst.toNat j size) size = _
    rw [hcsr, hat.elems j hj, if_neg (Nat.not_lt_zero j)]
  · simp only [inRange_eq_false] at ha ⊢
    split <;> omega

/-- Settles O44: the ARITH commands check no element, and their value is `arithSpec`. -/
theorem arithInPlaceRepeats : Obligations.ArithInPlaceRepeats := by
  intro i s hi h hdiv hready hsd
  rw [← elemValue_arith hi]
  exact (arith_copyCommand hi h hdiv).inPlace (arith_unchecked hi) hready hsd

end Sys2Proof.Machine
end

section
/-! PROOFS (30_encoding.md R110 to R123). The fields of the encoder's words, and that they decode back (O1, O3). -/

namespace Sys2Proof

open Laws.TableMatch (code_lt sgn_code_lt encodeR_fixed encodeM_fixed)

/-! ### The codes of the fields (30_encoding.md R112) -/

@[simp] theorem EW.ofCode_code (ew : EW) : EW.ofCode ew.code = ew := by cases ew <;> rfl

@[simp] theorem Sgn.ofCode_code (sg : Sgn) : Sgn.ofCode sg.code = sg := by cases sg <;> rfl

theorem field3_eq_iff {w : CmdWord} {lo : Nat} {r : Fin 8} : field3 w lo = r ↔ field w lo 3 = r.val := Fin.ext_iff

/-! ### The fields of an encoded word (30_encoding.md R121) -/

theorem encodeN_fixed {opc : Nat} (h : opc < 256) : field (encodeN opc) 0 24 = 0 ∧ field (encodeN opc) 24 8 = opc := by
  simp only [field, encodeN, BitVec.toNat_ofNat]
  omega

theorem encodeM_operands (opc : Nat) (vr : VNum) (imm : BitVec 16) :
    fieldVD (encodeM opc vr imm) = vr ∧ fieldImm (encodeM opc vr imm) = imm := by
  have h1 := vr.isLt
  have h2 := imm.isLt
  rw [fieldVD, field3_eq_iff, ← BitVec.toNat_inj]
  simp only [fieldImm, field, encodeM, BitVec.toNat_ofNat]
  omega

theorem encodeR_fields (opc : Nat) (vd vs1 vs2 : VNum) (ew : EW) (sg : Sgn) {f : Nat} (hf : f < 8) :
    field (encodeR opc vd vs1 vs2 ew sg f) 21 3 = vd.val ∧ field (encodeR opc vd vs1 vs2 ew sg f) 18 3 = vs1.val ∧
      field (encodeR opc vd vs1 vs2 ew sg f) 15 3 = vs2.val ∧ field (encodeR opc vd vs1 vs2 ew sg f) 13 2 = ew.code ∧
      field (encodeR opc vd vs1 vs2 ew sg f) 12 1 = sg.code ∧ field (encodeR opc vd vs1 vs2 ew sg f) 9 3 = f := by
  have h1 := vd.isLt
  have h2 := vs1.isLt
  have h3 := vs2.isLt
  have h4 := code_lt ew
  have h5 := sgn_code_lt sg
  simp only [field, encodeR, BitVec.toNat_ofNat]
  omega

theorem encodeR_operands (opc : Nat) (vd vs1 vs2 : VNum) (ew : EW) (sg : Sgn) {f : Nat} (hf : f < 8) :
    fieldVD (encodeR opc vd vs1 vs2 ew sg f) = vd ∧ fieldVS1 (encodeR opc vd vs1 vs2 ew sg f) = vs1 ∧
      fieldVS2 (encodeR opc vd vs1 vs2 ew sg f) = vs2 ∧ fieldEW (encodeR opc vd vs1 vs2 ew sg f) = ew ∧
      fieldS (encodeR opc vd vs1 vs2 ew sg f) = sg := by
  simp [fieldVD, fieldVS1, fieldVS2, fieldEW, fieldS, field3_eq_iff, encodeR_fields opc vd vs1 vs2 ew sg hf]

/-! ### Each format decodes what it encodes -/

section
variable {opc : Nat} (hopc : opc < 256) (vd vs1 vs2 : VNum) (ew : EW) (sg : Sgn)
include hopc

theorem decodeN_encodeN (i : Instr) : decodeN (encodeN opc) i = .ok i := if_pos (encodeN_fixed hopc).1

theorem decodeM_encodeM (mk : VNum → BitVec 16 → Instr) (vr : VNum) (imm : BitVec 16) :
    decodeM (encodeM opc vr imm) mk = .ok (mk vr imm) := by
  simp [decodeM, encodeM_fixed opc hopc, encodeM_operands]

theorem decodeR2_encodeR (mk : VNum → VNum → VNum → EW → Sgn → Instr) :
    decodeR2 (encodeR opc vd vs1 vs2 ew sg 0) mk = .ok (mk vd vs1 vs2 ew sg) := by
  simp [decodeR2, encodeR_fixed opc hopc, encodeR_operands]

theorem decodeR1_encodeR (mk : VNum → VNum → EW → Sgn → Instr) :
    decodeR1 (encodeR opc vd vs1 0 ew sg 0) mk = .ok (mk vd vs1 ew sg) := by
  simp [decodeR1, encodeR_fixed opc hopc, encodeR_operands]

theorem decodeCmp_encodeR {f : Nat} (hf : f < 8) {mk : VNum → VNum → VNum → EW → Sgn → Instr}
    (hmk : cmpOfF f = some mk) :
    decodeCmp (encodeR opc vd vs1 vs2 ew sg f) = .ok (mk vd vs1 vs2 ew sg) := by
  simp [decodeCmp, encodeR_fixed opc hopc, encodeR_fields, encodeR_operands, hf, hmk]

theorem decodeHpar_encodeR {k : Fin 8} (hk : hparLegal ew k = true) :
    decodeHpar (encodeR opc vd vs1 0 ew sg k.val) = .ok (.vhpar vd vs1 ew sg k) := by
  have hF : fieldF (encodeR opc vd vs1 0 ew sg k.val) = k := by simp [fieldF, field3_eq_iff, encodeR_fields]
  simp [decodeHpar, encodeR_fixed opc hopc, encodeR_operands, hF, hk]

end

/-- Settles O1: the decoder takes the arm of the instruction's opcode, and the format of the arm decodes its word. -/
theorem decodeOfEncodeIsIdentity : Obligations.DecodeOfEncodeIsIdentity := by
  intro i hi
  cases i with
  | vld | vst => simp [encode, decode, encodeM_fixed, decodeM_encodeM]
  | vadd | vsub | vmullo | vdiv | vmin | vmax | vcompress => simp [encode, decode, encodeR_fixed, decodeR2_encodeR]
  | vcmpLt | vcmpLe | vcmpEq | vcmpNe | vcmpGe | vcmpGt =>
    simp [encode, decode, encodeR_fixed, decodeCmp_encodeR, cmpOfF]
  | vredsum | vredmin | vredmax | vpopcnt => simp [encode, decode, encodeR_fixed, decodeR1_encodeR]
  | vhpar vd vs1 ew sg k =>
    have hk : hparLegal ew k = true := hi
    simp [encode, decode, encodeR_fixed, decodeHpar_encodeR, hk]
  | _ => simp [encode, decode, encodeN_fixed, decodeN_encodeN]

/-- Settles O3: the words are the encodings of what they stand for. -/
theorem specExampleWordsDecode : Obligations.SpecExampleWordsDecode :=
  have h := decodeOfEncodeIsIdentity
  ⟨h (.vadd 1 2 3 .e32 .unsigned) rfl, h (.vcmpGt 4 5 6 .e16 .signed) rfl, h (.vhpar 1 2 .e16 .unsigned 7) rfl,
    h (.vld 2 0x40) rfl, h (.vst 7 0xFFFF) rfl, h .enc rfl, h .nop rfl, h .seta rfl, h .arithDiv rfl, h .hchk rfl⟩

end Sys2Proof
end

section
/-! PROOFS (30_encoding.md R110, R122, R123). What each word decodes to, by the format of its opcode: the words that decode
are encodings (O2), and the others are those of R122 (O4). -/

namespace Sys2Proof

open Machine (IllegalByRule)

/-! ### A word is the encoding of its fields (30_encoding.md R121) -/

@[simp] theorem EW.code_ofCode (n : Nat) : (EW.ofCode n).code = n % 4 := by
  have h : n % 4 < 4 := Nat.mod_lt _ (by decide)
  unfold EW.ofCode
  interval_cases n % 4 <;> rfl

@[simp] theorem Sgn.code_ofCode (n : Nat) : (Sgn.ofCode n).code = n % 2 := by
  obtain h | h := Nat.mod_two_eq_zero_or_one n <;> simp [Sgn.ofCode, Sgn.code, h]

theorem field_lt (w : CmdWord) (lo len : Nat) : field w lo len < 2 ^ len := Nat.mod_lt _ (Nat.two_pow_pos len)

theorem field_append (w : CmdWord) (lo m n : Nat) : field w lo (m + n) = field w lo m + 2 ^ m * field w (lo + m) n := by
  rw [field, Nat.pow_add, Nat.mod_mul, Nat.div_div_eq_div_mul, ← Nat.pow_add]
  rfl

theorem field3_val (w : CmdWord) (lo : Nat) : (field3 w lo).val = field w lo 3 := rfl

/-- R122 reads the same fields as the decoder. -/
theorem extractLsb'_eq_iff {w : CmdWord} {lo len : Nat} {x : BitVec len} :
    w.extractLsb' lo len = x ↔ field w lo len = x.toNat := by
  rw [← BitVec.toNat_inj, BitVec.extractLsb'_toNat, Nat.shiftRight_eq_div_pow, field]

section
variable (w : CmdWord)

theorem encodeN_opcode (h : field w 0 24 = 0) : encodeN (field w 24 8) = w := by
  apply BitVec.eq_of_toNat_eq
  simp only [field] at h
  simp only [encodeN, field, BitVec.toNat_ofNat]
  omega

theorem encodeM_operandFields (h : field w 16 5 = 0) : encodeM (field w 24 8) (fieldVD w) (fieldImm w) = w := by
  apply BitVec.eq_of_toNat_eq
  simp only [field] at h
  simp only [encodeM, field, fieldVD, fieldImm, field3, BitVec.toNat_ofNat]
  omega

/-- A word, cut into the fields of Format R (30_encoding.md R112). -/
theorem toNat_eq_fieldsR : w.toNat = field w 0 9 + 2 ^ 9 * (field w 9 3 + 2 ^ 3 * (field w 12 1 + 2 ^ 1 * (field w 13 2 +
    2 ^ 2 * (field w 15 3 + 2 ^ 3 * (field w 18 3 + 2 ^ 3 * (field w 21 3 + 2 ^ 3 * field w 24 8)))))) := by
  rw [← field_append w 21 3 8, ← field_append w 18 3 11, ← field_append w 15 3 14, ← field_append w 13 2 17,
    ← field_append w 12 1 19, ← field_append w 9 3 20, ← field_append w 0 9 23]
  simp [field, Nat.mod_eq_of_lt w.isLt]

theorem encodeR_operandFields (h : field w 0 9 = 0) :
    encodeR (field w 24 8) (fieldVD w) (fieldVS1 w) (fieldVS2 w) (fieldEW w) (fieldS w) (field w 9 3) = w := by
  have hew : field w 13 2 % 4 = field w 13 2 := Nat.mod_eq_of_lt (field_lt w 13 2)
  have hsg : field w 12 1 % 2 = field w 12 1 := Nat.mod_eq_of_lt (field_lt w 12 1)
  have hw := toNat_eq_fieldsR w
  have hlt := w.isLt
  apply BitVec.eq_of_toNat_eq
  simp only [encodeR, fieldVD, fieldVS1, fieldVS2, fieldEW, fieldS, field3_val, EW.code_ofCode, Sgn.code_ofCode, hew, hsg,
    BitVec.toNat_ofNat]
  omega

theorem encodeR_twoSourceFields (h : field w 0 12 = 0) :
    encodeR (field w 24 8) (fieldVD w) (fieldVS1 w) (fieldVS2 w) (fieldEW w) (fieldS w) 0 = w := by
  obtain ⟨hlow, hF⟩ : field w 0 9 = 0 ∧ field w 9 3 = 0 := by
    simp only [field] at h ⊢
    omega
  have he := encodeR_operandFields w hlow
  rwa [hF] at he

theorem encodeR_oneSourceFields (h : field w 0 12 = 0 ∧ field w 15 3 = 0) :
    encodeR (field w 24 8) (fieldVD w) (fieldVS1 w) 0 (fieldEW w) (fieldS w) 0 = w := by
  obtain ⟨hlow, hvs2⟩ := h
  have he := encodeR_twoSourceFields w hlow
  rwa [fieldVS2, field3_eq_iff (r := 0) |>.2 hvs2] at he

end

/-! ### Compare conditions and mask indices (30_encoding.md R116, R117) -/

theorem cmpOfF_eq_none_iff (w : CmdWord) : cmpOfF (field w 9 3) = none ↔ field w 9 3 = 6 ∨ field w 9 3 = 7 := by
  have hf : field w 9 3 < 8 := field_lt w 9 3
  interval_cases field w 9 3 <;> simp [cmpOfF]

theorem encode_of_cmpOfF {f : Nat} {mk : VNum → VNum → VNum → EW → Sgn → Instr} (h : cmpOfF f = some mk)
    (vd vs1 vs2 : VNum) (ew : EW) (sg : Sgn) :
    (mk vd vs1 vs2 ew sg).wellFormed = true ∧ encode (mk vd vs1 vs2 ew sg) = encodeR 0x50 vd vs1 vs2 ew sg f := by
  unfold cmpOfF at h
  split at h <;> cases h <;> exact ⟨rfl, rfl⟩

theorem hparLegal_eq_false_iff (w : CmdWord) : hparLegal (fieldEW w) (fieldF w) = false ↔
    field w 13 2 = 0 ∨ field w 13 2 = 3 ∨ field w 9 3 = 6 ∨ field w 13 2 = 1 ∧ field w 9 3 = 5 := by
  have hcodes : ∀ n < 4, ∀ k : Fin 8,
      hparLegal (EW.ofCode n) k = false ↔ n = 0 ∨ n = 3 ∨ k.val = 6 ∨ n = 1 ∧ k.val = 5 := by decide
  exact hcodes _ (field_lt w 13 2) (fieldF w)

/-! ### What a word decodes to, by the format of its opcode -/

/-- r is what a format's decoder answers for w: the format, its instruction with the opcode of w, and what R122 asks of the
words of that opcode. -/
inductive Decoding (w : CmdWord) : Except Illegal Instr → Prop
  | formatN (i : Instr) (encodes : i.wellFormed = true ∧ encode i = encodeN (field w 24 8))
      (illegal : IllegalByRule w ↔ field w 0 24 ≠ 0) : Decoding w (decodeN w i)
  | formatM (mk : VNum → BitVec 16 → Instr)
      (encodes : ∀ vr imm, (mk vr imm).wellFormed = true ∧ encode (mk vr imm) = encodeM (field w 24 8) vr imm)
      (illegal : IllegalByRule w ↔ field w 16 5 ≠ 0) : Decoding w (decodeM w mk)
  | twoSources (mk : VNum → VNum → VNum → EW → Sgn → Instr)
      (encodes : ∀ vd vs1 vs2 ew sg, (mk vd vs1 vs2 ew sg).wellFormed = true ∧
        encode (mk vd vs1 vs2 ew sg) = encodeR (field w 24 8) vd vs1 vs2 ew sg 0)
      (illegal : IllegalByRule w ↔ field w 0 12 ≠ 0) : Decoding w (decodeR2 w mk)
  | oneSource (mk : VNum → VNum → EW → Sgn → Instr)
      (encodes : ∀ vd vs1 ew sg, (mk vd vs1 ew sg).wellFormed = true ∧
        encode (mk vd vs1 ew sg) = encodeR (field w 24 8) vd vs1 0 ew sg 0)
      (illegal : IllegalByRule w ↔ field w 0 12 ≠ 0 ∨ field w 15 3 ≠ 0) : Decoding w (decodeR1 w mk)
  | compare (opcode : field w 24 8 = 0x50)
      (illegal : IllegalByRule w ↔ field w 0 9 ≠ 0 ∨ cmpOfF (field w 9 3) = none) : Decoding w (decodeCmp w)
  | parity (opcode : field w 24 8 = 0x60)
      (illegal : IllegalByRule w ↔ field w 0 9 ≠ 0 ∨ field w 15 3 ≠ 0 ∨ hparLegal (fieldEW w) (fieldF w) = false) :
      Decoding w (decodeHpar w)
  | unknown (illegal : IllegalByRule w) : Decoding w (.error .unknownOpcode)

/-- Every word, by the arm of the decoder that its opcode takes (30_encoding.md R119); h_n is the n-th arm. -/
theorem decode_decoding (w : CmdWord) : Decoding w (decode w) := by
  unfold decode
  split
  case h_1 h | h_2 h | h_3 h | h_4 h | h_5 h | h_6 h | h_7 h | h_8 h | h_9 h | h_10 h | h_11 h | h_12 h | h_13 h | h_14 h =>
    exact .formatN _ (by rw [h]; exact ⟨rfl, rfl⟩) (by simp [IllegalByRule, extractLsb'_eq_iff, h])
  case h_15 h | h_16 h =>
    exact .formatM _ (by rw [h]; exact fun _ _ => ⟨rfl, rfl⟩) (by simp [IllegalByRule, extractLsb'_eq_iff, h])
  case h_17 h | h_18 h | h_19 h | h_20 h | h_21 h | h_22 h | h_28 h =>
    exact .twoSources _ (by rw [h]; exact fun _ _ _ _ _ => ⟨rfl, rfl⟩) (by simp [IllegalByRule, extractLsb'_eq_iff, h])
  case h_24 h | h_25 h | h_26 h | h_27 h =>
    exact .oneSource _ (by rw [h]; exact fun _ _ _ _ => ⟨rfl, rfl⟩) (by simp [IllegalByRule, extractLsb'_eq_iff, h])
  case h_23 h => exact .compare h (by simp [IllegalByRule, extractLsb'_eq_iff, h, cmpOfF_eq_none_iff])
  case h_29 h => exact .parity h (by simp [IllegalByRule, extractLsb'_eq_iff, h, hparLegal_eq_false_iff])
  case h_30 => exact .unknown (.inl (by simp_all [extractLsb'_eq_iff]))

section
variable {w : CmdWord} {r : Except Illegal Instr} (h : Decoding w r)
include h

/-- A word that decodes is the encoding of what it decodes to: of its own fields. -/
theorem Decoding.encode_eq {i : Instr} (hr : r = .ok i) : i.wellFormed = true ∧ encode i = w := by
  cases h with
  | formatN j encodes =>
    unfold decodeN at hr
    split at hr <;> cases hr
    exact encodes.imp_right (·.trans (encodeN_opcode w ‹_›))
  | formatM mk encodes =>
    unfold decodeM at hr
    split at hr <;> cases hr
    exact (encodes ..).imp_right (·.trans (encodeM_operandFields w ‹_›))
  | twoSources mk encodes =>
    unfold decodeR2 at hr
    split at hr <;> cases hr
    exact (encodes ..).imp_right (·.trans (encodeR_twoSourceFields w ‹_›))
  | oneSource mk encodes =>
    unfold decodeR1 at hr
    split at hr <;> cases hr
    exact (encodes ..).imp_right (·.trans (encodeR_oneSourceFields w ‹_›))
  | compare opcode =>
    unfold decodeCmp at hr
    split at hr
    · split at hr <;> cases hr
      exact (encode_of_cmpOfF ‹_› ..).imp_right (·.trans (opcode ▸ encodeR_operandFields w ‹_›))
    · cases hr
  | parity opcode =>
    unfold decodeHpar at hr
    split at hr
    · rename_i hz
      split at hr <;> cases hr
      refine ⟨‹_›, ?_⟩
      have he := encodeR_operandFields w hz.1
      rwa [opcode, fieldVS2, field3_eq_iff (r := 0) |>.2 hz.2] at he
    · cases hr
  | unknown => cases hr

/-- The words that do not decode are the illegal words of R122. -/
theorem Decoding.error_iff : (∃ e, r = .error e) ↔ IllegalByRule w := by
  cases h with
  | formatN i _ illegal =>
    rw [illegal, decodeN]
    split <;> simp [*]
  | formatM mk _ illegal =>
    rw [illegal, decodeM]
    split <;> simp [*]
  | twoSources mk _ illegal =>
    rw [illegal, decodeR2]
    split <;> simp [*]
  | oneSource mk _ illegal =>
    rw [illegal, decodeR1, ← not_and_or]
    split <;> simp [*]
  | compare _ illegal =>
    rw [illegal, decodeCmp]
    split
    · split <;> simp [*]
    · simp [*]
  | parity _ illegal =>
    rw [illegal, decodeHpar, ← or_assoc, ← not_and_or]
    split
    · split <;> simp_all
    · simp [*]
  | unknown illegal => simp [illegal]

end

/-- Settles O2, by the format of the word's opcode. -/
theorem legalWordsAreEncodings : Obligations.LegalWordsAreEncodings :=
  fun w _ h => (decode_decoding w).encode_eq h

end Sys2Proof
end

section
/-! PROOFS (30_encoding.md R122, R124). What the sequencer does with an illegal word (O4), and what any step puts on record
of a read of a never-written vector register (O16). -/

namespace Sys2Proof.Machine

/-! ### Illegal words (30_encoding.md R122) -/

theorem decode_error_iff (w : CmdWord) : (∃ e, decode w = .error e) ↔ IllegalByRule w := (decode_decoding w).error_iff

/-- The sequencer's turn on an accepted word that does not decode. -/
theorem coreTurn_of_error {s : State} {e : Illegal} (hb : s.csr.busy = true) (hd : decode s.csr.cmd = .error e) :
    coreTurn s = .next (s.raise .illegalCommand 0 0) := by
  rw [coreTurn_busy hb, runCommand, hd]

/-- Settles O4: the error cases of `Decoding`, and the sequencer's turn on one of them. -/
theorem illegalWordsRaiseIllegalCommand : Obligations.IllegalWordsRaiseIllegalCommand := by
  refine ⟨decode_error_iff, fun s rest hb hw hs => ?_⟩
  obtain ⟨e, hd⟩ := (decode_error_iff s.csr.cmd).2 hw
  obtain ⟨hs, rfl⟩ | hs := hs
  · rw [step_unscheduled hs, coreTurn_of_error hb hd, ← hs]
    rfl
  · rw [step_core hs]
    exact coreTurn_of_error hb hd

/-! ### The record of never-written registers (10_state.md R56) -/

/-- The record of t is that of s, or has been made of a never-written register under VREG_UNINIT = fault. -/
def RecordKept (s t : State) : Prop :=
  t.vregFault = s.vregFault ∨ (s.vregFault = none ∧ s.params.vregUninit = .fault ∧
    ∃ r : VNum, t.vregFault = some r ∧ (s.vregs.get r).written = false)

theorem recordKept_of_faultAfter {s t : State} {reads : List VNum} (h : t.vregFault = faultAfter s reads) :
    RecordKept s t := by
  unfold faultAfter at h
  split at h
  · exact .inl h
  · rename_i hfree
    obtain ⟨hnone, hsetting⟩ : s.vregFault = none ∧ s.params.vregUninit = .fault := by
      cases hu : s.params.vregUninit <;> simp_all
    cases hfind : reads.find? fun r => !(s.vregs.get r).written with
    | none => exact .inl (by rw [h, hfind, hnone])
    | some r => exact .inr ⟨hnone, hsetting, r, by rw [h, hfind], by simpa using List.find?_some hfind⟩

theorem coreTurn_recordKept (s : State) : Yields (coreTurn s) (RecordKept s) := by
  cases hb : s.csr.busy with
  | false => exact coreTurn_idle hb ▸ yields_next.2 (.inl rfl)
  | true =>
    cases hd : decode s.csr.cmd with
    | ok i =>
      obtain ⟨t, ht, hrec⟩ := exec_records i s
      exact ⟨t, coreTurn_of_decode hb hd ▸ ht, recordKept_of_faultAfter hrec⟩
    | error e =>
      rw [coreTurn_of_error hb hd]
      exact yields_next.2 (.inl rfl)

theorem csrWrite_vregFault {s t : State} {c : CsrName} {v : Word} (h : s.csrWrite c v = some t) :
    t.vregFault = s.vregFault := by
  cases c <;> simp only [State.csrWrite, Option.some.injEq, reduceCtorEq] at h <;> subst h <;> rfl

@[simp] theorem mmioRead_vregFault (s : State) (off n : Nat) : (s.mmioRead off n).vregFault = s.vregFault := by
  unfold State.mmioRead
  split
  · split <;> rfl
  · rfl

@[simp] theorem mmioWrite_vregFault (s : State) (off n : Nat) (v : Word) :
    (s.mmioWrite off n v).vregFault = s.vregFault := by
  unfold State.mmioWrite
  split
  · rfl
  · split
    · split
      · rfl
      · exact csrWrite_vregFault ‹_›
    · rfl
  · rfl

theorem hostAct_vregFault {s : State} {x : HostTxn} (hx : x ≠ .reset) : (s.hostAct x).vregFault = s.vregFault := by
  cases x with
  | mmioRead addr n => simp only [State.hostAct]; split <;> simp
  | mmioWrite addr n v => simp only [State.hostAct]; split <;> simp
  | memRead a n => rfl
  | memWrite a n v => rfl
  | reset => exact absurd rfl hx

/-- What a step from s to t does to the record: a reset clears it, every other turn keeps it as `RecordKept` says. -/
theorem step_record (s : State) :
    Yields (step s) fun t => RecordKept s t ∨ (t.vregFault = none ∧ ∃ rest, s.schedule = .host .reset :: rest) := by
  cases hs : s.schedule with
  | nil =>
    obtain ⟨t, ht, hrec⟩ := coreTurn_recordKept s
    exact ⟨t, step_unscheduled hs ▸ ht, .inl hrec⟩
  | cons turn rest =>
    cases turn with
    | core =>
      obtain ⟨t, ht, hrec⟩ := coreTurn_recordKept { s with schedule := rest }
      exact ⟨t, step_core hs ▸ ht, .inl hrec⟩
    | host x =>
      refine ⟨_, step_host hs, ?_⟩
      by_cases hx : x = .reset
      · subst hx
        exact .inr ⟨rfl, rest, rfl⟩
      · exact .inl (.inl (hostAct_vregFault hx))

/-- Settles O16: every turn goes on, and does to the record what `step_record` says. -/
theorem everyStepGoesOn : Obligations.EveryStepGoesOn := by
  refine ⟨fun s => (step_record s).imp fun _ => And.left, fun s t h => ?_⟩
  obtain (hkeep | hrec) | hreset := yields_of_next (step_record s) h
  · exact .inl hkeep
  · exact .inr (.inr hrec)
  · exact .inr (.inl hreset)

end Sys2Proof.Machine
end

section
/-! PROOFS (40_solver.md R140 to R155). The value of Solve: the unique inverse of an odd number (O23), and none of an even
one (O24). From it what NOP (O22), SETA (O25) and MODINV (O26) do, and where SETA and MODINV refuse (O27). -/

namespace Sys2Proof.Machine

/-! ### The value of Solve (40_solver.md R143, R144) -/

/-- Two inverses of b in [0, n) are equal, because b is coprime to n. -/
theorem inverse_mod_unique {b n a a' : Nat} (hlt : a < n) (hlt' : a' < n) (h : b * a % n = 1) (h' : b * a' % n = 1) :
    a' = a := by
  have hone : b * a ≡ 1 [MOD n] := by simpa only [h] using (Nat.mod_modEq (b * a) n).symm
  have hcop : n.Coprime b := (Nat.coprime_of_mul_modEq_one a hone).symm
  have hprod : b * a' ≡ b * a [MOD n] := h'.trans h.symm
  exact (hprod.cancel_left_of_coprime hcop).eq_of_lt_of_lt hlt' hlt

/-- Only an odd number has an inverse modulo 2^k. -/
theorem odd_of_mul_mod_two_pow {b k a : Nat} (hk : 1 ≤ k) (h : b * a % 2 ^ k = 1) : b % 2 = 1 := by
  have hdvd : 2 ∣ 2 ^ k := dvd_pow_self 2 (by omega)
  have hodd : b * a % 2 = 1 := by rw [← Nat.mod_mod_of_dvd _ hdvd, h]
  exact Nat.odd_iff.1 (Nat.odd_mul.1 (Nat.odd_iff.2 hodd)).1

theorem solve_eq_none_iff {b k : Nat} (hk : 1 ≤ k) : solve b k = none ↔ b % 2 = 0 := by
  constructor
  · intro hnone
    by_contra hb
    obtain ⟨a, ha⟩ := solve_of_odd (b := b) (by omega) hk
    simp [hnone] at ha
  · intro heven
    refine Option.eq_none_iff_forall_ne_some.2 fun a ha => ?_
    have hodd := odd_of_mul_mod_two_pow hk (solve_eq_some ha).2
    omega

/-- Settles O23: Solve does not fail on an odd number, its self-check makes the value an inverse, and inverses are unique. -/
theorem solveReturnsTheUniqueInverse : Obligations.SolveReturnsTheUniqueInverse := by
  intro b k _ hodd hk _
  obtain ⟨a, ha⟩ := solve_of_odd hodd hk
  obtain ⟨hlt, hinv⟩ := solve_eq_some ha
  exact ⟨a, ha, hlt, hinv, fun _ hlt' hinv' => inverse_mod_unique hlt hlt' hinv hinv'⟩

/-- Settles O24: `solve_eq_none_iff`, and the self-check. -/
theorem solveFailsExactlyOnEven : Obligations.SolveFailsExactlyOnEven :=
  fun _ _ _ hk _ => ⟨solve_eq_none_iff hk, fun _ => solve_eq_some⟩

/-! ### The check of a constant (40_solver.md R150) -/

theorem checkConstant_of_large {c w : Nat} (h : 2 ^ w ≤ c) : checkConstant c w = .error .configError := if_pos h

theorem checkConstant_of_even {c w : Nat} (hlt : c < 2 ^ w) (heven : c % 2 = 0) :
    checkConstant c w = .error .invariantViolation := by
  rw [checkConstant, if_neg (by omega), if_pos heven]

/-! ### What the commands do -/

/-- An inverse modulo 2^k with k ≤ 64 fits a CSR. -/
theorem toNat_ofNat_of_lt_two_pow {a k : Nat} (ha : a < 2 ^ k) (hk : k ≤ 64) : (BitVec.ofNat 64 a).toNat = a := by
  rw [BitVec.toNat_ofNat, Nat.mod_eq_of_lt (ha.trans_le (Nat.pow_le_pow_right (by decide) hk))]

section
variable {s : State}

theorem exec_seta_wide (hew : cfgEW s.csr.cfg = .e64) : exec .seta s = .next (s.raise .configError 0 0) := if_pos hew

theorem exec_seta_refused {e : ErrCode} (hew : cfgEW s.csr.cfg ≠ .e64)
    (hck : checkConstant s.csr.aIn.toNat (cfgW s) = .error e) : exec .seta s = .next (s.raise e 0 0) := by
  rw [cfgW] at hck
  rw [exec, execSeta, if_neg hew, hck]

theorem exec_seta_commits {ainv : Nat} (hew : cfgEW s.csr.cfg ≠ .e64)
    (hck : checkConstant s.csr.aIn.toNat (cfgW s) = .ok ainv) :
    exec .seta s = .next (State.complete { s with
      csr := { s.csr with a := s.csr.aIn, ainv := BitVec.ofNat 64 ainv, aw := awOf (cfgEW s.csr.cfg) } }) := by
  rw [cfgW] at hck
  rw [exec, execSeta, if_neg hew, hck]

theorem exec_modinv_range (hk : s.csr.solvK.toNat < 1 ∨ 64 < s.csr.solvK.toNat) :
    exec .modinv s = .next (s.raise .configError 0 0) := if_pos hk

theorem exec_modinv_even (hk : 1 ≤ s.csr.solvK.toNat) (hk' : s.csr.solvK.toNat ≤ 64)
    (heven : s.csr.solvB.toNat % 2 = 0) : exec .modinv s = .next (s.raise .invariantViolation 0 0) := by
  rw [exec, execModinv, if_neg (by omega), if_pos heven]

theorem exec_modinv_odd {a : Nat} (hk : 1 ≤ s.csr.solvK.toNat) (hk' : s.csr.solvK.toNat ≤ 64)
    (hodd : s.csr.solvB.toNat % 2 = 1) (ha : solve s.csr.solvB.toNat s.csr.solvK.toNat = some a) :
    exec .modinv s = .next (State.complete { s with csr := { s.csr with solvA := BitVec.ofNat 64 a } }) := by
  rw [exec, execModinv, if_neg (by omega), if_neg (by omega), ha]

end

/-- Settles O22: NOP is completion. -/
theorem nopOnlyCompletes : Obligations.NopOnlyCompletes := fun _ => rfl

/-- Settles O25: an odd constant passes its check with its inverse, which fits AINV since 2w ≤ 64. -/
theorem setaCommitsThePair : Obligations.SetaCommitsThePair := by
  intro s hew hlt hodd
  obtain ⟨ainv, hck⟩ := checkConstant_of_odd hlt hodd
  obtain ⟨-, -, hfits, hinv⟩ := checkConstant_ok hck
  have hw : cfgW s ≤ 32 := bits_le_of_ne_e64 hew
  have hval := toNat_ofNat_of_lt_two_pow hfits (by omega)
  exact ⟨BitVec.ofNat 64 ainv, hval.symm ▸ hfits, hval.symm ▸ hinv, exec_seta_commits hew hck⟩

/-- Settles O26: Solve gives the inverse, which fits SOLV_A since k ≤ 64. -/
theorem modinvStoresTheInverse : Obligations.ModinvStoresTheInverse := by
  intro s hk hk' hodd
  obtain ⟨a, ha⟩ := solve_of_odd hodd hk
  obtain ⟨hfits, hinv⟩ := solve_eq_some ha
  have hval := toNat_ofNat_of_lt_two_pow hfits hk'
  exact ⟨BitVec.ofNat 64 a, hval.symm ▸ hfits, hval.symm ▸ hinv, exec_modinv_odd hk hk' hodd ha⟩

/-- Settles O27: the width and the size before the parity for SETA, the range before the parity for MODINV. -/
theorem solverCommandsRefuseInOrder : Obligations.SolverCommandsRefuseInOrder := by
  refine ⟨fun s hbad => ?_, fun s hew hlt heven => exec_seta_refused hew (checkConstant_of_even hlt heven),
    fun s hk => exec_modinv_range (by omega), fun s => exec_modinv_even⟩
  by_cases hew : cfgEW s.csr.cfg = .e64
  · exact exec_seta_wide hew
  · exact exec_seta_refused hew (checkConstant_of_large (hbad.resolve_left hew))

end Sys2Proof.Machine
end

section
/-! PROOFS (41_an_codec.md R170, R175 to R192). The start checks of the stream commands (O28), and the AN codec commands
where no access is refused: ENC (O35), DEC (O36), CHK (O37, O38), DECCHK (O39, O40) and REENC (O41, O42). -/

namespace Sys2Proof.Machine

/-! ### The start checks (41_an_codec.md R170, 43_hamming.md R230) -/

theorem startAN_of_not_ready {s : State} (h : ¬ AnReady s) (k : AnSetup → Host.Outcome State Fault Refusal) :
    s.startAN k = .next (s.raise .configError 0 0) := by
  have hnone : s.anSetup = none := by
    rwa [AnReady, not_and_or, not_and_or, not_not, Bool.not_eq_true, ← anSetup_eq_none] at h
  rw [State.startAN, hnone]

theorem startHam_of_other_width {s : State} (h16 : cfgEW s.csr.cfg ≠ .e16) (h32 : cfgEW s.csr.cfg ≠ .e32)
    (k : Nat → Host.Outcome State Fault Refusal) : s.startHam k = .next (s.raise .configError 0 0) := by
  obtain ⟨hw, -⟩ | ⟨hw, -⟩ | ⟨-, -, h⟩ := startHam_cases s k
  · exact absurd hw h16
  · exact absurd hw h32
  · exact h

/-- Every AN stream command begins with `StartAN()`. -/
theorem exec_an_of_not_ready {i : Instr} {s : State} (hi : i ∈ anCommands) (h : ¬ AnReady s) :
    exec i s = .next (s.raise .configError 0 0) := by
  simp only [anCommands, List.mem_cons, List.not_mem_nil, or_false] at hi
  obtain rfl | rfl | rfl | rfl | rfl | rfl | rfl | rfl | rfl := hi <;> exact startAN_of_not_ready h _

/-- HENC and HCHK begin with `StartHam()`. -/
theorem exec_hamming_of_other_width {s : State} (h16 : cfgEW s.csr.cfg ≠ .e16) (h32 : cfgEW s.csr.cfg ≠ .e32) :
    exec .henc s = .next (s.raise .configError 0 0) ∧ exec .hchk s = .next (s.raise .configError 0 0) := by
  rw [exec, execHenc, exec, execHchk, startHam_of_other_width h16 h32, startHam_of_other_width h16 h32]
  exact ⟨rfl, rfl⟩

theorem exec_arithDiv_by_zero {s : State} (h : AnReady s) (ho : operandAt s (cfgW s) = 0) :
    exec .arithDiv s = .next (s.raise .divideByZero 0 0) := by
  rw [exec, execArithDiv, startAN_of_ready h, arithOperand_eq]
  exact if_pos ho

/-- Settles O28: StartAN and StartHam refuse before anything else, and ARITH.DIV's zero check comes right after StartAN. -/
theorem startChecksRefuseFirst : Obligations.StartChecksRefuseFirst :=
  ⟨fun _ _ => exec_an_of_not_ready,
    fun _ => exec_hamming_of_other_width,
    fun _ => exec_arithDiv_by_zero⟩

/-! ### A copying command without a refused access -/

/-- The check of CHK, DECCHK and REENC is validity under the codec's layout and pair (41_an_codec.md R174). -/
theorem elemPasses_eq_validCode {s : State} {i : Instr} (h : i ∈ [.chk, .decchk, .reenc]) (e : Nat) :
    elemPasses s i e = validCode (cfgLayout s.csr.cfg) (cfgSgn s.csr.cfg) (BitVec.ofNat (2 * cfgW s) e) s.csr.a.toNat
      s.csr.ainv.toNat := if_pos h

section
variable {s u : State} {i : Instr} {ss ds n it j : Nat} {f : Params → Nat → Nat} {done : State → State}

/-- A command's last effects do not reach memory and forget where the sequencer stood. -/
theorem CopyCommand.done_eq_with_mem (h : CopyCommand s i ss ds f done) (m : Memory) (q : Seq) :
    done { s with mem := m, seq := q } = { done s with mem := m } := by
  obtain hd | ⟨-, ainv, -, hd⟩ := h.done_eq <;> rw [hd] <;> rfl

theorem CopyCommand.done_dst (h : CopyCommand s i ss ds f done) (u : State) : (done u).csr.dst = u.csr.dst := by
  obtain hd | ⟨-, ainv, -, hd⟩ := h.done_eq <;> rw [hd] <;> rfl

/-- Where the source is read unchanged by what the loop has written: always out of place, in place in the first pass. -/
theorem CopyAt_source_unchanged (h : CopyAt s ds s.csr.count.toNat (valueAfter s i ss ds) it j u)
    (hj : j < s.csr.count.toNat) (hit : it < s.csr.iter.toNat)
    (hb : BuffersDisjoint s ss ds ∨ (s.csr.src = s.csr.dst ∧ ss = ds ∧ s.csr.iter.toNat ≤ 1)) :
    u.mem.readLE (elemAddr s.csr.src.toNat j ss) ss = srcElem s ss j := by
  obtain hd | ⟨hsd, hsize, hone⟩ := hb
  · exact CopyAt_source h hj hd
  · obtain rfl : it = 0 := by omega
    exact CopyAt_source_firstPass h rfl hj (.inl ⟨hsd, hsize⟩) rfl

/-- A copying command all of whose accesses are admitted and all of whose elements pass writes every value and ends
without an error. -/
theorem CopyCommand.completes (h : CopyCommand s i ss ds f done) (hready : ReadsReady s ss) (hW : WritesReady s ds)
    (hb : BuffersDisjoint s ss ds ∨ (s.csr.src = s.csr.dst ∧ ss = ds ∧ s.csr.iter.toNat ≤ 1))
    (hok : ∀ j < s.csr.count.toNat, elemPasses s i (srcElem s ss j) = true) :
    ∃ t, exec i s = .next t ∧ WritesElems s (done s) t ds (passCount s) fun j => elemValue s i (srcElem s ss j) := by
  obtain ⟨hm, hr, hR⟩ := hready
  have hp : BuffersPass s ss ds := (hb.imp_right fun ⟨hsd, hsize, _⟩ => ⟨hsd, hsize⟩).symm
  obtain ⟨u, hu, hat⟩ := Flow_holds_running_iff.1 <| stream_holds (s := s)
    (body := copyBody ss ds (elemPasses s i) f) (CopyAt s ds s.csr.count.toNat (valueAfter s i ss ds))
    (CopyAt_start hm.1 fun _ _ => rfl)
    (fun it hit j hj u hat => by
      have hsrc := CopyAt_source_unchanged hat hj hit hb
      exact copyBody_writes hat hr hj (hR j hj) (hW j hj) (hsrc ▸ hok j hj) (hsrc ▸ h.value_srcElem j))
    fun _ _ _ hat => CopyAt_nextIter hat
  have hdone : done u = { done s with mem := u.mem } := hat.frame ▸ h.done_eq_with_mem _ _
  refine ⟨done u, by rw [h.exec_passing hp, hu]; rfl, by rw [hdone], fun j hj => ?_, fun a ha => ?_⟩
  · rw [passCount] at hj
    split at hj
    · omega
    · rename_i hne
      rw [hdone]
      show u.mem.readLE (elemAddr (done s).csr.dst.toNat j ds) ds = _
      rw [h.done_dst, hat.elems j hj, if_neg (Nat.not_lt_zero j)]
      exact if_neg hne
  · rw [hdone]
    exact hat.others a ha

/-- A copying command whose check refuses element n of iteration 0 first: the elements before it stay written, and
CORRUPTION_DETECTED(n, 0) ends it. -/
theorem CopyCommand.invalid (h : CopyCommand s i ss ds f done) (hm : s.mem.wf) (hr : s.raced = [])
    (hp : BuffersPass s ss ds) (hit : 0 < s.csr.iter.toNat) (hn : n < s.csr.count.toNat)
    (hR : ∀ j ≤ n, s.admits (elemAddr s.csr.src.toNat j ss) ss = true)
    (hW : ∀ j < n, s.admits (elemAddr s.csr.dst.toNat j ds) ds = true)
    (hok : ∀ j ≤ n, elemPasses s i (srcElem s ss j) = decide (j < n)) :
    ∃ t, exec i s = .next t ∧
      WritesElems s (s.raise .corruptionDetected n 0) t ds n fun j => elemValue s i (srcElem s ss j) := by
  have hsrc : ∀ j u, j < s.csr.count.toNat → CopyAt s ds s.csr.count.toNat (valueAfter s i ss ds) 0 j u →
      u.mem.readLE (elemAddr s.csr.src.toNat j ss) ss = srcElem s ss j :=
    fun j u hj hat => CopyAt_source_firstPass hat rfl hj hp rfl
  obtain ⟨u, hu, hat⟩ := stream_copy_invalid (ok := elemPasses s i) (f := f) (val := valueAfter s i ss ds) hm.1 hr hR hW
    (fun _ _ => rfl) hn hit
    (fun j u hj hat => by
      rw [hsrc j u (hj.trans hn) hat]
      exact ⟨(hok j hj.le).trans (decide_eq_true hj), h.value_srcElem j⟩)
    (fun u hat => by
      rw [hsrc n u hn hat, hok n le_rfl]
      exact decide_eq_false (Nat.lt_irrefl n))
  refine ⟨u.raiseHere .corruptionDetected, by rw [h.exec_passing hp, hu]; rfl, by rw [hat.frame]; rfl, fun j hj => ?_,
    fun a ha => hat.others a ha⟩
  show u.mem.readLE (elemAddr u.csr.dst.toNat j ds) ds = _
  rw [(CopyAt_shared hat).2.1, hat.elems j (hj.trans hn), if_pos hj]
  rfl

end

/-! ### ENC, DEC and DECCHK (41_an_codec.md R175, R182, R185) -/

/-- Settles O35: ENC is a copying command that checks no element. -/
theorem encWritesEveryCodeword : Obligations.EncWritesEveryCodeword := fun _ h hR hW hd =>
  (enc_copyCommand h).completes hR hW (.inl hd) fun _ _ => by rw [elemPasses_unchecked (by decide)]

/-- Settles O36: DEC is a copying command that checks no element. -/
theorem decWritesEveryRawValue : Obligations.DecWritesEveryRawValue := fun _ h hR hW hd =>
  (dec_copyCommand h).completes hR hW (.inl hd) fun _ _ => by rw [elemPasses_unchecked (by decide)]

/-- Settles O39: DECCHK is a copying command, and all its elements pass. -/
theorem decchkWritesValidBuffers : Obligations.DecchkWritesValidBuffers := fun _ h hR hW hd hvalid =>
  (decchk_copyCommand h).completes hR hW (.inl hd) fun j hj =>
    (elemPasses_eq_validCode (by decide) _).trans (hvalid j hj)

/-- Settles O40: DECCHK is a copying command whose check refuses element i first. -/
theorem decchkKeepsThePartialOutput : Obligations.DecchkKeepsThePartialOutput :=
  fun _ _ h hm hr hR hW hd hi hit hvalid =>
    (decchk_copyCommand h).invalid hm hr (.inr hd) hit hi hR hW fun j hj =>
      (elemPasses_eq_validCode (by decide) _).trans (hvalid j hj)

/-! ### CHK (41_an_codec.md R178) -/

section
variable {s : State}

/-- CHK of admitted elements that all pass moves nothing but the sequencer. -/
theorem chkStream_passes (hready : ReadsReady s (2 * cfgW s / 8))
    (hok : ∀ j < s.csr.count.toNat, elemPasses s .chk (srcElem s (2 * cfgW s / 8) j) = true) :
    s.stream (chkBody (readySetup s)) = .running { s with seq := ⟨s.csr.iter.toNat, 0, false⟩ } := by
  have hall : (s.stream (chkBody (readySetup s))).Holds (· = { s with seq := ⟨s.csr.iter.toNat, 0, false⟩ })
      fun _ => False := by
    refine stream_holds (fun it j u => u = { s with seq := ⟨it, j, false⟩ }) rfl (fun it _ j hj u hu => ?_) fun it _ u hu => ?_
    · subst hu
      have hpass : chkBody (readySetup s) { s with seq := ⟨it, j, false⟩ } = .running { s with seq := ⟨it, j, false⟩ } :=
        chkBody_passes hready.no_race (hready.reads j hj) (hok j hj)
      rw [hpass]
      rfl
    · rw [hu]
      rfl
  obtain ⟨u, hu, rfl⟩ := Flow_holds_running_iff.1 hall
  exact hu

/-- CHK at an admitted element that does not pass ends with CORRUPTION_DETECTED there. -/
theorem chkBody_invalid {u : State} (hr : u.raced = [])
    (ha : u.admits (elemAddr u.csr.src.toNat u.seq.i (2 * cfgW s / 8)) (2 * cfgW s / 8) = true)
    (hbad : elemPasses s .chk (u.mem.readLE (elemAddr u.csr.src.toNat u.seq.i (2 * cfgW s / 8)) (2 * cfgW s / 8)) = false) :
    chkBody (readySetup s) u = .ended (u.raiseHere .corruptionDetected) := by
  rw [elemPasses_checked (by decide)] at hbad
  rw [chkBody, encBytes_readySetup, loadElem_admitted hr ha]
  exact if_neg (Bool.not_eq_true _ ▸ hbad)

theorem chk_invalid {n : Nat} (h : AnReady s) (hr : s.raced = []) (hn : n < s.csr.count.toNat) (hit : 0 < s.csr.iter.toNat)
    (ha : ∀ j ≤ n, s.admits (elemAddr s.csr.src.toNat j (2 * cfgW s / 8)) (2 * cfgW s / 8) = true)
    (hok : ∀ j ≤ n, elemPasses s .chk (srcElem s (2 * cfgW s / 8) j) = decide (j < n)) :
    exec .chk s = .next (s.raise .corruptionDetected n 0) := by
  have hgo : ∀ j < n, chkBody (readySetup s) { s with seq := ⟨0, j, false⟩ } = .running { s with seq := ⟨0, j, false⟩ } :=
    fun j hj => chkBody_passes hr (ha j hj.le) ((hok j hj.le).trans (decide_eq_true hj))
  have hend : chkBody (readySetup s) { s with seq := ⟨0, n, false⟩ } = .ended (s.raise .corruptionDetected n 0) :=
    chkBody_invalid hr (ha n le_rfl) ((hok n le_rfl).trans (decide_eq_false (Nat.lt_irrefl n)))
  rw [exec_chk h, stream_ends_at hn hit hgo hend]
  rfl

end

/-- Settles O37: every element passes, so the loop moves nothing but the sequencer, which completion resets. -/
theorem chkPassesValidBuffers : Obligations.ChkPassesValidBuffers := by
  intro s h hready hvalid
  rw [exec_chk h, chkStream_passes hready fun j hj => (elemPasses_eq_validCode (by decide) _).trans (hvalid j hj)]
  rfl

/-- Settles O38: the elements before i pass, and element i does not. -/
theorem chkStopsAtTheFirstInvalid : Obligations.ChkStopsAtTheFirstInvalid := fun _ _ h _ hr hi hit ha hvalid =>
  chk_invalid h hr hi hit ha fun j hj => (elemPasses_eq_validCode (by decide) _).trans (hvalid j hj)

/-! ### REENC (41_an_codec.md R190 to R192) -/

section
variable {s : State}

theorem exec_reenc_refused {e : ErrCode} (h : AnReady s) (hck : checkConstant s.csr.aIn.toNat (cfgW s) = .error e) :
    exec .reenc s = .next (s.raise e 0 0) := by
  have hck' : checkConstant s.csr.aIn.toNat (readySetup s).w = .error e := hck
  rw [exec, execReenc, startAN_of_ready h, hck']

/-- The committed pair and its width, as R192 keeps them. -/
def SameCode (s t : State) : Prop := t.csr.a = s.csr.a ∧ t.csr.ainv = s.csr.ainv ∧ t.csr.aw = s.csr.aw

theorem sameCode_raise (s : State) (e : ErrCode) (i it : Nat) : SameCode s (s.raise e i it) := ⟨rfl, rfl, rfl⟩

/-- A copying loop writes no CSR but the report of the error that ends it. -/
theorem copyStream_sameCode (ss ds : Nat) (ok : Nat → Bool) (f : Params → Nat → Nat) :
    (s.stream (copyBody ss ds ok f)).Holds (fun u => u.csr = s.csr) (SameCode s) := by
  have hraise : ∀ (u : State) (e : ErrCode), u.csr = s.csr → SameCode s (u.raiseHere e) := fun u e hu => by
    rw [SameCode, ← hu]
    exact ⟨rfl, rfl, rfl⟩
  refine stream_keeps _ rfl (fun u hu => ?_) (fun _ hu => hu) fun _ hu => hu
  refine loadElem_holds (fun _ => ?_) fun _ => hraise _ _ hu
  split
  · exact storeElem_holds (fun _ => hu) fun _ => hraise _ _ hu
  · exact hraise _ _ hu

/-- REENC's commit comes after its loop alone, which then has reported no error. -/
theorem execReenc_sameCode (herr : s.csr.err = .none) :
    Yields (execReenc s) fun t => t.csr.err ≠ .none → SameCode s t := by
  refine startAN_yields (fun c _ => ?_) fun _ => sameCode_raise ..
  split
  · exact yields_next.2 fun _ => sameCode_raise ..
  · rw [reencBody_eq_copyBody]
    refine overlapCheck_yields (outcome_yields (Flow_holds_mono (copyStream_sameCode ..) (fun _ hu => hu)
      fun _ ht _ => ht) fun u hu herr' => ?_) fun _ => sameCode_raise ..
    exact absurd ((congrArg Csrs.err hu).trans herr) herr'

end

/-- Settles O41: an odd constant passes its check with its inverse, which fits AINV since 2w ≤ 64; then REENC is a copying
command all of whose elements pass. -/
theorem reencRewritesAndCommits : Obligations.ReencRewritesAndCommits := by
  intro s h hR hW hb hlt hodd hvalid
  obtain ⟨ainv, hck⟩ := checkConstant_of_odd hlt hodd
  obtain ⟨-, -, hfits, hinv⟩ := checkConstant_ok hck
  have hw : cfgW s ≤ 32 := bits_le_of_ne_e64 h.1
  have hval := toNat_ofNat_of_lt_two_pow hfits (by omega)
  obtain ⟨t, ht, hwrites⟩ := (reenc_copyCommand h hck).completes hR hW (hb.imp_right fun ⟨hsd, hone⟩ => ⟨hsd, rfl, hone⟩)
    fun j hj => (elemPasses_eq_validCode (by decide) _).trans (hvalid j hj)
  exact ⟨t, BitVec.ofNat 64 ainv, ht, hval.symm ▸ hfits, hval.symm ▸ hinv, hwrites⟩

/-- Settles O42: the checks of A_IN refuse first, the commit comes after a loop without error, and an invalid element ends
the loop there. -/
theorem reencFailureKeepsTheCode : Obligations.ReencFailureKeepsTheCode := by
  refine ⟨fun s h hlarge => exec_reenc_refused h (checkConstant_of_large hlarge),
    fun s h hlt heven => exec_reenc_refused h (checkConstant_of_even hlt heven),
    fun s t herr ht => yields_of_next (execReenc_sameCode herr) ht,
    fun s i h hm hr hR hW hb hlt hodd hi hit hvalid => ?_⟩
  obtain ⟨ainv, hck⟩ := checkConstant_of_odd hlt hodd
  exact (reenc_copyCommand h hck).invalid hm hr (hb.symm.imp_left fun hsd => ⟨hsd, rfl⟩) hit hi hR hW fun j hj =>
    (elemPasses_eq_validCode (by decide) _).trans (hvalid j hj)

end Sys2Proof.Machine
end

section
/-! PROOFS (00_scope.md R10, 41_an_codec.md R172 to R183). The AN code's values: decode inverts encode (O31), encoded values
are exact products and valid (O32), the inverse policy accepts exactly the codewords (O33), and for odd A > 1 every single-bit
flip of one is detected (O34). -/

namespace Sys2Proof.Machine

/-! ### The numbers that n bits stand for (00_scope.md R10) -/

/-- z is the number of an n-bit pattern. -/
def InNumRange (sg : Sgn) (n : Nat) (z : Int) : Prop :=
  match sg with
  | .signed => -2 ^ (n - 1) ≤ z ∧ z < 2 ^ (n - 1)
  | .unsigned => 0 ≤ z ∧ z < 2 ^ n

theorem num_inNumRange (sg : Sgn) {n : Nat} (x : BitVec n) : InNumRange sg n (num sg x) := by
  cases sg with
  | signed => exact ⟨x.le_toInt, x.toInt_lt⟩
  | unsigned =>
    have hlt : (x.toNat : Int) < 2 ^ n := by exact_mod_cast x.isLt
    exact ⟨Int.natCast_nonneg _, hlt⟩

@[simp] theorem ofInt_num (sg : Sgn) {n : Nat} (x : BitVec n) : BitVec.ofInt n (num sg x) = x := by
  cases sg with
  | signed => exact BitVec.ofInt_toInt
  | unsigned => rw [num, BitVec.ofInt_natCast, BitVec.ofNat_toNat, BitVec.setWidth_eq]

theorem num_ofInt {sg : Sgn} {n : Nat} {z : Int} (hn : 0 < n) (hz : InNumRange sg n z) : num sg (BitVec.ofInt n z) = z := by
  cases sg with
  | signed => exact BitVec.toInt_ofInt_eq_self hn hz.1 hz.2
  | unsigned =>
    rw [num, BitVec.toNat_ofInt, Nat.cast_pow, Nat.cast_ofNat, Int.emod_eq_of_lt hz.1 hz.2, Int.toNat_of_nonneg hz.1]

theorem num_ext (sg : Sgn) {n m : Nat} (h : n ≤ m) (x : BitVec n) : num sg (ext sg m x) = num sg x := by
  cases sg with
  | signed => exact BitVec.toInt_signExtend_of_le h
  | unsigned => exact congrArg Nat.cast (BitVec.toNat_setWidth_of_le h)

/-- Widening keeps the pattern's number. -/
theorem ext_eq_ofInt_num (sg : Sgn) {n m : Nat} (h : n ≤ m) (x : BitVec n) : ext sg m x = BitVec.ofInt m (num sg x) := by
  rw [← num_ext sg h, ofInt_num]

/-- Cutting a widened pattern back gives the pattern. -/
theorem setWidth_ext (sg : Sgn) {n m : Nat} (h : n ≤ m) (x : BitVec n) : (ext sg m x).setWidth n = x := by
  cases sg with
  | signed =>
    ext i hi
    rw [ext, BitVec.getElem_setWidth, BitVec.getLsbD_signExtend, decide_eq_true (hi.trans_le h), if_pos hi, Bool.true_and,
      BitVec.getLsbD_eq_getElem hi]
  | unsigned => rw [ext, BitVec.setWidth_setWidth_of_le _ h, BitVec.setWidth_eq]

/-- The patterns whose number is one of n bits are the widened patterns of n bits. -/
theorem inNumRange_num_iff {sg : Sgn} {n m : Nat} (hn : 0 < n) (h : n ≤ m) {d : BitVec m} :
    InNumRange sg n (num sg d) ↔ ∃ r : BitVec n, d = ext sg m r := by
  constructor
  · intro hd
    refine ⟨BitVec.ofInt n (num sg d), ?_⟩
    rw [ext_eq_ofInt_num sg h, num_ofInt hn hd, ofInt_num]
  · rintro ⟨r, rfl⟩
    rw [num_ext sg h]
    exact num_inNumRange sg r

/-- The product of a w-bit number and a constant below 2^w fits 2w bits (41_an_codec.md R172). -/
theorem mul_inNumRange {sg : Sgn} {w a : Nat} (hw : 0 < w) (ha : a < 2 ^ w) {z : Int} (hz : InNumRange sg w z) :
    InNumRange sg (2 * w) (z * a) := by
  have hpow : (a : Int) < 2 ^ w := by exact_mod_cast ha
  have ha0 : (0 : Int) ≤ a := Int.natCast_nonneg a
  cases sg with
  | signed =>
    have hsplit : (2 : Int) ^ (2 * w - 1) = 2 ^ (w - 1) * 2 ^ w := by
      rw [← pow_add]
      congr 1
      omega
    have hhalf : (0 : Int) < 2 ^ (w - 1) := by positivity
    obtain ⟨hlo, hhi⟩ := hz
    constructor <;> rw [hsplit] <;> nlinarith
  | unsigned =>
    obtain ⟨hlo, hhi⟩ := hz
    have hsplit : (2 : Int) ^ (2 * w) = 2 ^ w * 2 ^ w := by rw [← pow_add, two_mul]
    constructor
    · positivity
    · rw [hsplit]
      exact mul_lt_mul'' hhi hpow hlo ha0

/-! ### A constant and its inverse modulo 2^m (41_an_codec.md R183) -/

section
variable {sg : Sgn} {w a ainv : Nat}

theorem ofNat_mul_inverse {m : Nat} (h : a * ainv % 2 ^ m = 1 % 2 ^ m) : BitVec.ofNat m a * BitVec.ofNat m ainv = 1#m := by
  rw [← BitVec.ofNat_mul]
  exact BitVec.eq_of_toNat_eq h

/-- A pattern times the inverse is the widened raw value exactly if the pattern is its encoding. -/
theorem mul_inverse_eq_ext_iff (h : a * ainv % 2 ^ (2 * w) = 1 % 2 ^ (2 * w)) {e : BitVec (2 * w)} {r : BitVec w} :
    e * BitVec.ofNat (2 * w) ainv = ext sg (2 * w) r ↔ e = encodeVal sg r a := by
  have hinv := ofNat_mul_inverse h
  constructor
  · intro he
    rw [encodeVal, ← he, BitVec.mul_assoc, BitVec.mul_comm (BitVec.ofNat _ ainv), hinv, BitVec.mul_one]
  · rintro rfl
    rw [encodeVal, BitVec.mul_assoc, hinv, BitVec.mul_one]

end

/-- Settles O31: an encoding times the inverse is the widened raw value, which cutting gives back. -/
theorem decodeInvertsEncode : Obligations.DecodeInvertsEncode := by
  intro sg w r a ainv h
  rw [decodeVal, (mul_inverse_eq_ext_iff h).2 rfl, setWidth_ext sg (by omega)]

/-! ### The two check policies (41_an_codec.md R174, R179, R180) -/

section
variable {layout : Layout} {sg : Sgn} {w a ainv : Nat} {e : BitVec (2 * w)}

theorem one_mod_two_pow (hw : 0 < w) : 1 % 2 ^ (2 * w) = 1 := Nat.mod_eq_of_lt (Nat.one_lt_two_pow (by omega))

/-- No product overflows (41_an_codec.md R172). -/
theorem num_encodeVal (r : BitVec w) (hw : 0 < w) (ha : a < 2 ^ w) : num sg (encodeVal sg r a) = num sg r * a := by
  rw [encodeVal, ext_eq_ofInt_num sg (by omega), ← BitVec.ofInt_natCast, ← BitVec.ofInt_mul]
  exact num_ofInt (by omega) (mul_inNumRange hw ha (num_inNumRange sg r))

/-- The divmod policy asks that A divide the number. -/
theorem validCode_divmod_iff : validCode .divmod sg e a ainv = true ↔ (a : Int) ∣ num sg e := by
  rw [validCode, beq_iff_eq, Int.dvd_iff_tmod_eq_zero]

/-- The inverse policy asks that the product by the inverse be the number of a raw value. -/
theorem validCode_inverse_iff_inNumRange :
    validCode .inverse sg e a ainv = true ↔ InNumRange sg w (num sg (e * BitVec.ofNat (2 * w) ainv)) := by
  cases sg with
  | signed =>
    simp only [validCode, InNumRange, num, decide_eq_true_eq, Int.le_sub_one_iff]
  | unsigned =>
    simp only [validCode, InNumRange, num, decide_eq_true_eq, Int.natCast_nonneg, true_and]
    rw [Nat.le_sub_one_iff_lt (Nat.two_pow_pos w)]
    exact_mod_cast Iff.rfl

theorem validCode_inverse_iff (hw : 0 < w) (h : a * ainv % 2 ^ (2 * w) = 1) :
    validCode .inverse sg e a ainv = true ↔ ∃ r : BitVec w, e = encodeVal sg r a := by
  rw [validCode_inverse_iff_inNumRange, inNumRange_num_iff hw (by omega)]
  exact exists_congr fun r => mul_inverse_eq_ext_iff (h.trans (one_mod_two_pow hw).symm)

theorem validCode_divmod_encodeVal (r : BitVec w) (hw : 0 < w) (ha : a < 2 ^ w) :
    validCode .divmod sg (encodeVal sg r a) a ainv = true := by
  rw [validCode_divmod_iff, num_encodeVal r hw ha]
  exact dvd_mul_left ..

theorem validCode_encodeVal (r : BitVec w) (hw : 0 < w) (ha : a < 2 ^ w) (h : a * ainv % 2 ^ (2 * w) = 1) :
    validCode layout sg (encodeVal sg r a) a ainv = true := by
  cases layout with
  | inverse => exact (validCode_inverse_iff hw h).2 ⟨r, rfl⟩
  | divmod => exact validCode_divmod_encodeVal r hw ha

/-- A divides the number of every pattern that either policy accepts. -/
theorem dvd_num_of_validCode (hw : 0 < w) (ha : a < 2 ^ w) (h : a * ainv % 2 ^ (2 * w) = 1)
    (hv : validCode layout sg e a ainv = true) : (a : Int) ∣ num sg e := by
  cases layout with
  | inverse =>
    obtain ⟨r, rfl⟩ := (validCode_inverse_iff hw h).1 hv
    exact validCode_divmod_iff.1 (validCode_divmod_encodeVal (ainv := ainv) r hw ha)
  | divmod => exact validCode_divmod_iff.1 hv

end

/-- Settles O32: the product stays in the range of 2w bits, and both policies accept it. -/
theorem encodedValuesAreValid : Obligations.EncodedValuesAreValid := fun _ _ r _ hw ha =>
  ⟨num_encodeVal r hw ha, fun _ _ => validCode_encodeVal r hw ha⟩

/-- Settles O33: `validCode_inverse_iff`, and A divides every encoded value. -/
theorem inverseCheckAcceptsExactlyCodewords : Obligations.InverseCheckAcceptsExactlyCodewords := fun _ _ _ _ _ hw ha h =>
  ⟨validCode_inverse_iff hw h, fun hv => validCode_divmod_iff.2 (dvd_num_of_validCode hw ha h hv)⟩

/-! ### Single-bit flips (41_an_codec.md R179(c)) -/

section
variable {n j : Nat}

/-- Setting a clear bit adds its weight to the unsigned value. -/
theorem toNat_xor_twoPow_of_clear {x : BitVec n} (hj : j < n) (hx : x.getLsbD j = false) :
    (x ^^^ BitVec.twoPow n j).toNat = x.toNat + 2 ^ j := by
  have hand : x &&& BitVec.twoPow n j = 0#n := by rw [BitVec.and_twoPow, hx]; rfl
  have hxor : x ^^^ BitVec.twoPow n j = x + BitVec.twoPow n j := by
    rw [BitVec.add_eq_or_of_and_eq_zero _ _ hand]
    ext i hi
    by_cases hij : i = j
    · subst hij
      simp [← BitVec.getLsbD_eq_getElem, hx]
    · simp [BitVec.getElem_twoPow, hij]
  rw [hxor, BitVec.toNat_add_of_and_eq_zero hand, BitVec.toNat_twoPow_of_lt hj]

/-- Setting a clear bit changes the number by the bit's weight, which is negative for the sign bit. -/
theorem num_xor_twoPow_of_clear (sg : Sgn) {x : BitVec n} (hj : j < n) (hx : x.getLsbD j = false) :
    |num sg (x ^^^ BitVec.twoPow n j) - num sg x| = 2 ^ j := by
  have hnat := toNat_xor_twoPow_of_clear hj hx
  rw [abs_eq (by positivity)]
  cases sg with
  | unsigned =>
    left
    simp [num, hnat]
  | signed =>
    simp only [num, BitVec.toInt_eq_msb_cond, hnat, BitVec.msb_xor, BitVec.msb_twoPow, decide_eq_true hj, Bool.true_and]
    push_cast
    by_cases htop : j = n - 1
    · have hmsb : x.msb = false := by rw [BitVec.msb_eq_getLsbD_last, ← htop, hx]
      have hpow : (2 : Int) ^ n = 2 * 2 ^ j := by rw [← pow_succ', htop, Nat.sub_add_cancel (by omega)]
      right
      rw [decide_eq_true htop, hmsb, hpow]
      simp only [Bool.false_xor, if_true, Bool.false_eq_true, if_false]
      ring
    · left
      rw [decide_eq_false htop, Bool.xor_false]
      split <;> ring

/-- A flip of bit j changes the number by 2^j, up or down. -/
theorem num_xor_twoPow (sg : Sgn) (x : BitVec n) (hj : j < n) :
    |num sg (x ^^^ BitVec.twoPow n j) - num sg x| = 2 ^ j := by
  cases hx : x.getLsbD j with
  | false => exact num_xor_twoPow_of_clear sg hj hx
  | true =>
    have hclear : (x ^^^ BitVec.twoPow n j).getLsbD j = false := by simp [hx, hj]
    have hback := num_xor_twoPow_of_clear sg hj hclear
    rwa [BitVec.xor_assoc, BitVec.xor_self, BitVec.xor_zero, abs_sub_comm] at hback

theorem ofNat_two_pow (n j : Nat) : BitVec.ofNat n (2 ^ j) = BitVec.twoPow n j :=
  BitVec.eq_of_toNat_eq (by rw [BitVec.toNat_ofNat, BitVec.toNat_twoPow])

end

/-- An odd number that divides two numbers 2^j apart is 1. -/
theorem eq_one_of_dvd_of_apart {a j : Nat} {x y : Int} (hodd : a % 2 = 1) (hx : (a : Int) ∣ x) (hy : (a : Int) ∣ y)
    (hxy : |y - x| = 2 ^ j) : a = 1 := by
  have hdvd : (a : Int) ∣ 2 ^ j := hxy ▸ (dvd_abs ..).2 (dvd_sub hy hx)
  have hcop : a.Coprime (2 ^ j) := (Nat.coprime_two_right.2 (Nat.odd_iff.2 hodd)).pow_right j
  exact hcop.eq_one_of_dvd (by exact_mod_cast hdvd)

/-- Settles O34: either policy would have A divide the number before and after the flip, hence a power of 2. -/
theorem singleBitFlipsAreDetected : Obligations.SingleBitFlipsAreDetected := by
  intro layout sg w e a ainv j hw hone hlt hodd hinv hj hv
  rw [ofNat_two_pow, ← Bool.not_eq_true]
  intro hv'
  have ha := eq_one_of_dvd_of_apart hodd (dvd_num_of_validCode hw hlt hinv hv) (dvd_num_of_validCode hw hlt hinv hv')
    (num_xor_twoPow sg e hj)
  omega

end Sys2Proof.Machine
end

section
/-! PROOFS (42_an_arith.md R211 to R218). The ARITH commands write their element functions (O43); on multiples of A those act as
the raw operations on the factors (O45), and exact division gives the encoded quotient (O46). -/

namespace Sys2Proof.Machine

/-- Settles O43: the ARITH commands are copying commands that check no element, and their value is `arithSpec`. -/
theorem arithWritesItsFunction : Obligations.ArithWritesItsFunction := by
  intro i s hi h hdiv hR hW hd
  rw [← elemValue_arith hi]
  exact (arith_copyCommand hi h hdiv).completes hR hW (.inl hd) fun _ _ => by rw [elemPasses_unchecked (arith_unchecked hi)]

/-! ### Integers modulo 2^n -/

theorem ofInt_eq_ofInt_iff {n : Nat} {z z' : Int} : BitVec.ofInt n z = BitVec.ofInt n z' ↔ (2 : Int) ^ n ∣ z - z' := by
  rw [← BitVec.toInt_inj, BitVec.toInt_ofInt, BitVec.toInt_ofInt, Int.bmod_eq_bmod_iff_bmod_sub_eq_zero,
    ← Int.dvd_iff_bmod_eq_zero, Nat.cast_pow, Nat.cast_ofNat]

theorem ofInt_sub (n : Nat) (x y : Int) : BitVec.ofInt n (x - y) = BitVec.ofInt n x - BitVec.ofInt n y := by
  rw [Int.sub_eq_add_neg, BitVec.ofInt_add, BitVec.ofInt_neg, BitVec.sub_eq_add_neg]

theorem setWidth_ofInt {n m : Nat} (h : n ≤ m) (z : Int) : (BitVec.ofInt m z).setWidth n = BitVec.ofInt n z := by
  have hm : (2 : Int) ^ m ∣ num .unsigned (BitVec.ofInt m z) - z := ofInt_eq_ofInt_iff.1 (ofInt_num ..)
  rw [← BitVec.ofNat_toNat, ← BitVec.ofInt_natCast]
  exact ofInt_eq_ofInt_iff.2 ((pow_dvd_pow 2 h).trans hm)

theorem abs_num_lt {w : Nat} (hw : 0 < w) (sg : Sgn) (x : BitVec w) : |num sg x| < 2 ^ w := by
  have hhalf : (2 : Int) ^ w = 2 * 2 ^ (w - 1) := by rw [← pow_succ', Nat.sub_add_cancel hw]
  have hpos : (0 : Int) < 2 ^ (w - 1) := by positivity
  have hx := num_inNumRange sg x
  rw [abs_lt]
  cases sg with
  | signed =>
    obtain ⟨hlo, hhi⟩ := hx
    omega
  | unsigned =>
    obtain ⟨hlo, hhi⟩ := hx
    omega

theorem num_ne_zero (sg : Sgn) {w : Nat} {x : BitVec w} (h : x ≠ 0) : num sg x ≠ 0 := by
  intro hx
  rw [← ofInt_num sg x, hx] at h
  exact h rfl

/-! ### Multiples of A modulo 2^m (41_an_codec.md R172 to R174) -/

section
variable {sg : Sgn} {w a ainv : Nat} {x o : BitVec w} {z : Int}

/-- The pattern of z · A in m = 2w bits, whether or not z is the number of a raw value. -/
def multiple (w a : Nat) (z : Int) : BitVec (2 * w) := BitVec.ofInt (2 * w) (z * a)

/-- z is so small that no number of a raw value agrees with it modulo 2^m unless it is z. -/
def SmallFactor (w : Nat) (z : Int) : Prop := |z| + 2 ^ w ≤ 2 ^ (2 * w)

theorem encodeVal_eq_multiple (sg : Sgn) (r : BitVec w) (a : Nat) : encodeVal sg r a = multiple w a (num sg r) := by
  rw [encodeVal, ext_eq_ofInt_num sg (by omega), multiple, BitVec.ofInt_mul, BitVec.ofInt_natCast]

theorem multiple_mul_inverse (h : a * ainv % 2 ^ (2 * w) = 1 % 2 ^ (2 * w)) (z : Int) :
    multiple w a z * BitVec.ofNat (2 * w) ainv = BitVec.ofInt (2 * w) z := by
  rw [multiple, BitVec.ofInt_mul, BitVec.ofInt_natCast, BitVec.mul_assoc, ofNat_mul_inverse h, BitVec.mul_one]

theorem decodeVal_multiple (h : a * ainv % 2 ^ (2 * w) = 1 % 2 ^ (2 * w)) (z : Int) :
    decodeVal (multiple w a z) ainv = BitVec.ofInt w z := by
  rw [decodeVal, multiple_mul_inverse h, setWidth_ofInt (by omega)]

theorem validCode_inverse_multiple (hw : 0 < w) (h : a * ainv % 2 ^ (2 * w) = 1 % 2 ^ (2 * w)) (hz : SmallFactor w z) :
    validCode .inverse sg (multiple w a z) a ainv = true ↔ ∃ r : BitVec w, num sg r = z := by
  rw [validCode_inverse_iff_inNumRange, multiple_mul_inverse h, inNumRange_num_iff hw (by omega)]
  refine exists_congr fun r => ?_
  rw [ext_eq_ofInt_num sg (by omega), ofInt_eq_ofInt_iff, eq_comm, ← sub_eq_zero (a := z)]
  have hlt : |z - num sg r| < 2 ^ (2 * w) := calc
    |z - num sg r| ≤ |z| + |num sg r| := abs_sub ..
    _ < |z| + 2 ^ w := by gcongr; exact abs_num_lt hw sg r
    _ ≤ 2 ^ (2 * w) := hz
  exact ⟨fun hdvd => Int.eq_zero_of_abs_lt_dvd hdvd hlt, fun h0 => h0 ▸ dvd_zero _⟩

/-! ### The element functions on multiples of A (42_an_arith.md R212) -/

theorem arithAddVal_multiple (y : BitVec w) (z : Int) :
    arithAddVal sg a y (multiple w a z) = multiple w a (z + num sg y) := by
  have hadd : arithAddVal sg a y (multiple w a z) = multiple w a z + encodeVal sg y a := rfl
  rw [hadd, encodeVal_eq_multiple, multiple, multiple, multiple, ← BitVec.ofInt_add, add_mul]

theorem arithSubVal_multiple (y : BitVec w) (z : Int) :
    arithSubVal sg a y (multiple w a z) = multiple w a (z - num sg y) := by
  have hsub : arithSubVal sg a y (multiple w a z) = multiple w a z - encodeVal sg y a := rfl
  rw [hsub, encodeVal_eq_multiple, multiple, multiple, multiple, ← ofInt_sub, sub_mul]

theorem arithMulVal_multiple (y : BitVec w) (z : Int) :
    arithMulVal sg y (multiple w a z) = multiple w a (z * num sg y) := by
  rw [arithMulVal, ext_eq_ofInt_num sg (by omega), multiple, ← BitVec.ofInt_mul, multiple, mul_right_comm]

theorem divPattern_eq_ofInt_tdiv {n k : Nat} (x : BitVec n) (y : BitVec k) :
    divPattern sg x y = BitVec.ofInt n ((num sg x).tdiv (num sg y)) := by
  cases sg <;> rfl

/-- The encoding's number is exactly x · A, so a divisor of x divides it exactly. -/
theorem arithDivVal_encodeVal (hw : 0 < w) (ha : a < 2 ^ w) (ho : o ≠ 0) (hx : num sg x = z * num sg o) :
    arithDivVal sg o (encodeVal sg x a) = multiple w a z := by
  rw [arithDivVal, divPattern_eq_ofInt_tdiv, num_encodeVal x hw ha, hx, mul_right_comm,
    Int.mul_tdiv_cancel _ (num_ne_zero sg ho), multiple]

/-! ### The exact results of the raw operations are small -/

theorem smallFactor_of_abs_le (hw : 0 < w) (hz : |z| ≤ 2 * (2 ^ w - 1)) : SmallFactor w z := by
  have hpow : (2 : Int) ≤ 2 ^ w := le_self_pow₀ (by decide) hw.ne'
  rw [SmallFactor, two_mul, pow_add]
  nlinarith

theorem smallFactor_add (hw : 0 < w) (x y : BitVec w) : SmallFactor w (num sg x + num sg y) := by
  have hx := abs_num_lt hw sg x
  have hy := abs_num_lt hw sg y
  have hsum := abs_add_le (num sg x) (num sg y)
  exact smallFactor_of_abs_le hw (by omega)

theorem smallFactor_sub (hw : 0 < w) (x y : BitVec w) : SmallFactor w (num sg x - num sg y) := by
  have hx := abs_num_lt hw sg x
  have hy := abs_num_lt hw sg y
  have hdiff := abs_sub (num sg x) (num sg y)
  exact smallFactor_of_abs_le hw (by omega)

theorem smallFactor_neg (hw : 0 < w) (x : BitVec w) : SmallFactor w (-num sg x) := by
  have hx := abs_num_lt hw sg x
  have hnonneg := abs_nonneg (num sg x)
  exact smallFactor_of_abs_le hw (by rw [abs_neg]; omega)

theorem smallFactor_mul (hw : 0 < w) (x y : BitVec w) : SmallFactor w (num sg x * num sg y) := by
  have hx := Int.le_sub_one_of_lt (abs_num_lt hw sg x)
  have hy := Int.le_sub_one_of_lt (abs_num_lt hw sg y)
  have hprod : |num sg x| * |num sg y| ≤ (2 ^ w - 1) * (2 ^ w - 1) :=
    mul_le_mul hx hy (abs_nonneg _) ((abs_nonneg _).trans hx)
  have hpos : (0 : Int) < 2 ^ w := by positivity
  rw [SmallFactor, abs_mul, two_mul, pow_add]
  nlinarith

/-- The number of the least raw value has no opposite among the raw values. -/
theorem neg_num_intMin_not_raw (hw : 0 < w) : ¬ ∃ r : BitVec w, num .signed r = -num .signed (BitVec.intMin w) := by
  rintro ⟨r, hr⟩
  have hlt : num .signed r < 2 ^ (w - 1) := BitVec.toInt_lt
  rw [hr, num, BitVec.toInt_intMin_of_pos hw, neg_neg] at hlt
  exact lt_irrefl _ hlt

theorem num_intMin_eq_neg_mul_num_allOnes (hw : 0 < w) :
    num .signed (BitVec.intMin w) = -num .signed (BitVec.intMin w) * num .signed (BitVec.allOnes w) := by
  have hone : num .signed (BitVec.allOnes w) = -1 := BitVec.toInt_allOnes.trans (if_pos hw)
  rw [hone, neg_mul_neg, mul_one]

end

/-- Settles O45: each function gives the multiple whose factor is the exact result, and that factor is small. -/
theorem arithIsAHomomorphism : Obligations.ArithIsAHomomorphism := by
  intro sg w x y a ainv hw _ hinv
  have h : a * ainv % 2 ^ (2 * w) = 1 % 2 ^ (2 * w) := hinv.trans (one_mod_two_pow hw).symm
  rw [encodeVal_eq_multiple, arithAddVal_multiple, arithSubVal_multiple, arithMulVal_multiple]
  refine ⟨⟨?_, ?_, ?_⟩, validCode_inverse_multiple hw h (smallFactor_add hw x y),
    validCode_inverse_multiple hw h (smallFactor_sub hw x y), validCode_inverse_multiple hw h (smallFactor_mul hw x y)⟩
  · rw [decodeVal_multiple h, BitVec.ofInt_add, ofInt_num, ofInt_num]
  · rw [decodeVal_multiple h, ofInt_sub, ofInt_num, ofInt_num]
  · rw [decodeVal_multiple h, BitVec.ofInt_mul, ofInt_num, ofInt_num]

/-- Settles O46: an exact quotient is the factor of the result; −2^(w−1) by −1 has the factor 2^(w−1), which is small and
above every signed raw value's number. -/
theorem exactDivisionEncodesTheQuotient : Obligations.ExactDivisionEncodesTheQuotient := by
  refine ⟨fun sg w x o q a hw _ ha ho hx => ?_, fun w a ainv hw1 ha hinv => ?_⟩
  · rw [arithDivVal_encodeVal hw ha ho hx, encodeVal_eq_multiple]
  · have hw : 0 < w := Nat.zero_lt_of_lt hw1
    have h : a * ainv % 2 ^ (2 * w) = 1 % 2 ^ (2 * w) := hinv.trans (one_mod_two_pow hw).symm
    have ho : BitVec.allOnes w ≠ 0 := fun h0 => hw.ne' (BitVec.allOnes_eq_zero_iff.1 h0)
    rw [arithDivVal_encodeVal hw ha ho (num_intMin_eq_neg_mul_num_allOnes hw)]
    constructor
    · rw [decodeVal_multiple h, BitVec.ofInt_neg, ofInt_num, BitVec.neg_intMin]
    · rw [← Bool.not_eq_true, validCode_inverse_multiple hw h (smallFactor_neg hw _)]
      exact neg_num_intMin_not_raw hw

end Sys2Proof.Machine
end

section
/-! PROOFS (43_hamming.md R230 to R241). HENC is a copying command (O47); HCHK is a scan that collects the mismatching
records, to its end (O48) or to a refused read (O49). -/

namespace Sys2Proof.Machine

/-- Settles O47: HENC is a copying command that checks no element, and its value is the record. -/
theorem hencWritesEveryRecord : Obligations.HencWritesEveryRecord := by
  intro s w h hR hW hd
  obtain rfl := cfgW_of_hamReady h
  exact (henc_copyCommand h).completes hR hW (.inl hd) fun _ _ => by rw [elemPasses_unchecked (by decide)]

/-! ### The scan of HCHK (43_hamming.md R240, R241) -/

/-- The mismatching ones of the first n records. -/
def mismatches (s : State) (w n : Nat) : List Nat := (List.range n).filter (recordMismatch s w)

/-- The mismatches HCHK meets, in order, before record i of iteration it. -/
def mismatchesBefore (s : State) (w it i : Nat) : List Nat :=
  (List.replicate it (mismatches s w s.csr.count.toNat)).flatten ++ mismatches s w i

/-- s inside HCHK's loop at record i of iteration it, the mismatches m met so far: HMCOUNT counts them all, and the first is
the reported location, in iteration 0. -/
def State.scanned (s : State) (m : List Nat) (it i : Nat) : State :=
  { s with
    csr :=
      { s.csr with
        hmcount := s.csr.hmcount + BitVec.ofNat 64 m.length
        failIndex := (m.head?.map (BitVec.ofNat 64)).getD s.csr.failIndex
        failIter := if m.isEmpty then s.csr.failIter else 0 }
    seq := ⟨it, i, !m.isEmpty⟩ }

section
variable {s : State} {w it i n : Nat} {m : List Nat}

@[simp] theorem mismatches_zero : mismatches s w 0 = [] := rfl

theorem head?_mismatches : (mismatches s w n).head? = (List.range n).find? (recordMismatch s w) := List.head?_filter ..

theorem mismatches_succ : mismatches s w (i + 1) = mismatches s w i ++ [i].filter (recordMismatch s w) := by
  rw [mismatches, List.range_succ, List.filter_append, mismatches]

theorem mem_mismatches : i ∈ mismatches s w n ↔ i < n ∧ recordMismatch s w i = true := by
  rw [mismatches, List.mem_filter, List.mem_range]

theorem mismatchesBefore_firstPass : mismatchesBefore s w 0 i = mismatches s w i := rfl

theorem mismatchesBefore_succ :
    mismatchesBefore s w it (i + 1) = mismatchesBefore s w it i ++ [i].filter (recordMismatch s w) := by
  rw [mismatchesBefore, mismatches_succ, ← List.append_assoc, mismatchesBefore]

theorem mismatchesBefore_nextIter : mismatchesBefore s w (it + 1) 0 = mismatchesBefore s w it s.csr.count.toNat := by
  rw [mismatchesBefore, mismatchesBefore, List.replicate_succ', List.flatten_append]
  simp

/-- A mismatch is met in iteration 0 first. -/
theorem firstPass_of_first_mismatch (hi : i < s.csr.count.toNat) (hbad : recordMismatch s w i = true)
    (hm : mismatchesBefore s w it i = []) : it = 0 := by
  by_contra hit
  have hmem : i ∈ mismatchesBefore s w it i := List.mem_append_left _ <|
    List.mem_flatten_of_mem (List.mem_replicate.2 ⟨hit, rfl⟩) (mem_mismatches.2 ⟨hi, hbad⟩)
  simp [hm] at hmem

theorem scanned_start : { s with seq := Seq.idle } = s.scanned [] 0 0 := by simp [State.scanned, Seq.idle]

/-- Noting a mismatch appends it to those met; the first one has to be of iteration 0. -/
theorem noteMismatch_scanned (hfirst : m = [] → it = 0) :
    (s.scanned m it i).noteMismatch = s.scanned (m ++ [i]) it i := by
  cases m with
  | nil => simp [State.noteMismatch, State.scanned, hfirst rfl]
  | cons j m => simp [State.noteMismatch, State.scanned, BitVec.ofNat_add, BitVec.add_assoc]

theorem recordMismatch_iff : recordMismatch s w i = true ↔
    recordCode w (srcElem s (2 * (w / 8)) i) ≠ hamCode s.params (BitVec.ofNat w (srcElem s (2 * (w / 8)) i)) := bne_iff_ne

/-- One turn of the loop at an admitted record notes it if it mismatches. -/
theorem hchkBody_admitted {u : State} (hr : u.raced = [])
    (ha : u.admits (elemAddr u.csr.src.toNat u.seq.i (2 * (w / 8))) (2 * (w / 8)) = true) :
    hchkBody w u = .running (if recordMismatch u w u.seq.i then u.noteMismatch else u) := by
  rw [hchkBody, loadElem_admitted hr ha]
  by_cases hbad : recordMismatch u w u.seq.i = true
  · rw [if_pos hbad]
    exact if_neg (recordMismatch_iff.1 hbad)
  · rw [if_neg hbad]
    exact if_pos (not_not.1 (mt recordMismatch_iff.2 hbad))

/-- One turn of the scan at an admitted record: it joins the mismatches if it is one. -/
theorem hchkBody_scanned (hr : s.raced = []) (hi : i < s.csr.count.toNat)
    (ha : s.admits (elemAddr s.csr.src.toNat i (2 * (w / 8))) (2 * (w / 8)) = true) :
    hchkBody w (s.scanned (mismatchesBefore s w it i) it i) = .running (s.scanned (mismatchesBefore s w it (i + 1)) it i) := by
  rw [hchkBody_admitted (u := s.scanned _ it i) hr ha, mismatchesBefore_succ]
  change Flow.running (if recordMismatch s w i then _ else _) = _
  cases hbad : recordMismatch s w i with
  | false => simp [hbad]
  | true => simp [hbad, noteMismatch_scanned (firstPass_of_first_mismatch hi hbad)]

/-- The scan of admitted records runs to its end. -/
theorem hchkStream_scans (hready : ReadsReady s (2 * (w / 8))) :
    s.stream (hchkBody w) = .running (s.scanned (mismatchesBefore s w s.csr.iter.toNat 0) s.csr.iter.toNat 0) := by
  have hall : (s.stream (hchkBody w)).Holds (· = s.scanned (mismatchesBefore s w s.csr.iter.toNat 0) s.csr.iter.toNat 0)
      fun _ => False := by
    refine stream_holds (fun it i u => u = s.scanned (mismatchesBefore s w it i) it i) scanned_start
      (fun it _ i hi u hu => ?_) fun it _ u hu => ?_
    · rw [hu, hchkBody_scanned hready.no_race hi (hready.reads i hi)]
      rfl
    · rw [hu, mismatchesBefore_nextIter]
      rfl
  obtain ⟨u, hu, rfl⟩ := Flow_holds_running_iff.1 hall
  exact hu

/-- The scan that reaches a refused record in iteration 0 ends there, with the mismatches before it noted. -/
theorem hchkStream_refused (hr : s.raced = []) (hi : i < s.csr.count.toNat) (hit : 0 < s.csr.iter.toNat)
    (ha : ∀ j ≤ i, s.admits (elemAddr s.csr.src.toNat j (2 * (w / 8))) (2 * (w / 8)) = decide (j < i)) :
    s.stream (hchkBody w) = .ended ((s.scanned (mismatches s w i) 0 i).raiseHere .busError) := by
  have hall : (s.stream (hchkBody w)).Holds (fun _ => False)
      (· = (s.scanned (mismatches s w i) 0 i).raiseHere .busError) := by
    refine Flow_holds_mono (stream_holds
      (fun it j u => it = 0 ∧ j ≤ i ∧ u = s.scanned (mismatchesBefore s w it j) it j) ⟨rfl, Nat.zero_le _, scanned_start⟩
      (fun it _ j hj u hu => ?_) fun it _ u hu => by omega) (fun u hu => by omega) fun _ hu => hu
    obtain ⟨rfl, hji, rfl⟩ := hu
    rcases Nat.lt_or_eq_of_le hji with hlt | rfl
    · rw [hchkBody_scanned hr hj ((ha j hji).trans (decide_eq_true hlt))]
      exact ⟨rfl, hlt, rfl⟩
    · have hend : hchkBody w (s.scanned (mismatches s w j) 0 j) =
          .ended ((s.scanned (mismatches s w j) 0 j).raiseHere .busError) :=
        loadElem_refused ((ha j le_rfl).trans (decide_eq_false (Nat.lt_irrefl j)))
      rw [mismatchesBefore_firstPass, hend]
      rfl
  obtain ⟨u, hu, rfl⟩ := Flow_holds_ended_iff.1 hall
  exact hu

theorem length_mismatchesBefore_end :
    (mismatchesBefore s w it 0).length = it * (mismatches s w s.csr.count.toNat).length := by
  simp [mismatchesBefore]

/-- The first mismatch met is the first mismatching record, if a record is scanned at all. -/
theorem head?_mismatchesBefore_end :
    (mismatchesBefore s w s.csr.iter.toNat 0).head? = (List.range (passCount s)).find? (recordMismatch s w) := by
  rw [← head?_mismatches, passCount]
  cases s.csr.iter.toNat with
  | zero => simp [mismatchesBefore]
  | succ it => cases hm : mismatches s w s.csr.count.toNat <;> simp [mismatchesBefore, List.replicate_succ, hm]

theorem finishHchk_scanned_nil : (s.scanned [] it i).finishHchk = s.complete := by
  simp [State.scanned, State.finishHchk, State.complete, Csrs.complete]

end

/-- Settles O48: the scan ends with the mismatches of all iterations; without one the state is as before, else the first is
reported. -/
theorem hchkCountsEveryMismatch : Obligations.HchkCountsEveryMismatch := by
  intro s w h hready
  have hlen := length_mismatchesBefore_end (s := s) (w := w) (it := s.csr.iter.toNat)
  rw [exec_hchk h, hchkStream_scans hready, ← head?_mismatchesBefore_end]
  cases hm : mismatchesBefore s w s.csr.iter.toNat 0 with
  | nil => exact congrArg Host.Outcome.next finishHchk_scanned_nil
  | cons i m =>
    rw [hm] at hlen
    rw [← mismatches, ← hlen]
    rfl

/-- Settles O49: the scan ends at the refused record, and BUS_ERROR's location replaces the one noted. -/
theorem hchkBusErrorKeepsTheCount : Obligations.HchkBusErrorKeepsTheCount := by
  intro s w i h hr hi hit ha
  rw [exec_hchk h, hchkStream_refused hr hi hit ha]
  rfl

end Sys2Proof.Machine
end

section
/-! PROOFS (43_hamming.md R231 to R233, R242). The Hamming code itself: its bits are parities (O51), and a single flip of a
record's data or code byte changes one side of the comparison only (O50). -/

namespace Sys2Proof.Machine

/-! ### Parities of bit counts -/

section
variable {n j : Nat}

theorem popcount_eq_countP (x : BitVec n) : popcount x = (List.range n).countP x.getLsbD := List.countP_eq_length_filter.symm

theorem countP_xor_mod_two (p q : Nat → Bool) (l : List Nat) :
    l.countP (fun i => p i ^^ q i) % 2 = (l.countP p + l.countP q) % 2 := by
  induction l with
  | nil => rfl
  | cons i l ih =>
    simp only [List.countP_cons]
    cases p i <;> cases q i <;> simp <;> omega

theorem popcount_xor_mod_two (x y : BitVec n) : popcount (x ^^^ y) % 2 = (popcount x + popcount y) % 2 := by
  simp only [popcount_eq_countP, ← countP_xor_mod_two]
  exact congrArg (List.countP · _ % 2) (funext fun i => BitVec.getLsbD_xor ..)

theorem popcount_twoPow (hj : j < n) : popcount (BitVec.twoPow n j) = 1 := by
  have hbit : (BitVec.twoPow n j).getLsbD = (· == j) := by
    funext i
    simp [BitVec.getLsbD_twoPow, hj, eq_comm, Bool.beq_eq_decide_eq]
  rw [popcount_eq_countP, hbit, ← List.count_eq_countP, List.count_range, if_pos hj]

/-- Bit 0 of an even number can be filled in without a carry. -/
theorem two_mul_add_bit {q b : Nat} (hb : b < 2) : 2 * q + b = 2 * q ^^^ b := by
  obtain rfl | rfl : b = 0 ∨ b = 1 := by omega
  · rw [Nat.xor_zero, Nat.add_zero]
  · exact (Nat.xor_one_of_even (even_two_mul q)).symm

theorem popcount_fill_bit0_mod_two {q b : Nat} (hb : b < 2) :
    popcount (BitVec.ofNat 8 (2 * q + b)) % 2 = (popcount (BitVec.ofNat 8 (2 * q)) + b) % 2 := by
  have hbit : popcount (BitVec.ofNat 8 b) = b := by
    obtain rfl | rfl : b = 0 ∨ b = 1 := by omega
    · decide
    · decide
  rw [two_mul_add_bit hb, BitVec.ofNat_xor, popcount_xor_mod_two, hbit]

end

/-! ### The bits of the code (43_hamming.md R231, R233) -/

section
variable (p : Params) {w : Nat} (d : BitVec w)

theorem hamMasks_length (w : Nat) : (hamMasks p w).length = if w = 16 then 5 else 6 := by
  unfold hamMasks
  split <;> simp

theorem maskParities_bit {masks : List (BitVec w)} {k : Nat} {mk : BitVec w} (h : masks[k]? = some mk) :
    maskParities d masks / 2 ^ k % 2 = parity (d &&& mk) := by
  induction masks generalizing k with
  | nil => simp at h
  | cons m rest ih =>
    have hm : parity (d &&& m) < 2 := Nat.mod_lt _ (by decide)
    rw [maskParities]
    cases k with
    | zero =>
      obtain rfl : m = mk := by simpa using h
      omega
    | succ k =>
      rw [Nat.pow_succ', ← Nat.div_div_eq_div_mul, Nat.add_mul_div_left _ _ (by decide), Nat.div_eq_of_lt hm, Nat.zero_add]
      exact ih (by simpa using h)

theorem hamCode_bounds : 2 * maskParities d (hamMasks p w) ≤ hamCode p d ∧
    hamCode p d < 2 * maskParities d (hamMasks p w) + 2 := by
  unfold hamCode
  dsimp only
  omega

theorem hamCode_lt_two_pow : hamCode p d < 2 ^ ((hamMasks p w).length + 1) := by
  have hbound := hamCode_bounds p d
  have hmasks := maskParities_lt d (hamMasks p w)
  rw [Nat.pow_succ]
  omega

theorem hamCode_bit {k : Nat} {mk : BitVec w} (h : (hamMasks p w)[k]? = some mk) :
    hamCode p d / 2 ^ (k + 1) % 2 = parity (d &&& mk) := by
  have hbound := hamCode_bounds p d
  have hhalf : hamCode p d / 2 = maskParities d (hamMasks p w) := by omega
  rw [Nat.pow_succ', ← Nat.div_div_eq_div_mul, hhalf, maskParities_bit d h]

/-- Data and code together have even parity: bit 0 makes it so. -/
theorem hamCode_even_parity : (popcount d + popcount (BitVec.ofNat 8 (hamCode p d))) % 2 = 0 := by
  have hfill := popcount_fill_bit0_mod_two (q := maskParities d (hamMasks p w))
    (Nat.mod_lt (popcount d + popcount (BitVec.ofNat 8 (2 * maskParities d (hamMasks p w)))) (by decide))
  rw [hamCode]
  omega

end

/-- Settles O51: a mask's bit by its place in the list of masks, bit 0 by the even parity it gives. -/
theorem codeBitsAreMaskParities : Obligations.CodeBitsAreMaskParities := fun p w d _ =>
  ⟨fun _ _ => hamCode_bit p d, hamCode_lt_two_pow p d, hamMasks_length p w, hamCode_even_parity p d⟩

/-! ### Single flips of a record (43_hamming.md R240, R242) -/

section
variable (p : Params) {w j : Nat} (d : BitVec w)

/-- A flipped data bit changes the parity of the data, which the code would have to follow. -/
theorem hamCode_flip_ne (hj : j < w) : hamCode p (d ^^^ BitVec.twoPow w j) ≠ hamCode p d := by
  intro heq
  have hflip := hamCode_even_parity p (d ^^^ BitVec.twoPow w j)
  have hdata := popcount_xor_mod_two d (BitVec.twoPow w j)
  rw [heq] at hflip
  rw [popcount_twoPow hj] at hdata
  have heven := hamCode_even_parity p d
  omega

theorem recordCode_hamRecord (hw : 7 ≤ w) : recordCode w (hamRecord p d) = hamCode p d := by
  have hcode : hamCode p d < 2 ^ 8 := (hamCode_lt p d).trans (by decide)
  rw [recordCode, (hamRecord_eq p hw d).1, Nat.add_mul_div_left _ _ (Nat.two_pow_pos w), Nat.div_eq_of_lt d.isLt,
    Nat.zero_add, Nat.mod_eq_of_lt hcode]

theorem ofNat_hamRecord (hw : 7 ≤ w) : BitVec.ofNat w (hamRecord p d) = d := by
  rw [(hamRecord_eq p hw d).1]
  exact BitVec.eq_of_toNat_eq (by rw [BitVec.toNat_ofNat, Nat.add_mul_mod_self_left, Nat.mod_eq_of_lt d.isLt])

end

section
variable (w rec : Nat)

/-- Flipping bit j of the code byte flips bit j of the code and no bit of the data. -/
theorem recordCode_flip {j : Nat} (hj : j < 8) : recordCode w (rec ^^^ 2 ^ (w + j)) = recordCode w rec ^^^ 2 ^ j := by
  have hbit : 2 ^ (w + j) / 2 ^ w = 2 ^ j := by rw [Nat.pow_add, Nat.mul_div_cancel_left _ (Nat.two_pow_pos w)]
  rw [recordCode, recordCode, Nat.xor_div_two_pow, hbit, Nat.xor_mod_two_pow,
    Nat.mod_eq_of_lt (Nat.pow_lt_pow_right (by decide) hj)]

theorem ofNat_flip_above (j : Nat) : BitVec.ofNat w (rec ^^^ 2 ^ (w + j)) = BitVec.ofNat w rec := by
  have hbit : BitVec.ofNat w (2 ^ (w + j)) = 0#w := BitVec.eq_of_toNat_eq (by simp [Nat.pow_add])
  rw [BitVec.ofNat_xor, hbit, BitVec.xor_zero]

/-- The padding is above the code byte. -/
theorem recordCode_add_padding (pad : Nat) : recordCode w (rec + pad * 2 ^ (w + 8)) = recordCode w rec := by
  have hpad : pad * 2 ^ (w + 8) = pad * 2 ^ 8 * 2 ^ w := by rw [Nat.pow_add, Nat.mul_assoc, Nat.mul_comm (2 ^ w)]
  rw [recordCode, hpad, Nat.add_mul_div_right _ _ (Nat.two_pow_pos w), Nat.add_mul_mod_self_right, recordCode]

theorem ofNat_add_padding (pad : Nat) : BitVec.ofNat w (rec + pad * 2 ^ (w + 8)) = BitVec.ofNat w rec := by
  apply BitVec.eq_of_toNat_eq
  rw [BitVec.toNat_ofNat, BitVec.toNat_ofNat, Nat.pow_add, Nat.mul_left_comm, Nat.add_mul_mod_self_left]

end

/-- Settles O50: a data flip breaks the even parity, a flip in the code byte changes the stored code alone. -/
theorem hammingDetectsSingleFlips : Obligations.HammingDetectsSingleFlips := by
  intro p w d hw
  have hw7 : 7 ≤ w := by omega
  refine ⟨?_, fun j hj => ?_, fun j hj => ?_, fun pad => ⟨recordCode_add_padding .., ofNat_add_padding ..⟩⟩
  · rw [ofNat_hamRecord p d hw7, recordCode_hamRecord p d hw7]
  · rw [ofNat_two_pow]
    exact hamCode_flip_ne p d hj
  · rw [recordCode_flip w _ hj, ofNat_flip_above, ofNat_hamRecord p d hw7, recordCode_hamRecord p d hw7]
    simp

end Sys2Proof.Machine
end

section
/-! PROOFS (44_simd.md R260 to R264). The vector layer: the state a vector instruction ends in, the values it takes registers
apart into and packs them from; VLD and VST (O53, O54). -/

namespace Sys2Proof.Machine

/-! ### The state a vector instruction ends in (44_simd.md R260) -/

/-- s with the reads of the given registers on record (notes/assumptions/6.md). -/
def State.noted (s : State) (reads : List VNum) : State := { s with vregFault := faultAfter s reads }

/-- s completed, the given registers read and the VLEN bits of x in v[vd]. -/
def State.withResult (s : State) (reads : List VNum) (vd : VNum) (x : VWord) : State :=
  ((s.noted reads).writeV vd x).complete

section
variable (s : State) (reads : List VNum) (vd vs1 vs2 : VNum) (x : VWord) (ew : EW)

@[simp] theorem noted_nil : s.noted [] = s := by simp [State.noted]

theorem noteRead_eq_noted : s.noteRead vs1 = s.noted [vs1] := by
  rw [noteRead_frame, noteRead_vregFault, State.noted]

theorem noteRead_noteRead_eq_noted : (s.noteRead vs1).noteRead vs2 = s.noted [vs1, vs2] := by
  rw [noteRead_frame, noteRead_noteRead_vregFault, noteRead_frame s, State.noted]

@[simp] theorem withResult_get_same : (s.withResult reads vd x).vregs.get vd = ⟨truncVLen s.params x, true⟩ :=
  writeV_get_same ..

@[simp] theorem vval_withResult : vval (s.withResult reads vd x) vd = truncVLen s.params x := by
  rw [vval, withResult_get_same]

theorem withResult_writesOnlyV : WritesOnlyV s (s.withResult reads vd x) reads vd :=
  ⟨rfl, fun _ hr => writeV_get_ne _ x hr, by rw [withResult_get_same], by rw [withResult_get_same, truncVLen_truncVLen]⟩

theorem lanewise2_eq (f : (n : Nat) → BitVec n → BitVec n → BitVec n) : lanewise2 f vd vs1 vs2 ew s =
    .next (s.withResult [vs1, vs2] vd
      (packLanes (List.zipWith (f ew.bits) (s.lanes ew (vval s vs1)) (s.lanes ew (vval s vs2))))) := by
  rw [State.withResult, ← noteRead_noteRead_eq_noted]
  rfl

theorem fromLanes_eq (f : (n : Nat) → List (BitVec n) → VWord) :
    fromLanes f vd vs1 ew s = .next (s.withResult [vs1] vd (f ew.bits (s.lanes ew (vval s vs1)))) := by
  rw [State.withResult, ← noteRead_eq_noted]
  rfl

end

/-! ### Values and lanes (00_scope.md R12, 10_state.md R54) -/

theorem lane_eq_ofNat (x : VWord) (n j : Nat) : lane x n j = BitVec.ofNat n (x.toNat / 2 ^ (j * n)) := by
  apply BitVec.eq_of_toNat_eq
  rw [lane, BitVec.extractLsb'_toNat, Nat.shiftRight_eq_div_pow, BitVec.toNat_ofNat]

/-- A value that fits VLEN bits is written whole. -/
theorem truncVLen_of_lt {p : Params} {x : VWord} (h : x.toNat < 2 ^ p.vlen.bits) : truncVLen p x = x := by
  apply BitVec.eq_of_toNat_eq
  rw [truncVLen, BitVec.toNat_setWidth_of_le (vlen_bits_le p), BitVec.toNat_setWidth, Nat.mod_eq_of_lt h]

theorem eight_mul_vlen_bytes (p : Params) : 8 * (p.vlen.bits / 8) = p.vlen.bits := by
  rcases p.vlen <;> rfl

/-! ### VLD and VST (44_simd.md R262, R263) -/

section
variable {s : State} {vr : VNum} {imm : BitVec 16}

theorem exec_vld_admitted (hr : s.raced = []) (ha : s.admits (effAddr s.csr.vbase imm) (s.params.vlen.bits / 8) = true) :
    exec (.vld vr imm) s = .next (s.withResult [] vr
      (BitVec.ofNat 512 (s.mem.readLE (effAddr s.csr.vbase imm) (s.params.vlen.bits / 8)))) := by
  rw [exec, execVld, if_pos ha, State_memRead_of_no_race hr, State.withResult, noted_nil]

theorem exec_vld_refused (ha : s.admits (effAddr s.csr.vbase imm) (s.params.vlen.bits / 8) = false) :
    exec (.vld vr imm) s = .next (s.raise .busError 0 0) := by
  rw [exec, execVld, ha]
  rfl

theorem exec_vst_admitted (hr : s.raced = []) (ha : s.admits (effAddr s.csr.vbase imm) (s.params.vlen.bits / 8) = true) :
    exec (.vst vr imm) s = .next { s.complete with
      mem := s.mem.writeLE (effAddr s.csr.vbase imm) (s.params.vlen.bits / 8) (vval s vr).toNat
      vregFault := faultAfter s [vr] } := by
  rw [exec, execVst, withV_eq, noteRead_eq_noted, State_memWrite_of_no_race (s := s.noted [vr]) hr]
  exact if_pos ha

theorem exec_vst_refused (ha : s.admits (effAddr s.csr.vbase imm) (s.params.vlen.bits / 8) = false) :
    exec (.vst vr imm) s = .next ((s.noted [vr]).raise .busError 0 0) := by
  rw [exec, execVst, withV_eq, noteRead_eq_noted]
  exact if_neg (ne_true_of_eq_false ha)

/-- The value VLD loads fits VLEN bits, and its lane b of 8 bits is byte b of the access. -/
theorem lane_truncVLen_loaded (p : Params) (m : Memory) (a : Nat) {b : Nat} (hb : b < p.vlen.bits / 8) :
    lane (truncVLen p (BitVec.ofNat 512 (m.readLE a (p.vlen.bits / 8)))) 8 b = m.readByte (a + b) := by
  have hlt := Memory_readLE_lt m a (p.vlen.bits / 8)
  rw [eight_mul_vlen_bytes] at hlt
  have hval : (BitVec.ofNat 512 (m.readLE a (p.vlen.bits / 8))).toNat = m.readLE a (p.vlen.bits / 8) := by
    rw [BitVec.toNat_ofNat, Nat.mod_eq_of_lt (hlt.trans_le (Nat.pow_le_pow_right (by decide) (vlen_bits_le p)))]
  rw [truncVLen_of_lt (by rwa [hval]), lane_eq_ofNat, hval, Nat.mul_comm, Memory_readLE_byte m hb]

end

/-- Settles O53: the loaded value's byte lanes are the bytes read. -/
theorem vldLoadsTheBytes : Obligations.VldLoadsTheBytes := fun s _ _ hr =>
  ⟨fun ha => ⟨_, exec_vld_admitted hr ha, withResult_writesOnlyV .., fun b hb => by
    rw [vval_withResult]
    exact lane_truncVLen_loaded s.params s.mem _ hb⟩, exec_vld_refused⟩

/-- Settles O54: a little-endian write puts byte lane b of the register at the b-th address. -/
theorem vstStoresTheBytes : Obligations.VstStoresTheBytes := by
  intro s vr imm hr hm
  refine ⟨fun ha => ⟨_, exec_vst_admitted hr ha, rfl, fun b hb => ?_, fun a hout => ?_⟩, exec_vst_refused⟩
  · rw [lane_eq_ofNat, Nat.mul_comm]
    exact Memory_readByte_writeLE_inside hm.1 _ hb
  · exact Memory_readByte_writeLE_outside _ _ (inRange_eq_false.1 hout)

end Sys2Proof.Machine
end

section
/-! PROOFS (44_simd.md R264 to R277). The lane-wise instructions: arithmetic (O55), comparisons (O56), and division, which
looks for a zero lane first (O57). -/

namespace Sys2Proof.Machine

/-! ### Lane by lane -/

/-- Every lane of the result by its value, for a lane-wise instruction. -/
theorem lanewise2_lanes {s : State} {vd vs1 vs2 : VNum} {ew : EW} {f : (n : Nat) → BitVec n → BitVec n → BitVec n}
    {g : BitVec ew.bits → BitVec ew.bits → BitVec ew.bits} (hfg : ∀ a b, f ew.bits a b = g a b) :
    ∃ t, lanewise2 f vd vs1 vs2 ew s = .next t ∧ WritesOnlyV s t [vs1, vs2] vd ∧ ∀ j < laneCount s.params ew,
      lane (vval t vd) ew.bits j = g (lane (vval s vs1) ew.bits j) (lane (vval s vs2) ew.bits j) := by
  refine ⟨_, lanewise2_eq .., withResult_writesOnlyV .., fun j hj => ?_⟩
  rw [vval_withResult, lane_lanewise s f ew _ _ hj, hfg]

/-- Settles O55: the lane functions are the exact results modulo 2^ew, the least and the greatest. -/
theorem vectorArithmeticLanes : Obligations.VectorArithmeticLanes := by
  intro s vd vs1 vs2 ew sg i f hi
  simp only [List.mem_cons, Prod.mk.injEq, List.not_mem_nil, or_false] at hi
  obtain ⟨rfl, hf⟩ | ⟨rfl, hf⟩ | ⟨rfl, hf⟩ | ⟨rfl, hf⟩ | ⟨rfl, hf⟩ := hi
  · rw [exec, execVadd]
    exact lanewise2_lanes fun a b => by simp [hf, BitVec.ofNat_add]
  · rw [exec, execVsub]
    exact lanewise2_lanes fun a b => by simp [hf, ofInt_sub]
  · rw [exec, execVmullo]
    exact lanewise2_lanes fun a b => by simp [hf, BitVec.ofNat_mul]
  · rw [exec, execVmin]
    exact lanewise2_lanes fun _ _ => by rw [hf]
  · rw [exec, execVmax]
    exact lanewise2_lanes fun _ _ => by rw [hf]

/-! ### Comparisons (44_simd.md R271) -/

theorem num_inj {sg : Sgn} {n : Nat} {a b : BitVec n} : num sg a = num sg b ↔ a = b :=
  ⟨fun h => by rw [← ofInt_num sg a, h, ofInt_num], congrArg _⟩

theorem toNat_maskLane (n : Nat) (b : Bool) : (maskLane n b).toNat = if b then 2 ^ n - 1 else 0 := by
  cases b with
  | true => exact BitVec.toNat_allOnes
  | false => rfl

/-- Every lane of a comparison whose condition says how the lanes' numbers are related. -/
theorem compare_lanes {s : State} {vd vs1 vs2 : VNum} {ew : EW} {sg : Sgn} {c : (n : Nat) → BitVec n → BitVec n → Bool}
    {rel : Int → Int → Bool} (hc : ∀ a b : BitVec ew.bits, c ew.bits a b = rel (num sg a) (num sg b)) :
    ∃ t, lanewise2 (fun n a b => maskLane n (c n a b)) vd vs1 vs2 ew s = .next t ∧ WritesOnlyV s t [vs1, vs2] vd ∧
      ∀ j < laneCount s.params ew, (lane (vval t vd) ew.bits j).toNat =
        if rel (num sg (lane (vval s vs1) ew.bits j)) (num sg (lane (vval s vs2) ew.bits j)) then 2 ^ ew.bits - 1
        else 0 := by
  obtain ⟨t, ht, hw, hlane⟩ := lanewise2_lanes (s := s) (vd := vd) (vs1 := vs1) (vs2 := vs2)
    (f := fun n a b => maskLane n (c n a b)) fun a b => congrArg (maskLane ew.bits) (hc a b)
  exact ⟨t, ht, hw, fun j hj => by rw [hlane j hj, toNat_maskLane]⟩

/-- Settles O56: equality of patterns is equality of their numbers; the other conditions are on the numbers already. -/
theorem vectorCompareLanes : Obligations.VectorCompareLanes := by
  intro s vd vs1 vs2 ew sg i rel hi
  simp only [List.mem_cons, Prod.mk.injEq, List.not_mem_nil, or_false] at hi
  obtain ⟨rfl, hrel⟩ | ⟨rfl, hrel⟩ | ⟨rfl, hrel⟩ | ⟨rfl, hrel⟩ | ⟨rfl, hrel⟩ | ⟨rfl, hrel⟩ := hi
  · rw [exec, execVcmpLt]
    exact compare_lanes fun _ _ => by rw [hrel]
  · rw [exec, execVcmpLe]
    exact compare_lanes fun _ _ => by rw [hrel]
  · rw [exec, execVcmpEq]
    exact compare_lanes fun _ _ => hrel ▸ decide_eq_decide.2 num_inj.symm
  · rw [exec, execVcmpNe]
    exact compare_lanes fun _ _ => hrel ▸ decide_eq_decide.2 num_inj.symm.not
  · rw [exec, execVcmpGe]
    exact compare_lanes fun _ _ => by rw [hrel]
  · rw [exec, execVcmpGt]
    exact compare_lanes fun _ _ => by rw [hrel]

/-! ### Division (44_simd.md R268) -/

theorem firstZeroLane_eq_findIdx? {n : Nat} (xs : List (BitVec n)) : firstZeroLane xs = xs.findIdx? (· = 0#n) := by
  induction xs with
  | nil => rfl
  | cons x xs ih => simp [firstZeroLane, List.findIdx?_cons, ih]

section
variable (s : State) (ew : EW) (x : VWord)

theorem mem_lanes_iff {y : BitVec ew.bits} : y ∈ s.lanes ew x ↔ ∃ j < laneCount s.params ew, lane x ew.bits j = y := by
  simp [State.lanes, lanes]

theorem firstZeroLane_lanes_eq_none (h : ∀ j < laneCount s.params ew, lane x ew.bits j ≠ 0) :
    firstZeroLane (s.lanes ew x) = none := by
  rw [firstZeroLane_eq_findIdx?, List.findIdx?_eq_none_iff]
  intro y hy
  obtain ⟨j, hj, rfl⟩ := (mem_lanes_iff s ew x).1 hy
  exact decide_eq_false (h j hj)

theorem firstZeroLane_lanes_eq_some {j : Nat} (hj : j < laneCount s.params ew) (h0 : lane x ew.bits j = 0)
    (hlow : ∀ k < j, lane x ew.bits k ≠ 0) : firstZeroLane (s.lanes ew x) = some j := by
  rw [firstZeroLane_eq_findIdx?, List.findIdx?_eq_some_iff_getElem]
  refine ⟨by rwa [State_lanes_length], ?_, fun k hk => ?_⟩
  · simpa [State_lanes_getElem] using h0
  · simpa [State_lanes_getElem] using hlow k hk

variable {s ew} {sg : Sgn} {vd vs1 vs2 : VNum}

theorem exec_vdiv_no_zero (h : firstZeroLane (s.lanes ew (vval s vs2)) = none) :
    exec (.vdiv vd vs1 vs2 ew sg) s = lanewise2 (fun _ => divPattern sg) vd vs1 vs2 ew s := by
  have hfind : firstZeroLane ((s.noted [vs1, vs2]).lanes ew (s.vregs.get vs2).val) = none := h
  simp only [exec, execVdiv, lanewise2, withV_eq, noteRead_noteRead_eq_noted, State_noteRead_vregs, hfind]

theorem exec_vdiv_zero {j : Nat} (h : firstZeroLane (s.lanes ew (vval s vs2)) = some j) :
    exec (.vdiv vd vs1 vs2 ew sg) s = .next ((s.noted [vs1, vs2]).raise .divideByZero j 0) := by
  have hfind : firstZeroLane ((s.noted [vs1, vs2]).lanes ew (s.vregs.get vs2).val) = some j := h
  simp only [exec, execVdiv, withV_eq, noteRead_noteRead_eq_noted, State_noteRead_vregs, hfind]

end

/-- Settles O57: no zero lane is found and VDIV is lane-wise, or the lowest one is found and reported. -/
theorem vdivLanesOrDivideByZero : Obligations.VdivLanesOrDivideByZero := by
  refine fun s vd vs1 vs2 ew sg => ⟨fun h => ?_, fun j hj h0 hlow => ?_⟩
  · rw [exec_vdiv_no_zero (firstZeroLane_lanes_eq_none s ew _ h)]
    exact lanewise2_lanes (g := fun a b => BitVec.ofInt ew.bits ((num sg a).tdiv (num sg b))) divPattern_eq_ofInt_tdiv
  · exact exec_vdiv_zero (firstZeroLane_lanes_eq_some s ew _ hj h0 hlow)

end Sys2Proof.Machine
end

section
/-! PROOFS (44_simd.md R279 to R286). The instructions whose result is a function of all lanes: reductions and population
counts (O58), VCOMPRESS (O59) and VHPAR (O60). -/

namespace Sys2Proof.Machine

/-! ### Packed and reduced results -/

section
variable (p : Params) (ew : EW)

theorem bits_le_vlen_bits : ew.bits ≤ p.vlen.bits := by
  rcases p.vlen <;> cases ew <;> decide

theorem laneCount_pos : 0 < laneCount p ew := Nat.div_pos (bits_le_vlen_bits p ew) (EW_bits_pos ew)

/-- A reduction's value stands in lane 0 alone. -/
theorem toNat_truncVLen_setWidth (x : BitVec ew.bits) : (truncVLen p (x.setWidth 512)).toNat = x.toNat := by
  have hval : (x.setWidth 512).toNat = x.toNat :=
    BitVec.toNat_setWidth_of_le ((bits_le_vlen_bits p ew).trans (vlen_bits_le p))
  rw [truncVLen_of_lt, hval]
  exact hval ▸ x.isLt.trans_le (Nat.pow_le_pow_right (by decide) (bits_le_vlen_bits p ew))

theorem lane_truncVLen_packLanes {xs : List (BitVec ew.bits)} {j : Nat} (hxs : xs.length ≤ laneCount p ew)
    (hj : j < laneCount p ew) : lane (truncVLen p (packLanes xs)) ew.bits j = xs.getD j 0 := by
  have hfit : xs.length * ew.bits ≤ p.vlen.bits := laneCount_mul_bits p ew ▸ Nat.mul_le_mul_right _ hxs
  rw [truncVLen_packLanes p (EW_bits_pos ew) xs hfit, lane_packLanes (EW_bits_pos ew) xs (lane_fits p ew hj)]
  rfl

end

theorem getD_map_lanes (s : State) {ew : EW} {α : Type} (f : BitVec ew.bits → α) (x : VWord) (d : α) {j : Nat}
    (hj : j < laneCount s.params ew) : ((s.lanes ew x).map f).getD j d = f (lane x ew.bits j) := by
  simp [State.lanes, lanes, hj]

/-! ### Reductions (44_simd.md R279 to R281) -/

section
variable {n : Nat} (sg : Sgn) (x : BitVec n) (xs : List (BitVec n))

/-- A left fold that keeps the better of two lanes is the fold behind `List.argmin` and `List.argmax`. -/
theorem foldl_argAux_some (r : BitVec n → BitVec n → Prop) [DecidableRel r] :
    xs.foldl (List.argAux r) (some x) = some (xs.foldl (fun m y => if r y m then y else m) x) := by
  induction xs generalizing x with
  | nil => rfl
  | cons y xs ih =>
    rw [List.foldl_cons, List.foldl_cons, ← ih]
    exact congrArg (xs.foldl (List.argAux r)) (apply_ite some (r y x) y x).symm

theorem leastLane_mem_argmin : leastLane sg x xs ∈ (x :: xs).argmin (num sg) :=
  foldl_argAux_some x xs fun y m => num sg y < num sg m

theorem greatestLane_mem_argmax : greatestLane sg x xs ∈ (x :: xs).argmax (num sg) :=
  foldl_argAux_some x xs fun y m => num sg m < num sg y

end

section
variable (s : State) (vd vs1 : VNum) (ew : EW)

/-- A reduction that chooses one of the lanes, such that r relates it to every lane. -/
theorem reduceLanes_chooses {f : (n : Nat) → BitVec n → List (BitVec n) → BitVec n}
    {r : BitVec ew.bits → BitVec ew.bits → Prop} (hmem : ∀ x xs, f ew.bits x xs ∈ x :: xs)
    (hr : ∀ x xs, ∀ y ∈ x :: xs, r (f ew.bits x xs) y) :
    ∃ t, fromLanes (reduceLanes f) vd vs1 ew s = .next t ∧ WritesOnlyV s t [vs1] vd ∧
      ∃ j < laneCount s.params ew, (vval t vd).toNat = (lane (vval s vs1) ew.bits j).toNat ∧
        ∀ k < laneCount s.params ew, r (lane (vval s vs1) ew.bits j) (lane (vval s vs1) ew.bits k) := by
  obtain ⟨x, xs, hxs⟩ : ∃ x xs, s.lanes ew (vval s vs1) = x :: xs :=
    List.exists_cons_of_length_pos (by rw [State_lanes_length]; exact laneCount_pos ..)
  have hlane : ∀ y, y ∈ x :: xs ↔ ∃ j < laneCount s.params ew, lane (vval s vs1) ew.bits j = y := fun y =>
    hxs ▸ mem_lanes_iff s ew _
  obtain ⟨j, hj, hchosen⟩ := (hlane _).1 (hmem x xs)
  refine ⟨_, fromLanes_eq .., withResult_writesOnlyV .., j, hj, ?_, fun k hk => ?_⟩
  · rw [vval_withResult, hxs, hchosen]
    exact toNat_truncVLen_setWidth ..
  · rw [hchosen]
    exact hr x xs _ ((hlane _).2 ⟨k, hk, rfl⟩)

theorem exec_vredsum_sum (sg : Sgn) : ∃ t, exec (.vredsum vd vs1 ew sg) s = .next t ∧ WritesOnlyV s t [vs1] vd ∧
    (vval t vd).toNat =
      ((List.range (laneCount s.params ew)).map fun j => (lane (vval s vs1) ew.bits j).toNat).sum % 2 ^ ew.bits := by
  rw [exec, execVredsum]
  refine ⟨_, fromLanes_eq .., withResult_writesOnlyV .., ?_⟩
  rw [vval_withResult, toNat_truncVLen_setWidth, sumLanes, BitVec.toNat_ofNat, State.lanes, lanes, List.map_map]
  rfl

/-! ### Population counts (44_simd.md R282) -/

theorem popcount_lt_two_pow {n : Nat} (x : BitVec n) : popcount x < 2 ^ n :=
  calc popcount x ≤ (List.range n).length := List.length_filter_le ..
    _ = n := List.length_range
    _ < 2 ^ n := Nat.lt_two_pow_self

theorem exec_vpopcnt_lanes (sg : Sgn) : ∃ t, exec (.vpopcnt vd vs1 ew sg) s = .next t ∧ WritesOnlyV s t [vs1] vd ∧
    ∀ j < laneCount s.params ew, (lane (vval t vd) ew.bits j).toNat = popcount (lane (vval s vs1) ew.bits j) := by
  rw [exec, execVpopcnt]
  refine ⟨_, fromLanes_eq .., withResult_writesOnlyV .., fun j hj => ?_⟩
  rw [vval_withResult, lane_truncVLen_packLanes _ _ (by simp) hj, getD_map_lanes s _ _ _ hj, BitVec.toNat_ofNat,
    Nat.mod_eq_of_lt (popcount_lt_two_pow _)]

end

/-- Settles O58: the sum and the counts by their lanes, the chosen lanes as `List.argmin` and `List.argmax` of the
numbers. -/
theorem vectorReductionsAndPopcount : Obligations.VectorReductionsAndPopcount := by
  refine fun s vd vs1 ew sg => ⟨exec_vredsum_sum s vd vs1 ew sg, ?_, ?_, exec_vpopcnt_lanes s vd vs1 ew sg⟩
  · rw [exec, execVredmin]
    exact reduceLanes_chooses s vd vs1 ew (r := fun x y => num sg x ≤ num sg y)
      (fun x xs => List.argmin_mem (leastLane_mem_argmin sg x xs))
      fun x xs _ hy => List.le_of_mem_argmin hy (leastLane_mem_argmin sg x xs)
  · rw [exec, execVredmax]
    exact reduceLanes_chooses s vd vs1 ew (r := fun x y => num sg y ≤ num sg x)
      (fun x xs => List.argmax_mem (greatestLane_mem_argmax sg x xs))
      fun x xs _ hy => List.le_of_mem_argmax hy (greatestLane_mem_argmax sg x xs)

/-! ### VCOMPRESS (44_simd.md R283) -/

theorem selectLanes_map {n : Nat} (a b : Nat → BitVec n) (js : List Nat) :
    selectLanes (js.map a) (js.map b) = (js.filter fun j => decide (b j ≠ 0)).map a := by
  induction js with
  | nil => rfl
  | cons j js ih =>
    rw [List.map_cons, List.map_cons, selectLanes, ih]
    by_cases hb : b j = 0#n
    · rw [if_pos hb, List.filter_cons_of_neg (by simpa using hb)]
    · rw [if_neg hb, List.filter_cons_of_pos (by simpa using hb), List.map_cons]

/-- Among the numbers below n that p holds of, j stands at the place numbered by those before it. -/
theorem getElem?_filter_range {q : Nat → Bool} {j n : Nat} (hj : j < n) (hq : q j = true) :
    ((List.range n).filter q)[((List.range j).filter q).length]? = some j := by
  induction n with
  | zero => omega
  | succ n ih =>
    rw [List.range_succ, List.filter_append]
    obtain hlt | rfl : j < n ∨ j = n := by omega
    · have hat := ih hlt
      rw [List.getElem?_append_left (List.getElem?_eq_some_iff.1 hat).1, hat]
    · simp [hq]

section
variable (s : State) (vd vs1 vs2 : VNum) (ew : EW)

/-- The lanes VCOMPRESS packs, by their numbers. -/
def chosenLanes : List Nat := (List.range (laneCount s.params ew)).filter fun j => decide (lane (vval s vs2) ew.bits j ≠ 0)

theorem chosenLanes_length_le : (chosenLanes s vs2 ew).length ≤ laneCount s.params ew :=
  (List.length_filter_le ..).trans (by simp)

/-- The state VCOMPRESS ends in: the chosen lanes packed, their number in VCNT. -/
def State.compressed : State :=
  let t := s.withResult [vs1, vs2] vd (packLanes ((chosenLanes s vs2 ew).map (lane (vval s vs1) ew.bits)))
  { t with csr := { t.csr with vcnt := BitVec.ofNat 64 (chosenLanes s vs2 ew).length } }

theorem exec_vcompress (sg : Sgn) : exec (.vcompress vd vs1 vs2 ew sg) s = .next (s.compressed vd vs1 vs2 ew) := by
  have hsel : selectLanes (s.lanes ew (vval s vs1)) (s.lanes ew (vval s vs2)) =
      (chosenLanes s vs2 ew).map (lane (vval s vs1) ew.bits) := selectLanes_map ..
  rw [State.compressed, ← List.length_map (lane (vval s vs1) ew.bits), ← hsel, State.withResult,
    ← noteRead_noteRead_eq_noted]
  rfl

end

/-- Settles O59: the packed lanes are those of `chosenLanes`, in order, and lanes past the last of them are 0. -/
theorem vcompressPacksSelectedLanes : Obligations.VcompressPacksSelectedLanes := by
  intro s vd vs1 vs2 ew sg chosen before
  obtain ⟨-, hother, hwritten, hfits⟩ := withResult_writesOnlyV s [vs1, vs2] vd
    (packLanes ((chosenLanes s vs2 ew).map (lane (vval s vs1) ew.bits)))
  have hlane : ∀ j < laneCount s.params ew, lane (vval (s.compressed vd vs1 vs2 ew) vd) ew.bits j =
      ((chosenLanes s vs2 ew).map (lane (vval s vs1) ew.bits)).getD j 0 := fun j hj => by
    rw [← lane_truncVLen_packLanes s.params ew (by simpa using chosenLanes_length_le s vs2 ew) hj, ← vval_withResult]
    rfl
  refine ⟨_, exec_vcompress .., rfl, hother, hwritten, hfits, fun j hj hsel => ?_, fun k hk hlt => ?_⟩
  · have hat : (chosenLanes s vs2 ew)[before j]? = some j := getElem?_filter_range hj hsel
    have hbefore : before j < laneCount s.params ew :=
      (List.getElem?_eq_some_iff.1 hat).1.trans_le (chosenLanes_length_le s vs2 ew)
    rw [hlane _ hbefore]
    simp [hat]
  · rw [hlane k hlt]
    exact List.getD_eq_default _ _ (by rwa [List.length_map])

/-! ### VHPAR (44_simd.md R285, R286) -/

section
variable (p : Params) (ew : EW) (k : Fin 8)

/-- A legal mask index names a mask, or is 7, which names none. -/
theorem hparLegal_iff_mask : hparLegal ew k = true → (k.val < (hamMasks p ew.bits).length ↔ k.val ≠ 7) := by
  rw [hamMasks_length]
  revert k
  cases ew <;> decide

theorem toNat_hparBit (hk : hparLegal ew k = true) (x : BitVec ew.bits) :
    (hparBit p k.val x).toNat = hamCode p x / 2 ^ (if k.val = 7 then 0 else k.val + 1) % 2 := by
  have hmask := hparLegal_iff_mask p ew k hk
  unfold hparBit
  cases hget : (hamMasks p ew.bits)[k.val]? with
  | some mk =>
    rw [if_neg (hmask.1 (List.getElem?_eq_some_iff.1 hget).1), hamCode_bit p x hget]
    exact Nat.mod_mod ..
  | none =>
    have h7 : k.val = 7 := by
      have hlen := List.getElem?_eq_none_iff.1 hget
      omega
    rw [if_pos h7, Nat.pow_zero, Nat.div_one]
    rfl

/-- A register packed from single bits holds the j-th of them in its bit j. -/
theorem packLanes_one_div_mod (bits : List (BitVec 1)) {j : Nat} (hj : j < 512) :
    (packLanes bits).toNat / 2 ^ j % 2 = (bits.getD j 0#1).toNat := by
  have hbit : ∀ b : BitVec 1, (b.getLsbD 0).toNat = b.toNat := by decide
  rw [← Nat.toNat_testBit, BitVec.testBit_toNat, packLanes_getLsbD (by decide) bits hj, Nat.div_one, Nat.mod_one, hbit]

theorem toNat_packLanes_one_lt {bits : List (BitVec 1)} : (packLanes bits).toNat < 2 ^ bits.length := by
  apply Nat.lt_pow_two_of_testBit
  intro i hi
  rw [BitVec.testBit_toNat]
  by_cases h512 : i < 512
  · rw [packLanes_getLsbD (by decide) bits h512, Nat.div_one, List.getD_eq_default _ _ hi]
    simp
  · exact BitVec.getLsbD_of_ge _ _ (by omega)

end

section
variable (s : State) (ew : EW) (k : Fin 8) (x : VWord)

/-- The bits VHPAR packs, that of lane 0 first. -/
def hparBits : List (BitVec 1) := (s.lanes ew x).map (hparBit s.params k.val)

theorem hparBits_length : (hparBits s ew k x).length = laneCount s.params ew := by
  rw [hparBits, List.length_map, State_lanes_length]

theorem truncVLen_packLanes_hparBits : truncVLen s.params (packLanes (hparBits s ew k x)) = packLanes (hparBits s ew k x) :=
  truncVLen_packLanes _ (by decide) _ (by rw [hparBits_length, Nat.mul_one]; exact Nat.div_le_self ..)

theorem exec_vhpar_legal (vd vs1 : VNum) (sg : Sgn) (hk : hparLegal ew k = true) :
    exec (.vhpar vd vs1 ew sg k) s = .next (s.withResult [vs1] vd (packLanes (hparBits s ew k (vval s vs1)))) := by
  rw [exec, execVhpar, if_pos hk, fromLanes_eq, hparBits]

end

/-- Settles O60: VHPAR packs one bit per lane, and that bit is the lane's code bit (`toNat_hparBit`). -/
theorem vhparBitsAreTheScalarCode : Obligations.VhparBitsAreTheScalarCode := by
  intro s vd vs1 ew sg k hk
  refine ⟨_, exec_vhpar_legal s ew k vd vs1 sg hk, withResult_writesOnlyV .., ?_, fun j hj => ?_⟩
  · rw [vval_withResult, truncVLen_packLanes_hparBits, ← hparBits_length s ew k (vval s vs1)]
    exact toNat_packLanes_one_lt
  · have hj512 : j < 512 := (hj.trans_le (Nat.div_le_self ..)).trans_le (vlen_bits_le s.params)
    rw [vval_withResult, truncVLen_packLanes_hparBits, packLanes_one_div_mod _ hj512, hparBits,
      getD_map_lanes s _ _ _ hj, toNat_hparBit _ _ _ hk]

end Sys2Proof.Machine
end

section
/-! PROOFS (60_exceptions.md R310 to R332). What `raise` does (O21), and the error codes each command can end with (O19): those
of its start checks, of its loop's body and of its last effects. -/

namespace Sys2Proof.Machine

/-- Settles O21: `raise` is the report of R316 (a) and completion (R316 (f)), written out. -/
theorem raiseReportsAndEndsTheCommand : Obligations.RaiseReportsAndEndsTheCommand := fun _ _ _ _ => rfl

/-- The outcome is a next state whose ERR is one of es. -/
def Reports (es : List ErrCode) (o : Host.Outcome State Fault Refusal) : Prop := Yields o fun t => t.csr.err ∈ es

section
variable {es : List ErrCode} {s : State}

theorem reports_raise {e : ErrCode} (he : e ∈ es) (i it : Nat) : Reports es (.next (s.raise e i it)) := yields_next.2 he

/-- A command that leaves the report of its acceptance alone ends without an error (10_state.md R34). -/
theorem reports_of_err_eq {t : State} (hs : s.csr.err = .none) (hnone : .none ∈ es) (ht : t.csr.err = s.csr.err) :
    Reports es (.next t) := yields_next.2 (by rwa [ht, hs])

theorem startAN_reports {k : AnSetup → Host.Outcome State Fault Refusal} (hk : ∀ c, Reports es (k c))
    (hes : .configError ∈ es) : Reports es (s.startAN k) := startAN_yields (fun c _ => hk c) hes

theorem startHam_reports {k : Nat → Host.Outcome State Fault Refusal} (hk : ∀ w, Reports es (k w))
    (hes : .configError ∈ es) : Reports es (s.startHam k) := startHam_yields (hk _) hes

/-! ### The stream commands -/

/-- The body goes on without a report, or ends with an error of es. -/
def BodyReports (es : List ErrCode) (body : State → Flow) : Prop :=
  ∀ u, (body u).Holds (fun v => v.csr.err = u.csr.err) fun t => t.csr.err ∈ es

/-- A copying body can be refused an access, and an element where its check can fail (41_an_codec.md R178, R185). -/
theorem copyBody_reports {ss ds : Nat} {ok : Nat → Bool} {f : Params → Nat → Nat} (hbus : .busError ∈ es)
    (hok : ∀ e, ok e = false → .corruptionDetected ∈ es) : BodyReports es (copyBody ss ds ok f) := by
  refine fun u => loadElem_holds (fun _ => ?_) fun _ => hbus
  split
  · exact storeElem_holds (fun _ => rfl) fun _ => hbus
  · exact hok _ (Bool.eq_false_iff.2 ‹_›)

theorem chkBody_reports (c : AnSetup) : BodyReports (familyErrors .chk) (chkBody c) := by
  refine fun u => loadElem_holds (fun _ => ?_) fun _ => by simp [familyErrors]
  split
  · rfl
  · simp [familyErrors]

/-- A mismatch is counted and located, not reported: HCHK's body ends at a refused read alone (43_hamming.md R241). -/
theorem hchkBody_reports (w : Nat) : BodyReports (familyErrors .hchk) (hchkBody w) := by
  refine fun u => loadElem_holds (fun _ => ?_) fun _ => by simp [familyErrors]
  split <;> rfl

/-- A loop ends with an error of its body, or without one; then its command's last effects decide. -/
theorem stream_reports {body : State → Flow} {done : State → State} (hs : s.csr.err = .none) (hbody : BodyReports es body)
    (hdone : ∀ u, u.csr.err = .none → (done u).csr.err ∈ es) : Reports es ((s.stream body).outcome done) := by
  refine outcome_yields (R := fun u => u.csr.err = .none) (stream_keeps _ hs (fun u hu => ?_) (fun _ hu => hu) fun _ hu => hu)
    hdone
  exact Flow_holds_mono (hbody u) (fun v hv => hv.trans hu) fun _ ht => ht

/-- A copying command after its other start checks. -/
theorem copyCommand_reports {ss ds : Nat} {ok : Nat → Bool} {f : Params → Nat → Nat} {done : State → State}
    (hs : s.csr.err = .none) (hes : [.none, .busError, .bufferOverlap] ⊆ es)
    (hok : ∀ e, ok e = false → .corruptionDetected ∈ es) (hdone : ∀ u, (done u).csr.err = u.csr.err) :
    Reports es (s.overlapCheck ss ds ((s.stream (copyBody ss ds ok f)).outcome done)) := by
  refine overlapCheck_yields (stream_reports hs (copyBody_reports (hes (by simp)) hok) fun u hu => ?_)
    (hes (by simp))
  rw [hdone, hu]
  exact hes (by simp)

theorem arithRun_reports (hs : s.csr.err = .none) (hes : [.none, .busError, .bufferOverlap] ⊆ es) (c : AnSetup)
    (f : BitVec (2 * c.w) → BitVec (2 * c.w)) : Reports es (s.arithRun c f) := by
  rw [State.arithRun, arithBody_eq_copyBody]
  exact copyCommand_reports hs hes (by simp) (fun _ => rfl)

end

/-! ### The commands, by family (60_exceptions.md R332) -/

section
variable {s : State} (hs : s.csr.err = .none)

theorem checkConstant_error_mem {c w : Nat} {e : ErrCode} (h : checkConstant c w = .error e) :
    e ∈ [ErrCode.configError, .invariantViolation] := by
  obtain ⟨rfl, -⟩ | ⟨rfl, -⟩ := checkConstant_error h <;> simp

include hs

theorem execSeta_reports : Reports (familyErrors .seta) (execSeta s) := by
  unfold execSeta
  split
  · exact reports_raise (by decide) ..
  · split
    · rename_i hck
      exact reports_raise (List.mem_cons_of_mem _ (checkConstant_error_mem hck)) ..
    · exact reports_of_err_eq hs (by decide) rfl

theorem execModinv_reports : Reports (familyErrors .modinv) (execModinv s) := by
  unfold execModinv
  split
  · exact reports_raise (by decide) ..
  · split
    · exact reports_raise (by decide) ..
    · split
      · exact reports_of_err_eq hs (by decide) rfl
      · exact reports_raise (by decide) ..

theorem execEnc_reports : Reports (familyErrors .enc) (execEnc s) := by
  refine startAN_reports (fun c => ?_) (by decide)
  rw [encBody_eq_copyBody]
  exact copyCommand_reports hs (by decide) (by simp) (fun _ => rfl)

theorem execChk_reports : Reports (familyErrors .chk) (execChk s) :=
  startAN_reports (fun c => stream_reports hs (chkBody_reports c) fun u hu => by simp [hu, familyErrors]) (by decide)

theorem execDec_reports : Reports (familyErrors .dec) (execDec s) := by
  refine startAN_reports (fun c => ?_) (by decide)
  rw [decBody_eq_copyBody]
  exact copyCommand_reports hs (by decide) (by simp) (fun _ => rfl)

theorem execDecchk_reports : Reports (familyErrors .decchk) (execDecchk s) := by
  refine startAN_reports (fun c => ?_) (by decide)
  rw [decchkBody_eq_copyBody]
  exact copyCommand_reports hs (by decide) (fun _ _ => by decide) (fun _ => rfl)

theorem execReenc_reports : Reports (familyErrors .reenc) (execReenc s) := by
  refine startAN_reports (fun c => ?_) (by decide)
  split
  · rename_i hck
    have hsub : [ErrCode.configError, .invariantViolation] ⊆ familyErrors .reenc := by decide
    exact reports_raise (hsub (checkConstant_error_mem hck)) ..
  · rw [reencBody_eq_copyBody]
    exact copyCommand_reports hs (by decide) (fun _ _ => by decide) (fun _ => rfl)

theorem execArithDiv_reports : Reports (familyErrors .arithDiv) (execArithDiv s) := by
  refine startAN_reports (fun c => ?_) (by decide)
  split
  · exact reports_raise (by decide) ..
  · exact arithRun_reports hs (by decide) ..

theorem execHenc_reports : Reports (familyErrors .henc) (execHenc s) := by
  refine startHam_reports (fun w => ?_) (by decide)
  rw [hencBody_eq_copyBody]
  exact copyCommand_reports hs (by decide) (by simp) (fun _ => rfl)

/-- HCHK reports a mismatch in its last effects (43_hamming.md R240). -/
theorem execHchk_reports : Reports (familyErrors .hchk) (execHchk s) := by
  refine startHam_reports (fun w => stream_reports hs (hchkBody_reports w) fun u hu => ?_) (by decide)
  cases hf : u.seq.found <;> simp [State.finishHchk, hf, hu, familyErrors]

theorem execVld_reports (vr : VNum) (imm : BitVec 16) : Reports [.none, .busError] (execVld vr imm s) := by
  unfold execVld
  split
  · exact reports_of_err_eq hs (by decide) rfl
  · exact reports_raise (by decide) ..

theorem execVst_reports (vr : VNum) (imm : BitVec 16) : Reports [.none, .busError] (execVst vr imm s) := by
  rw [execVst, withV_eq]
  split
  · exact reports_of_err_eq hs (by decide) rfl
  · exact reports_raise (by decide) ..

theorem lanewise2_reports (f : (n : Nat) → BitVec n → BitVec n → BitVec n) (vd vs1 vs2 : VNum) (ew : EW) :
    Reports [.none] (lanewise2 f vd vs1 vs2 ew s) := reports_of_err_eq hs (by decide) rfl

theorem fromLanes_reports (f : (n : Nat) → List (BitVec n) → VWord) (vd vs1 : VNum) (ew : EW) :
    Reports [.none] (fromLanes f vd vs1 ew s) := reports_of_err_eq hs (by decide) rfl

theorem execVdiv_reports (vd vs1 vs2 : VNum) (ew : EW) (sg : Sgn) :
    Reports [.none, .divideByZero] (execVdiv vd vs1 vs2 ew sg s) := by
  rw [execVdiv, withV_eq, withV_eq]
  split
  · exact reports_raise (by decide) ..
  · exact reports_of_err_eq hs (by decide) rfl

/-- VHPAR reports ILLEGAL_COMMAND only as a term without a word (30_encoding.md R117). -/
theorem execVhpar_reports {ew : EW} {k : Fin 8} (hk : hparLegal ew k = true) (vd vs1 : VNum) (sg : Sgn) :
    Reports [.none] (execVhpar vd vs1 ew sg k s) := by
  rw [execVhpar, if_pos hk]
  exact fromLanes_reports hs ..

/-- Every instruction that has a word, accepted, ends with an error of its family or without one. -/
theorem exec_reports {i : Instr} (hi : i.wellFormed = true) : Reports (familyErrors i) (exec i s) := by
  cases i with
  | nop => exact reports_of_err_eq hs (by decide) rfl
  | seta => exact execSeta_reports hs
  | modinv => exact execModinv_reports hs
  | enc => exact execEnc_reports hs
  | chk => exact execChk_reports hs
  | dec => exact execDec_reports hs
  | decchk => exact execDecchk_reports hs
  | reenc => exact execReenc_reports hs
  | arithAdd | arithSub | arithMul => exact startAN_reports (fun c => arithRun_reports hs (by decide) c _) (by decide)
  | arithDiv => exact execArithDiv_reports hs
  | henc => exact execHenc_reports hs
  | hchk => exact execHchk_reports hs
  | vld vr imm => exact execVld_reports hs vr imm
  | vst vr imm => exact execVst_reports hs vr imm
  | vadd | vsub | vmullo | vmin | vmax | vcmpLt | vcmpLe | vcmpEq | vcmpNe | vcmpGe | vcmpGt =>
    simp only [exec, execVadd, execVsub, execVmullo, execVmin, execVmax, execVcmpLt, execVcmpLe, execVcmpEq, execVcmpNe,
      execVcmpGe, execVcmpGt, familyErrors, lanewise2_reports hs]
  | vdiv vd vs1 vs2 ew sg => exact execVdiv_reports hs vd vs1 vs2 ew sg
  | vredsum | vredmin | vredmax | vpopcnt =>
    simp only [exec, execVredsum, execVredmin, execVredmax, execVpopcnt, familyErrors, fromLanes_reports hs]
  | vcompress => exact reports_of_err_eq hs (List.mem_singleton_self _) rfl
  | vhpar vd vs1 ew sg k => exact execVhpar_reports hs hi vd vs1 sg

end

theorem runCommand_of_error {s : State} {e : Illegal} (h : decode s.csr.cmd = .error e) :
    runCommand s = .next (s.raise .illegalCommand 0 0) := by rw [runCommand, h]

/-- Settles O19: the errors of each instruction are those its checks, loop and last effects raise (`exec_reports`); a word
that does not decode raises ILLEGAL_COMMAND. -/
theorem commandsReportTheirFamilysErrors : Obligations.CommandsReportTheirFamilysErrors := by
  refine ⟨fun i s t hi hs h => yields_of_next (exec_reports hs hi) h, fun s t e hd h => ?_⟩
  rw [runCommand_of_error hd] at h
  cases h
  rfl

end Sys2Proof.Machine
end

section
/-! PROOFS (70_reset_and_hazards.md R343, R344). The bytes that the reset input leaves free, and the state it leaves where
there are none (O10). -/

namespace Sys2Proof.Machine

theorem runningDst_of_ok {s : State} {i : Instr} (h : decode s.csr.cmd = .ok i) : s.runningDst = dstRange s i := by
  rw [State.runningDst, h]

theorem runningDst_of_error {s : State} {e : Illegal} (h : decode s.csr.cmd = .error e) : s.runningDst = (0, 0) := by
  rw [State.runningDst, h]

theorem resetDraws_of_idle {s : State} (h : s.csr.busy = false) : s.resetDraws = [] := by
  simp [State.resetDraws, h]

theorem resetDraws_of_busy {s : State} (h : s.csr.busy = true) :
    s.resetDraws = bytesAt s.runningDst.1 s.runningDst.2 := if_pos h

/-- An illegal word has no destination (30_encoding.md R122), so that its reset draws nothing. -/
theorem resetDraws_of_error {s : State} {e : Illegal} (hb : s.csr.busy = true) (h : decode s.csr.cmd = .error e) :
    s.resetDraws = [] := by
  rw [resetDraws_of_busy hb, runningDst_of_error h]
  rfl

theorem mem_resetDraws {s : State} {i : Instr} {a : Nat} (hb : s.csr.busy = true) (hd : decode s.csr.cmd = .ok i) :
    a ∈ s.resetDraws ↔ a < 2 ^ 64 ∧ inRange (dstRange s i) a = true := by
  rw [resetDraws_of_busy hb, runningDst_of_ok hd, mem_bytesAt]

/-- Where it draws no byte, the reset input is the reset state beside memory and the environment's own fields. -/
theorem resetInput_of_no_draws {s : State} (h : s.resetDraws = []) :
    s.resetInput = { State.resetWith s.params with
      mem := s.mem, schedule := s.schedule, freeIdx := s.freeIdx, rdata := s.rdata } := by
  rw [State.resetInput, h]
  rfl

theorem step_reset {s : State} {rest : List Turn} (h : s.schedule = .host .reset :: rest) :
    step s = .next (State.resetInput { s with schedule := rest }) := step_host h

theorem step_reset_of_no_draws {s : State} {rest : List Turn} (hs : s.schedule = .host .reset :: rest)
    (h : s.resetDraws = []) : step s = .next { State.resetWith s.params with
      mem := s.mem, schedule := rest, freeIdx := s.freeIdx, rdata := s.rdata } :=
  (step_reset hs).trans (congrArg _ (resetInput_of_no_draws (s := { s with schedule := rest }) h))

/-- Settles O10: no byte is drawn while IDLE or under an illegal word, the bytes of the destination range under a legal
one. -/
theorem resetInputRestoresTheBlock : Obligations.ResetInputRestoresTheBlock := by
  refine ⟨fun s rest hb hs => ?_, fun s e rest hb hd hs => ?_, fun s i rest hm hb hd hs => ?_⟩
  · exact step_reset_of_no_draws hs (resetDraws_of_idle hb)
  · exact step_reset_of_no_draws hs (resetDraws_of_error hb hd)
  · set u : State := { s with schedule := rest }
    have hdraws : ∀ {a}, a ∈ u.resetDraws ↔ a < 2 ^ 64 ∧ inRange (dstRange s i) a = true := mem_resetDraws hb hd
    refine ⟨_, step_reset hs, rfl, fun a ha => ?_, fun a hlt ha => ?_⟩
    · exact Memory_readByte_scramble_of_not_mem _ _ fun h => absurd (ha.symm.trans (hdraws.1 h).2) (by decide)
    · exact Memory_readByte_scramble_of_mem hm.1 s.freeIdx (hdraws.2 ⟨hlt, ha⟩)

end Sys2Proof.Machine
end
